-- ==== Sys2Proof/Word.lean ====
section
/-! DEFINITION. The word types of HUFFCORE, with the widths of 00_scope.md rule R7. -/

namespace Sys2Proof

/-- A command word, `CMDW` = 16 bits (R7, R100). -/
abbrev Word := BitVec 16

/-- A byte of the input stream or of `OUT` (R71). -/
abbrev Byte := BitVec 8

/-- A symbol is one byte value 0..255, `SYMW` = 8 bits (R7, R16). -/
abbrev Symbol := BitVec 8

/-- One frequency count, `FREQW` = 32 bits (R7, R21). -/
abbrev Count := BitVec 32

/-- A node weight, `TOTAL` or `DECODED`, `WW` = 40 bits (R7, R22, R24, R34). -/
abbrev Weight := BitVec 40

/-- A node index, `IDXW` = 9 bits (R7, R24, R26). -/
abbrev NodeIdx := BitVec 9

/-- A count of symbols, `IDXW` = 9 bits: `UNIQUE`, `HCNT`, `PLLEN` (R7, R23, R32, R42). -/
abbrev Tally := BitVec 9

end Sys2Proof
end

