-- ==== Sys2Proof/Syntax.lean ====
section
/-! DEFINITION. The fourteen commands of HUFFCORE-CMD version 1: one constructor per row of the opcode map (R102). -/

namespace Sys2Proof

/-- A command. `REC`, `HIN`, `PUT` and `GET` carry the operand byte `imm8` (R100, R101); the others have no operand.
The row `REC` is the constructor `recSym`, since `Instr.rec` is Lean's own name for the recursor. -/
inductive Instr where
  /-- `NOP` (R241) -/
  | nop
  /-- `CLR` (R242) -/
  | clr
  /-- `REC imm8`: count one occurrence of a symbol (R131) -/
  | recSym (sym : Symbol)
  /-- `HIN imm8`: take one header byte (R194) -/
  | hin (b : Byte)
  /-- `SEED` (R145) -/
  | seed
  /-- `MERGE` (R162) -/
  | merge
  /-- `BUILD` (R164) -/
  | build
  /-- `GEN` (R181) -/
  | gen
  /-- `HOUT` (R191) -/
  | hout
  /-- `PUT imm8`: pack the code of a symbol (R212) -/
  | put (sym : Symbol)
  /-- `FLUSH` (R214) -/
  | flush
  /-- `GET imm8`: decode one body byte (R226) -/
  | get (b : Byte)
  /-- `DREP` (R229) -/
  | drep
  /-- `IOERR` (R243) -/
  | ioerr
deriving DecidableEq, Repr

end Sys2Proof
end

