-- ==== Sys2Proof/WellFormed.lean ====
section
/-! DEFINITION. When a command word is well-formed (R104), as three checks on its fields (R100). Every term of `Instr` is
the command of some well-formed word, since its operand is a byte by type; the checks are on words. -/

namespace Sys2Proof

/-- The three fields of a command word (R100). -/
structure Fields where
  /-- bits 15:12, the opcode -/
  op : BitVec 4
  /-- bits 11:8, reserved -/
  rsv : BitVec 4
  /-- bits 7:0, the operand byte -/
  imm8 : Byte
deriving DecidableEq, Repr

/-- The opcode is assigned: `op <= 0xD` (R104, R102). -/
def Fields.opAssigned (f : Fields) : Bool := decide (f.op ≤ 0xD#4)

/-- The reserved bits are clear: `rsv = 0` (R100, R104). -/
def Fields.rsvClear (f : Fields) : Bool := f.rsv == 0#4

/-- The operand byte is 0 unless the opcode takes one: 0x2, 0x3, 0x9 or 0xB (R104). -/
def Fields.operandAllowed (f : Fields) : Bool :=
  f.imm8 == 0#8 || f.op == 0x2#4 || f.op == 0x3#4 || f.op == 0x9#4 || f.op == 0xB#4

/-- A well-formed word passes all three checks (R104). -/
def Fields.wellFormed (f : Fields) : Bool := f.opAssigned && f.rsvClear && f.operandAllowed

end Sys2Proof
end

