-- ==== Sys2Proof/Decode.lean ====
section
/-! DEFINITION. Decoding command words (R100 to R105), total and rejecting by name; then the encoder, from the same
opcode map; then the map itself as match/mask rows (R102). -/

namespace Sys2Proof

/-- Why a word is ill-formed (R105). All three raise ILLEGAL (R265). -/
inductive Reject where
  /-- opcode 0xE or 0xF -/
  | reservedOpcode
  /-- `rsv != 0` -/
  | reservedBits
  /-- `imm8 != 0` in a command without operand -/
  | operandNotZero
deriving DecidableEq, Repr

/-- The fields of a word (R100): `op = w[15:12]`, `rsv = w[11:8]`, `imm8 = w[7:0]`. -/
def fieldsOf (w : Word) : Fields :=
  { op := w.extractLsb' 12 4, rsv := w.extractLsb' 8 4, imm8 := w.extractLsb' 0 8 }

/-- A row with an operand: only the reserved bits are checked (mask 0xFF00, R102). -/
def withOperand (f : Fields) (mk : Byte → Instr) : Except Reject Instr :=
  if f.rsv = 0#4 then .ok (mk f.imm8) else .error .reservedBits

/-- A row without operand: reserved bits and operand byte must be 0 (mask 0xFFFF, R102). -/
def noOperand (f : Fields) (i : Instr) : Except Reject Instr :=
  if f.rsv = 0#4 then
    if f.imm8 = 0#8 then .ok i else .error .operandNotZero
  else .error .reservedBits

/-- The opcode assignment (R102) on the fields of a word. -/
def decodeFields (f : Fields) : Except Reject Instr :=
  match f.op.toNat with
  | 0x0 => noOperand f .nop
  | 0x1 => noOperand f .clr
  | 0x2 => withOperand f .recSym
  | 0x3 => withOperand f .hin
  | 0x4 => noOperand f .seed
  | 0x5 => noOperand f .merge
  | 0x6 => noOperand f .build
  | 0x7 => noOperand f .gen
  | 0x8 => noOperand f .hout
  | 0x9 => withOperand f .put
  | 0xA => noOperand f .flush
  | 0xB => withOperand f .get
  | 0xC => noOperand f .drep
  | 0xD => noOperand f .ioerr
  | _ => .error .reservedOpcode

/-- The decoder: every word is a command or is rejected by name (R104, R105). It does not depend on the state (R100). -/
def decode (w : Word) : Except Reject Instr := decodeFields (fieldsOf w)

/-- The opcode of a command (R102). -/
def opcodeOf : Instr → BitVec 4
  | .nop => 0x0#4
  | .clr => 0x1#4
  | .recSym _ => 0x2#4
  | .hin _ => 0x3#4
  | .seed => 0x4#4
  | .merge => 0x5#4
  | .build => 0x6#4
  | .gen => 0x7#4
  | .hout => 0x8#4
  | .put _ => 0x9#4
  | .flush => 0xA#4
  | .get _ => 0xB#4
  | .drep => 0xC#4
  | .ioerr => 0xD#4

/-- The operand byte of a command; 0 for a command without operand (R100). -/
def operandOf : Instr → Byte
  | .nop | .clr | .seed | .merge | .build | .gen | .hout | .flush | .drep | .ioerr => 0#8
  | .recSym b | .hin b | .put b | .get b => b

/-- The encoder: the word of a command is `op << 12 | imm8` (R100, R114). -/
def encode (i : Instr) : Word := opcodeOf i ++ 0#4 ++ operandOf i

/-- One row of the opcode map: a word `w` selects it when `(w and mask) = pattern` (R102). -/
structure OpcodeRow where
  /-- the column "mnemonic" -/
  mnemonic : String
  /-- the column "match" -/
  pattern : Word
  /-- the column "mask" -/
  mask : Word
deriving DecidableEq, Repr

/-- The opcode map as R102 prints it. -/
def opcodeRows : List OpcodeRow :=
  [ ⟨"NOP", 0x0000#16, 0xFFFF#16⟩, ⟨"CLR", 0x1000#16, 0xFFFF#16⟩, ⟨"REC", 0x2000#16, 0xFF00#16⟩,
    ⟨"HIN", 0x3000#16, 0xFF00#16⟩, ⟨"SEED", 0x4000#16, 0xFFFF#16⟩, ⟨"MERGE", 0x5000#16, 0xFFFF#16⟩,
    ⟨"BUILD", 0x6000#16, 0xFFFF#16⟩, ⟨"GEN", 0x7000#16, 0xFFFF#16⟩, ⟨"HOUT", 0x8000#16, 0xFFFF#16⟩,
    ⟨"PUT", 0x9000#16, 0xFF00#16⟩, ⟨"FLUSH", 0xA000#16, 0xFFFF#16⟩, ⟨"GET", 0xB000#16, 0xFF00#16⟩,
    ⟨"DREP", 0xC000#16, 0xFFFF#16⟩, ⟨"IOERR", 0xD000#16, 0xFFFF#16⟩ ]

/-- Does the word select the row (R102)? -/
def OpcodeRow.selectedBy (r : OpcodeRow) (w : Word) : Bool := w &&& r.mask == r.pattern

/-- The mnemonic of a command, as the opcode map spells it (R102). -/
def mnemonicOf : Instr → String
  | .nop => "NOP"
  | .clr => "CLR"
  | .recSym _ => "REC"
  | .hin _ => "HIN"
  | .seed => "SEED"
  | .merge => "MERGE"
  | .build => "BUILD"
  | .gen => "GEN"
  | .hout => "HOUT"
  | .put _ => "PUT"
  | .flush => "FLUSH"
  | .get _ => "GET"
  | .drep => "DREP"
  | .ioerr => "IOERR"

/-- The command the decoder reads from an opcode-table row's bits `w`, `nbits` of them: one 16-bit word, the bits above
`nbits` 0 (log 11). -/
def decodeTableWord (nbits w : Nat) : Option Instr :=
  match decode (BitVec.ofNat 16 (w % 2 ^ nbits)) with
  | .ok i => some i
  | .error _ => none

end Sys2Proof
end

