-- ==== Sys2Proof/Config.lean ====
section
/-! DEFINITION. The implementation parameters of 00_scope.md rule R7. All but `tCmd` are fixed by the spec. -/

namespace Sys2Proof

/-- `NSYM`: the number of symbols (R7). -/
abbrev Config.nsym : Nat := 256

/-- `FREQMAX` = 2^32 - 1: the largest count a symbol can have (R7). -/
abbrev Config.freqMax : Count := 0xFFFFFFFF#32

/-- `NNODE`: entries in the node store, indices 0..510 (R7, R24). -/
abbrev Config.nnode : Nat := 511

/-- The index of the first internal node, the reset value of `NEXT` (R25, R50). -/
abbrev Config.firstInternal : NodeIdx := 256#9

/-- `MAXLEN`: the largest possible code length in bits (R7, R8). -/
abbrev Config.maxLen : Nat := 255

/-- `T_CMD`: the cycles a command takes (R7, D30). The spec leaves it OPEN, so it has no value here, and no rule
(R300) and no definition of the model depends on it: the model has no time. Log 8. -/
opaque Config.tCmd : Nat

end Sys2Proof
end

