-- ==== Sys2Proof/Machine/State.lean ====
section
/-! DEFINITION. The state of HUFFCORE (R20) as plain data, its value after reset (R50, R290), and the reasons a step of
the model can stop. -/

namespace Sys2Proof.Machine

/-- Stage of the invocation, register `PHASE` (R30). The values 4..7 are never taken, so they are no constructors. -/
inductive Phase where
  /-- 0: the Frequency Table is open for loading -/
  | freq
  /-- 1: `PL` holds two or more nodes, merges are pending -/
  | seeded
  /-- 2: tree construction is complete -/
  | tree
  /-- 3: the Code Generator has run -/
  | coded
deriving DecidableEq, Repr

/-- Position of the header parser, register `HST` (R32). The value 7 is never taken. -/
inductive HeaderState where
  /-- 0 `H_IDLE`: no header byte received in this invocation -/
  | idle
  /-- 1 `H_SYM`: the next byte is an entry's symbol -/
  | sym
  /-- 2 `H_F3`: the next byte is frequency bits 31:24 -/
  | f3
  /-- 3 `H_F2`: bits 23:16 -/
  | f2
  /-- 4 `H_F1`: bits 15:8 -/
  | f1
  /-- 5 `H_F0`: bits 7:0 -/
  | f0
  /-- 6 `H_DONE`: all declared entries received -/
  | done
deriving DecidableEq, Repr

/-- Fault code, register `ERR` (R35, R261). The values 8..15 are never taken. -/
inductive ErrCode where
  /-- 0 NONE: no fault -/
  | noFault
  /-- 1 IO: raised by `IOERR` (R267) -/
  | io
  /-- 2 CORRUPT: raised by `HIN` and `GET` (R268) -/
  | corrupt
  /-- 3 RESOURCE: reserved, raised by nothing (R269) -/
  | resource
  /-- 4 CONTRACT: raised by `PUT` (R275) -/
  | contract
  /-- 5 SEQ: a command not legal in this phase or case (R266) -/
  | seq
  /-- 6 ILLEGAL: an ill-formed word (R265) -/
  | illegal
  /-- 7 OVERFLOW: raised by `REC` (R276) -/
  | overflow
deriving DecidableEq, Repr

/-- A valid entry of the node store (R24), as the source's tagged variant (R15): `sym` exists only in a leaf, `left` and
`right` only in an internal node. An entry with `valid = 0` is absent from the table (log 6). -/
inductive Node where
  /-- `leaf = 1` -/
  | leaf (sym : Symbol) (weight : Weight)
  /-- `leaf = 0` -/
  | internal (weight : Weight) (left right : NodeIdx)
deriving DecidableEq, Repr

/-- A valid entry of the Code Table (R28): `bits` is `bit[0], ..., bit[len-1]`, `bit[0]` the direction taken at the root
(`false` = 0 = left). `len` is the length of the list (log 6). -/
structure Code where
  bits : List Bool
deriving DecidableEq, Repr

/-- An index-addressed table, held sparsely: pairs of an index and its entry, indices strictly rising, no pair whose entry
equals what an unlisted index reads as (log 4). -/
abbrev Table (α : Type) := List (Nat × α)

/-- What the host does next at a command boundary: present a command word (R9) or reset the block (R290, R302). Not state
of the block (R45): the model's own input data (log 1, log 3). -/
inductive HostAction where
  | command (w : Word)
  | reset
deriving DecidableEq, Repr

/-- The complete state of HUFFCORE (R20), and the model's own queue of host actions. -/
structure State where
  /-- `FREQ[0..255]` (R21); an unlisted symbol has count 0 -/
  freq : Table Count
  /-- `TOTAL` (R22) -/
  total : Weight
  /-- `UNIQUE` (R23) -/
  unique : Tally
  /-- `NODE[0..510]` (R24, R25); an unlisted index has `valid = 0` -/
  nodes : Table Node
  /-- `NEXT` (R25) -/
  next : NodeIdx
  /-- `PL`, front first (R26) -/
  pl : List NodeIdx
  /-- `ROOT` (R27) -/
  root : NodeIdx
  /-- `ROOTV` (R27) -/
  rootv : Bool
  /-- `CODE[0..255]` (R28); an unlisted symbol has `valid = 0` -/
  codes : Table Code
  /-- `PHASE` (R30) -/
  phase : Phase
  /-- `HST` (R32) -/
  hst : HeaderState
  /-- `HCNT` (R32) -/
  hcnt : Tally
  /-- `HSYM` (R32) -/
  hsym : Symbol
  /-- `HFRQ` (R32) -/
  hfrq : Count
  /-- `ACC` (R33) -/
  acc : Byte
  /-- `NBITS` (R33) -/
  nbits : BitVec 3
  /-- `CUR` (R34) -/
  cur : NodeIdx
  /-- `DECODED` (R34) -/
  decoded : Weight
  /-- `ERR` (R35) -/
  err : ErrCode
  /-- `OUT`, oldest byte first (R44) -/
  out : List Byte
  /-- what the host does next, first action first: the MODEL's own field (log 1) -/
  host : List HostAction
deriving DecidableEq, Repr

/-- The machine right after reset: every element at the value of R50; no action of the host is pending (DESIGN CHOICE,
log 1). -/
def State.reset : State where
  freq := []
  total := 0#40
  unique := 0#9
  nodes := []
  next := Config.firstInternal
  pl := []
  root := 0#9
  rootv := false
  codes := []
  phase := .freq
  hst := .idle
  hcnt := 0#9
  hsym := 0#8
  hfrq := 0#32
  acc := 0#8
  nbits := 0#3
  cur := 0#9
  decoded := 0#40
  err := .noFault
  out := []
  host := []

/-- Why a step of the model stops. NONE of these is a fault of HUFFCORE: a fault of HUFFCORE is a code in `ERR` and a next
state (R262). They are reads of what the spec says holds no value or does not exist, in states that the invariants R51 to R55
exclude; each is safe (log 5). -/
inductive Fault where
  /-- Raised by `SEED`, `MERGE`, `BUILD`, `GEN`, `GET`, `DREP`: a rule reads a `NODE` entry with `valid = 0`, which "holds no value"
  (R24). Safe: R52 says every index a rule reads is valid. -/
  | absentNode
  /-- Raised by `PUT`: the `CODE` entry of a present symbol has `valid = 0`, which "holds no code" (R28). Safe: R55. -/
  | absentCode
  /-- Raised by `MERGE`, `BUILD`: `NODE[511]` would be written, the table ends at 510 (R24, R79). Safe: R25 bounds `NEXT`. -/
  | noSuchNode
  /-- Raised by `MERGE`, `BUILD`: `pop_front` of an empty list; `|PL| >= 1` is "guaranteed by every caller" (R144). Safe: R53. -/
  | listUnderflow
  /-- Raised by `SEED`, `BUILD`, `DREP`: the symbol of an internal node, which has none (R24; R142: such a comparison is not defined
  and not needed). Safe: R52, R53. -/
  | noLeafSymbol
  /-- Raised by `GEN`: a path longer than `MAXLEN` = 255 bits, which no `CODE` entry can hold (R8, R28). Safe: R8. -/
  | codeTooLong
deriving DecidableEq, Repr

/-- Why the model gives an instruction no meaning. -/
inductive Refusal where
  /-- An arm of `exec` without a meaning: there is none in this model. Safe. -/
  | notModelled (mnemonic : String)
deriving DecidableEq, Repr

/-- The result of a computation of the model: a value, a model fault or a refusal. -/
abbrev Result (α : Type) := Host.Outcome α Fault Refusal

end Sys2Proof.Machine
end

