-- ==== Sys2Proof/Machine/Ops.lean ====
section
/-! DEFINITION. The named operations over the tables, the sequences and the fault register: sequencing of computations,
sparse tables (log 4), table access (R12), appending to `OUT` (R44), taking a fault (R14, R262) and leaving it (R242, R271),
and taking the host's next action (R9, R45). -/

namespace Sys2Proof.Machine

/-! ## Sequencing -/

/-- First `x`, then `f` of its value; a stop of `x` is the stop of the whole. -/
def andThen {α β : Type} (x : Result α) (f : α → Result β) : Result β :=
  match x with
  | .next a => f a
  | .fault r => .fault r
  | .refused r => .refused r

/-! ## Sparse tables -/

/-- The entry listed at an index, if one is. -/
def Table.get? {α : Type} : Table α → Nat → Option α
  | [], _ => none
  | (k, v) :: rest, i => if i = k then some v else Table.get? rest i

/-- Write the entry at an index, keeping the indices strictly rising. -/
def Table.set {α : Type} : Table α → Nat → α → Table α
  | [], i, v => [(i, v)]
  | (k, u) :: rest, i, v =>
    if i < k then (i, v) :: (k, u) :: rest
    else if i = k then (i, v) :: rest
    else (k, u) :: Table.set rest i v

/-- Remove the entry at an index. -/
def Table.erase {α : Type} : Table α → Nat → Table α
  | [], _ => []
  | (k, u) :: rest, i => if i = k then rest else (k, u) :: Table.erase rest i

/-- The canonical form: indices strictly rising and all of them inside the table's range, entries other than what an
unlisted index reads as. -/
abbrev Table.Canonical {α : Type} (t : Table α) (size : Nat) (listed : α → Bool) : Prop :=
  t.Pairwise (fun a b => a.1 < b.1) ∧ (∀ e ∈ t, e.1 < size ∧ listed e.2 = true)

/-! ## Table access (R12) -/

/-- What `FREQ` holds at a symbol that is not listed: its reset value 0 (R50). -/
def freqUnlisted : Count := 0#32

/-- `FREQ[s]` (R21). -/
def State.freqAt (s : State) (sym : Symbol) : Count := (Table.get? s.freq sym.toNat).getD freqUnlisted

/-- `FREQ[s] <- v` (R21); writing what an unlisted symbol reads as removes the entry (log 4). -/
def State.setFreq (s : State) (sym : Symbol) (v : Count) : State :=
  { s with freq := if v = freqUnlisted then Table.erase s.freq sym.toNat else Table.set s.freq sym.toNat v }

/-- `NODE[i]`, absent when `valid = 0` (R24). -/
def State.node? (s : State) (i : NodeIdx) : Option Node := Table.get? s.nodes i.toNat

/-- A rule's read of `NODE[i]`: an absent entry holds no value (R24, R52), so reading it stops the model (log 5). -/
def State.readNode (s : State) (i : NodeIdx) : Result Node :=
  match s.node? i with
  | some n => .next n
  | none => .fault .absentNode

/-- `NODE[i] <- n`, a valid entry (R24). Index 511 does not exist (R79). -/
def State.writeNode (s : State) (i : NodeIdx) (n : Node) : Result State :=
  if i.toNat < Config.nnode then .next { s with nodes := Table.set s.nodes i.toNat n } else .fault .noSuchNode

/-- `CODE[s]`, absent when `valid = 0` (R28). -/
def State.code? (s : State) (sym : Symbol) : Option Code := Table.get? s.codes sym.toNat

/-- A rule's read of `CODE[s]`: an absent entry holds no code (R28), so reading it stops the model (log 5). -/
def State.readCode (s : State) (sym : Symbol) : Result Code :=
  match s.code? sym with
  | some c => .next c
  | none => .fault .absentCode

/-- A node's weight (R24). -/
def Node.weight : Node → Weight
  | .leaf _ w => w
  | .internal w _ _ => w

/-- Is a node a leaf (R24)? -/
def Node.isLeaf : Node → Bool
  | .leaf _ _ => true
  | .internal _ _ _ => false

/-- The three tables are in canonical form: the model's memory as plain data (log 4). -/
abbrev Memory.wf (s : State) : Prop :=
  Table.Canonical s.freq Config.nsym (fun c => c != freqUnlisted) ∧
  Table.Canonical s.nodes Config.nnode (fun _ => true) ∧
  Table.Canonical s.codes Config.nsym (fun _ => true)

/-- The symbols 0..255 in ascending order: "for s from 0 to 255 in ascending order" (R145, R191). -/
def allSymbols : List Symbol := (List.range Config.nsym).map (BitVec.ofNat 8)

/-! ## The output record -/

/-- `OUT <- OUT ++ bytes` (R44, R13). -/
def State.emit (s : State) (bytes : List Byte) : State := { s with out := s.out ++ bytes }

/-! ## Faults: taking one, being faulted, leaving -/

/-- `raise Fault(c)`: `ERR <- c`, nothing else is saved or changed, and the command ends (R14, R262). -/
def raise (c : ErrCode) (s : State) : Result State := .next { s with err := c }

/-- `require p else Fault(c)` (R14): the rest of the command `k` runs when the condition holds. -/
def require (p : Prop) [Decidable p] (c : ErrCode) (s : State) (k : Result State) : Result State :=
  if p then k else raise c s

/-- The faulted state (R263): while `ERR != 0` a command word is ignored and the state unchanged. -/
def unlessFaulted (s : State) (k : Result State) : Result State :=
  if s.err = .noFault then k else .next s

/-- The way out of a fault and of an invocation (R271, R242): every state element gets its reset value (R50). What the host
will present is not state of the block (R45) and stays. -/
def clearBlock (s : State) : State := { State.reset with host := s.host }

/-! ## The host's side -/

/-- The host's next action and the state in which it meets the block, if the host does anything (R9, R45, log 1). -/
def takeAction (s : State) : Option (HostAction × State) :=
  match s.host with
  | [] => none
  | a :: rest => some (a, { s with host := rest })

/-- The host presents nothing: the block waits and nothing changes (R9, R290, log 2). -/
def waitForHost (s : State) : Result State := .next s

end Sys2Proof.Machine
end

