-- ==== Sys2Proof/Machine/Flags.lean ====
section
/-! DEFINITION. The five derived flags (R36), combinational functions of registers without storage of their own; the numbers
of the register values (R30, R32, R261); and the status registers SR0 to SR4 on the read-only status port (R40 to R43). -/

namespace Sys2Proof.Machine

/-- `FAULT = (ERR != 0)` (R36). -/
def State.flagFault (s : State) : Bool := s.err != .noFault

/-- `HDONE = (HST = H_DONE)` (R36). -/
def State.flagHdone (s : State) : Bool := s.hst == .done

/-- `SINGLE = (UNIQUE = 1)` (R36). -/
def State.flagSingle (s : State) : Bool := s.unique == 1#9

/-- `EMPTY = (UNIQUE = 0)` (R36). -/
def State.flagEmpty (s : State) : Bool := s.unique == 0#9

/-- `DONE = ((PHASE = TREE or PHASE = CODED) and DECODED = TOTAL)` (R36). -/
def State.flagDone (s : State) : Bool := (s.phase == .tree || s.phase == .coded) && s.decoded == s.total

/-- The value of `PHASE` (R30). -/
def Phase.code : Phase → BitVec 3
  | .freq => 0#3
  | .seeded => 1#3
  | .tree => 2#3
  | .coded => 3#3

/-- The value of `HST` (R32). -/
def HeaderState.code : HeaderState → BitVec 3
  | .idle => 0#3
  | .sym => 1#3
  | .f3 => 2#3
  | .f2 => 3#3
  | .f1 => 4#3
  | .f0 => 5#3
  | .done => 6#3

/-- The value of `ERR` (R261). -/
def ErrCode.code : ErrCode → BitVec 4
  | .noFault => 0#4
  | .io => 1#4
  | .corrupt => 2#4
  | .resource => 3#4
  | .contract => 4#4
  | .seq => 5#4
  | .illegal => 6#4
  | .overflow => 7#4

/-- `PLLEN = |PL|`, 9 bits (R42). -/
def State.pllen (s : State) : Tally := BitVec.ofNat 9 s.pl.length

/-- SR0 `STATUS` (R41). -/
def State.sr0 (s : State) : BitVec 40 :=
  0#15 ++ s.unique ++ 0#1 ++ s.nbits ++ BitVec.ofBool s.flagDone ++ s.hst.code ++ s.err.code ++
    BitVec.ofBool s.rootv ++ s.phase.code

/-- SR1 `LIST` (R42). -/
def State.sr1 (s : State) : BitVec 40 := 0#13 ++ s.next ++ s.root ++ s.pllen

/-- SR2 `TOTAL` (R43). -/
def State.sr2 (s : State) : BitVec 40 := s.total

/-- SR3 `DECODED` (R43). -/
def State.sr3 (s : State) : BitVec 40 := s.decoded

/-- SR4 `WORK` (R43). -/
def State.sr4 (s : State) : BitVec 40 := 0#14 ++ s.hcnt ++ s.acc ++ s.cur

/-- The status port: `STDATA` for a select `STSEL` (R40). Reading is a function of the state, without side effect and not a
command (log 10). Selects 5, 6 and 7 read as 0. -/
def State.stdata (s : State) (stsel : BitVec 3) : BitVec 40 :=
  match stsel.toNat with
  | 0 => s.sr0
  | 1 => s.sr1
  | 2 => s.sr2
  | 3 => s.sr3
  | 4 => s.sr4
  | _ => 0#40

end Sys2Proof.Machine
end

