-- ==== Sys2Proof/Machine/Operands.lean ====
section
/-! DEFINITION. The operand forms: `imm8` is a symbol, a header byte or a body byte, used as an unsigned byte (R101). Here are
the bit and byte orders they are used in: MSB-first bits of a byte (R73), big-endian bytes of a count (R72, R109), and single-bit
and single-byte writes into a register (R11). -/

namespace Sys2Proof.Machine

/-- The bits of a byte from bit 7 down to bit 0 (R73; R226 "for i from 7 down to 0"). -/
def bitsMsbFirst (b : Byte) : List Bool :=
  [b.getLsbD 7, b.getLsbD 6, b.getLsbD 5, b.getLsbD 4, b.getLsbD 3, b.getLsbD 2, b.getLsbD 1, b.getLsbD 0]

/-- `b[i] <- c`, the other bits unchanged (R211). -/
def setBit (b : Byte) (i : Nat) (c : Bool) : Byte :=
  if c then b ||| (1#8 <<< i) else b &&& ~~~(1#8 <<< i)

/-- The four bytes of a count in stream order: `f[31:24], f[23:16], f[15:8], f[7:0]` (R72, R109). -/
def countBytes (f : Count) : List Byte :=
  [f.extractLsb' 24 8, f.extractLsb' 16 8, f.extractLsb' 8 8, f.extractLsb' 0 8]

/-- `f[31:24] <- b` (R194). -/
def withByte3 (f : Count) (b : Byte) : Count := b ++ f.extractLsb' 0 24

/-- `f[23:16] <- b` (R194). -/
def withByte2 (f : Count) (b : Byte) : Count := f.extractLsb' 24 8 ++ b ++ f.extractLsb' 0 16

/-- `f[15:8] <- b` (R194). -/
def withByte1 (f : Count) (b : Byte) : Count := f.extractLsb' 16 16 ++ b ++ f.extractLsb' 0 8

/-- `{ f[31:8], b }` (R194). -/
def withByte0 (f : Count) (b : Byte) : Count := f.extractLsb' 8 24 ++ b

/-- The node index of the leaf of a symbol (R25). -/
def leafIdx (sym : Symbol) : NodeIdx := sym.setWidth 9

/-- The count byte of a header: `(UNIQUE - 1)[7:0]` (R108, R191). -/
def countByte (unique : Tally) : Byte := (unique - 1#9).setWidth 8

/-- The declared number of entries: `zext_9(b) + 1` (R108, R194). -/
def declaredCount (b : Byte) : Tally := b.setWidth 9 + 1#9

end Sys2Proof.Machine
end

