-- ==== Sys2Proof/Machine/BitPacker.lean ====
section
/-! DEFINITION. The Bit Packer: append_bit (R211) and the commands PUT (R212) and FLUSH (R214). -/

namespace Sys2Proof.Machine

/-- The accumulator byte goes to `OUT` and the accumulator resets (R211, R214). -/
def emitAcc (s : State) : State := { s.emit [s.acc] with acc := 0#8, nbits := 0#3 }

/-- `append_bit(c)` (R211): `ACC[7 - NBITS] <- c`, and on the eighth bit the byte is emitted. -/
def appendBit (s : State) (c : Bool) : State :=
  let t := { s with acc := setBit s.acc (7 - s.nbits.toNat) c }
  if s.nbits = 7#3 then emitAcc t else { t with nbits := s.nbits + 1#3 }

/-- The bits of a code, in ascending position (R212). -/
def appendBits (bits : List Bool) (s : State) : State := bits.foldl appendBit s

/-- `PUT imm8` (R212, R213). -/
def execPut (sym : Symbol) (s : State) : Result State :=
  unlessFaulted s <|
  require (s.phase = .coded) .seq s <|
  require (s.freqAt sym ≠ 0#32) .contract s <|
  if 2#9 ≤ s.unique then andThen (s.readCode sym) fun c => .next (appendBits c.bits s)
  else .next s

/-- `FLUSH` (R214): with nothing pending, nothing is emitted. -/
def execFlush (s : State) : Result State :=
  unlessFaulted s <|
  require (s.phase = .coded) .seq s <|
  if s.nbits = 0#3 then .next s else .next (emitAcc s)

end Sys2Proof.Machine
end

