-- ==== Sys2Proof/Machine/BitUnpacker.lean ====
section
/-! DEFINITION. The Bit Unpacker: the commands GET (R226 to R228) and DREP (R229). -/

namespace Sys2Proof.Machine

/-- The move to a child and the leaf test after it (R226): at a leaf the symbol is emitted and counted and the pointer goes back
to the root. -/
def moveTo (child : NodeIdx) (s : State) : Result State :=
  andThen (s.readNode child) fun n =>
  match n with
  | .leaf sym _ => .next { s.emit [sym] with decoded := s.decoded + 1#40, cur := s.root }
  | .internal _ _ _ => .next { s with cur := child }

/-- The loop of `GET` over the bits still to be examined (R226): test for completion, take the bit, move, test for a leaf. A bit
taken at a leaf raises CORRUPT, which ends the command with the effects of the earlier bits standing (R228). -/
def takeBits : List Bool → State → Result State
  | [], s => .next s
  | c :: rest, s =>
    if s.decoded = s.total then .next s
    else
      andThen (s.readNode s.cur) fun n =>
      match n with
      | .leaf _ _ => raise .corrupt s
      | .internal _ l r => andThen (moveTo (if c then r else l) s) (takeBits rest)

/-- `GET imm8` (R226). -/
def execGet (b : Byte) (s : State) : Result State :=
  unlessFaulted s <|
  require (s.phase = .tree ∨ s.phase = .coded) .seq s <|
  takeBits (bitsMsbFirst b) s

/-- The body of `DREP` in the single-symbol case: the root's symbol, `TOTAL - DECODED` times (R229; log 7 for the difference). -/
def repeatRoot (s : State) : Result State :=
  andThen (s.readNode s.root) fun n =>
  match n with
  | .leaf sym _ =>
    .next { s.emit (List.replicate (s.total.toNat - s.decoded.toNat) sym) with decoded := s.total }
  | .internal _ _ _ => .fault .noLeafSymbol

/-- `DREP` (R229). -/
def execDrep (s : State) : Result State :=
  unlessFaulted s <|
  require (s.phase = .tree ∨ s.phase = .coded) .seq s <|
  require (s.unique ≤ 1#9) .seq s <|
  if s.unique = 1#9 then repeatRoot s else .next s

end Sys2Proof.Machine
end

