-- ==== Sys2Proof/Machine/CodeGenerator.lean ====
section
/-! DEFINITION. The Code Generator: the tree walk and the command GEN (43_code_generator.md). -/

namespace Sys2Proof.Machine

/-- `CODE[sym] <- { valid = 1, len = |p|, bit[j] = p[j] }` (R181). -/
def writeCode (codes : Table Code) (sym : Symbol) (p : List Bool) : Table Code := Table.set codes sym.toNat ⟨p⟩

/-- `walk(i, p)` (R181), filling `CODE`: 0 = left, 1 = right; a leaf writes the path that led to it. The first argument bounds the
depth: a path has at most `MAXLEN` = 255 bits (R8), and a longer one, which no `CODE` entry can hold, stops the model (log 5). -/
def walk (s : State) : Nat → NodeIdx → List Bool → Table Code → Result (Table Code)
  | 0, _, _, _ => .fault .codeTooLong
  | depth + 1, i, p, codes =>
    andThen (s.readNode i) fun n =>
    match n with
    | .leaf sym _ => .next (writeCode codes sym p)
    | .internal _ l r =>
      andThen (walk s depth l (p ++ [false]) codes) fun codes' => walk s depth r (p ++ [true]) codes'

/-- `GEN` (R181, R184). -/
def execGen (s : State) : Result State :=
  unlessFaulted s <|
  require (s.phase = .tree) .seq s <|
  if 2#9 ≤ s.unique then
    andThen (walk s (Config.maxLen + 1) s.root [] s.codes) fun codes => .next { s with codes := codes, phase := .coded }
  else .next { s with phase := .coded }

end Sys2Proof.Machine
end

