-- ==== Sys2Proof/Machine/Control.lean ====
section
/-! DEFINITION. The control commands NOP, CLR and IOERR (47_control.md). -/

namespace Sys2Proof.Machine

/-- `NOP`: the state is unchanged, in every phase and also when faulted (R241). -/
def execNop (s : State) : Result State := .next s

/-- `CLR`: every state element gets its reset value, in every phase and also when faulted (R242, R263). -/
def execClr (s : State) : Result State := .next (clearBlock s)

/-- `IOERR`: `raise Fault(IO)`, in every phase; ignored when faulted (R243, R267). -/
def execIoerr (s : State) : Result State := unlessFaulted s (raise .io s)

end Sys2Proof.Machine
end

