-- ==== Sys2Proof/Machine/FrequencyTable.lean ====
section
/-! DEFINITION. The Frequency Table command REC (40_frequency_table.md). -/

namespace Sys2Proof.Machine

/-- `record(symbol)`: one more occurrence, counted in `FREQ[s]`, `TOTAL` and, the first time, in `UNIQUE` (R131). -/
def countSymbol (sym : Symbol) (s : State) : State :=
  { s.setFreq sym (s.freqAt sym + 1#32) with
    unique := if s.freqAt sym = 0#32 then s.unique + 1#9 else s.unique
    total := s.total + 1#40 }

/-- `REC imm8` (R131, R132). -/
def execRec (sym : Symbol) (s : State) : Result State :=
  unlessFaulted s <|
  require (s.phase = .freq ∧ s.hst = .idle) .seq s <|
  require (s.freqAt sym ≠ Config.freqMax) .overflow s <|
  .next (countSymbol sym s)

end Sys2Proof.Machine
end

