-- ==== Sys2Proof/Machine/HeaderCodec.lean ====
section
/-! DEFINITION. The Header Codec: HOUT (R191) and HIN (R194). -/

namespace Sys2Proof.Machine

/-- The header entry of a symbol: nothing when it is absent, else `[s, f[31:24], f[23:16], f[15:8], f[7:0]]` (R191, R109). -/
def headerEntry (s : State) (sym : Symbol) : List Byte :=
  if s.freqAt sym = 0#32 then [] else sym :: countBytes (s.freqAt sym)

/-- The bytes `HOUT` appends: nothing when the table is empty, else the count byte and the entries in ascending symbol order
(R191 to R193, R107). -/
def headerBytes (s : State) : List Byte :=
  if s.unique = 0#9 then [] else countByte s.unique :: allSymbols.flatMap (headerEntry s)

/-- `HOUT` (R191). -/
def execHout (s : State) : Result State :=
  unlessFaulted s <|
  require (s.phase = .tree ∨ s.phase = .coded) .seq s <|
  .next (s.emit (headerBytes s))

/-- The fifth byte of an entry commits it: `FREQ`, `UNIQUE`, `TOTAL` and the parser in the same step (R197, R194). -/
def commitEntry (f : Count) (s : State) : State :=
  { s.setFreq s.hsym f with
    hfrq := f
    unique := s.unique + 1#9
    total := s.total + f.setWidth 40
    hst := if s.unique + 1#9 = s.hcnt then .done else .sym }

/-- `HIN imm8` (R194 to R198). -/
def execHin (b : Byte) (s : State) : Result State :=
  unlessFaulted s <|
  require (s.phase = .freq ∧ s.hst ≠ .done) .seq s <|
  match s.hst with
  | .idle =>
    require (s.total = 0#40) .seq s <|
    .next { s with hcnt := declaredCount b, hst := .sym }
  | .sym => .next { s with hsym := b, hfrq := 0#32, hst := .f3 }
  | .f3 => .next { s with hfrq := withByte3 s.hfrq b, hst := .f2 }
  | .f2 => .next { s with hfrq := withByte2 s.hfrq b, hst := .f1 }
  | .f1 => .next { s with hfrq := withByte1 s.hfrq b, hst := .f0 }
  | .f0 =>
    require (withByte0 s.hfrq b ≠ 0#32) .corrupt s <|
    require (s.freqAt s.hsym = 0#32) .corrupt s <|
    .next (commitEntry (withByte0 s.hfrq b) s)
  | .done => raise .seq s

end Sys2Proof.Machine
end

