-- ==== Sys2Proof/Machine/PriorityList.lean ====
section
/-! DEFINITION. The Priority List primitives (R142 to R144), the completion of the tree (R165), and the command SEED (R145). -/

namespace Sys2Proof.Machine

/-! ## Primitives -/

/-- The stop test of `insert_leaf` (R142): `w(PL[k]) > w(n)  or  (w(PL[k]) = w(n) and NODE[PL[k]].sym > NODE[n].sym)`. The
comparison of symbols is between two leaves; the spec defines none for an internal node and says none is needed (log 5). -/
def leafStops (new old : Node) : Result Bool :=
  if new.weight < old.weight then .next true
  else if old.weight = new.weight then
    match old, new with
    | .leaf symOld _, .leaf symNew _ => .next (decide (symNew < symOld))
    | _, _ => .fault .noLeafSymbol
  else .next false

/-- The stop test of `insert_merged` (R143): `w(PL[k]) >= w(n)`, so before all tied nodes (C6). -/
def mergedStops (new old : Node) : Result Bool := .next (decide (new.weight ≤ old.weight))

/-- `insert(PL, p, n)` at the least position `p` whose member passes the stop test, at the end when none does (R142, R143, R13). -/
def insertAt (stops : Node → Node → Result Bool) (s : State) (n : NodeIdx) (new : Node) : List NodeIdx → Result (List NodeIdx)
  | [] => .next [n]
  | k :: rest =>
    andThen (s.readNode k) fun old =>
    andThen (stops new old) fun stop =>
    if stop then .next (n :: k :: rest)
    else andThen (insertAt stops s n new rest) fun tail => .next (k :: tail)

/-- `insert_leaf(n)` (R142). -/
def insertLeaf (n : NodeIdx) (s : State) : Result State :=
  andThen (s.readNode n) fun new =>
  andThen (insertAt leafStops s n new s.pl) fun pl => .next { s with pl := pl }

/-- `insert_merged(n)` (R143). -/
def insertMerged (n : NodeIdx) (s : State) : Result State :=
  andThen (s.readNode n) fun new =>
  andThen (insertAt mergedStops s n new s.pl) fun pl => .next { s with pl := pl }

/-- `pop_front()` (R144): the front node and the state without it. -/
def popFront (s : State) : Result (NodeIdx × State) :=
  match s.pl with
  | [] => .fault .listUnderflow
  | x :: rest => .next (x, { s with pl := rest })

/-- `tree_complete()` (R165): phase TREE; when one node remains it is the root and the traversal starts there. -/
def treeComplete (s : State) : State :=
  match s.pl with
  | [i] => { s with phase := .tree, root := i, rootv := true, cur := i }
  | _ => { s with phase := .tree }

/-! ## SEED -/

/-- The leaf entry of a symbol: `{ valid = 1, leaf = 1, sym = s, weight = zext_40(FREQ[s]) }` (R145). -/
def leafOf (sym : Symbol) (s : State) : Node := .leaf sym ((s.freqAt sym).setWidth 40)

/-- One turn of the seeding loop (R145): a present symbol gets its leaf and is inserted. -/
def seedSymbol (sym : Symbol) (s : State) : Result State :=
  if s.freqAt sym = 0#32 then .next s
  else andThen (s.writeNode (leafIdx sym) (leafOf sym s)) (insertLeaf (leafIdx sym))

/-- The seeding loop over a list of symbols, in order (R145). -/
def seedLoop : List Symbol → State → Result State
  | [], s => .next s
  | sym :: rest, s => andThen (seedSymbol sym s) (seedLoop rest)

/-- After the loop: phase SEEDED with two or more nodes, else the tree is complete (R145). -/
def finishSeeding (s : State) : State :=
  if 2 ≤ s.pl.length then { s with phase := .seeded } else treeComplete s

/-- The body of `SEED` after its two require lines (R145, R164). -/
def seedBody (s : State) : Result State := andThen (seedLoop allSymbols s) fun t => .next (finishSeeding t)

/-- `SEED` (R145). -/
def execSeed (s : State) : Result State :=
  unlessFaulted s <|
  require (s.phase = .freq) .seq s <|
  require (s.hst = .idle ∨ s.hst = .done) .seq s <|
  seedBody s

end Sys2Proof.Machine
end

