-- ==== Sys2Proof/Machine/TreeBuilder.lean ====
section
/-! DEFINITION. The Tree Builder: merge_step (R161) and the commands MERGE (R162) and BUILD (R164). -/

namespace Sys2Proof.Machine

/-- The entry a merge creates: weight the sum, first popped left, second popped right (R161, R163). -/
def mergedNode (l r : NodeIdx) (nl nr : Node) : Node := .internal (nl.weight + nr.weight) l r

/-- `NODE[NEXT] <- n ; NEXT <- NEXT + 1`; answers the index used (R161, R25). -/
def allocNode (n : Node) (s : State) : Result (NodeIdx × State) :=
  andThen (s.writeNode s.next n) fun t => .next (s.next, { t with next := s.next + 1#9 })

/-- "if |PL| = 1 then tree_complete()" (R161). -/
def completeIfSingle (s : State) : State := if s.pl.length = 1 then treeComplete s else s

/-- `merge_step()` (R161). -/
def mergeStep (s : State) : Result State :=
  andThen (popFront s) fun popL =>
  andThen (popFront popL.2) fun popR =>
  andThen (s.readNode popL.1) fun nl =>
  andThen (s.readNode popR.1) fun nr =>
  andThen (allocNode (mergedNode popL.1 popR.1 nl nr) popR.2) fun made =>
  andThen (insertMerged made.1 made.2) fun t =>
  .next (completeIfSingle t)

/-- `while PHASE = SEEDED do merge_step()` (R164). Each step shortens `PL` by one and the loop ends at one node (R168), so as many
turns as `PL` has members are enough; a loop that would need more has run out of nodes to pop (log 5). -/
def mergeLoop : Nat → State → Result State
  | 0, s => if s.phase = .seeded then .fault .listUnderflow else .next s
  | turns + 1, s => if s.phase = .seeded then andThen (mergeStep s) (mergeLoop turns) else .next s

/-- The merge loop of `BUILD` from a state (R164). -/
def mergeAll (s : State) : Result State := mergeLoop s.pl.length s

/-- `MERGE` (R162). -/
def execMerge (s : State) : Result State :=
  unlessFaulted s <|
  require (s.phase = .seeded) .seq s <|
  mergeStep s

/-- `BUILD` (R164). -/
def execBuild (s : State) : Result State :=
  unlessFaulted s <|
  if s.phase = .freq then
    require (s.hst = .idle ∨ s.hst = .done) .seq s <|
    andThen (seedBody s) mergeAll
  else
    require (s.phase = .seeded) .seq s <|
    mergeAll s

end Sys2Proof.Machine
end

