-- ==== Sys2Proof/Machine/Dispatch.lean ====
section
/-! DEFINITION. One arm per command, each one direct call of its meaning. -/

namespace Sys2Proof.Machine

def exec (i : Instr) (s : State) : Host.Outcome State Fault Refusal :=
  match i with
  | .nop => Sys2Proof.Machine.execNop s
  | .clr => Sys2Proof.Machine.execClr s
  | .recSym sym => Sys2Proof.Machine.execRec sym s
  | .hin b => Sys2Proof.Machine.execHin b s
  | .seed => Sys2Proof.Machine.execSeed s
  | .merge => Sys2Proof.Machine.execMerge s
  | .build => Sys2Proof.Machine.execBuild s
  | .gen => Sys2Proof.Machine.execGen s
  | .hout => Sys2Proof.Machine.execHout s
  | .put sym => Sys2Proof.Machine.execPut sym s
  | .flush => Sys2Proof.Machine.execFlush s
  | .get b => Sys2Proof.Machine.execGet b s
  | .drep => Sys2Proof.Machine.execDrep s
  | .ioerr => Sys2Proof.Machine.execIoerr s

end Sys2Proof.Machine
end

