-- ==== Sys2Proof/Machine/CommandPort.lean ====
section
/-! DEFINITION. What one action of the host does to the block: a command word is decoded and executed, or is illegal, or is
ignored by a faulted block (R9, R263, R264, R265); a reset (R290). -/

namespace Sys2Proof.Machine

/-- An ill-formed word: ILLEGAL when `ERR = 0`, ignored when faulted (R105, R263, R265). -/
def execIllFormed (s : State) : Result State := unlessFaulted s (raise .illegal s)

/-- The host presents a command word. Decoding does not depend on the state (R100); that a faulted block ignores every word but
`CLR` (R263) is in each meaning and in `execIllFormed`. -/
def presentWord (w : Word) (s : State) : Result State :=
  match decode w with
  | .ok i => exec i s
  | .error _ => execIllFormed s

/-- Reset: every state element gets its reset value (R290, R50). -/
def resetBlock (s : State) : Result State := .next (clearBlock s)

/-- One action of the host on the block (log 1, log 3). -/
def runAction (a : HostAction) (s : State) : Result State :=
  match a with
  | .command w => presentWord w s
  | .reset => resetBlock s

/-- The queue with the command word of an opcode-table row put first: the bits of `w` above `nbits` are 0 (log 1, log 11). -/
def pushWord (nbits w : Nat) (host : List HostAction) : List HostAction :=
  .command (BitVec.ofNat 16 (w % 2 ^ nbits)) :: host

end Sys2Proof.Machine
end

