-- ==== Sys2Proof/Machine/Step.lean ====
section
/-! DEFINITION. The step: the host's next action runs to completion on the block (R9); with none, the block waits. -/

namespace Sys2Proof.Machine

/-- One step (R9, log 1, log 2). -/
def step (s : State) : Host.Outcome State Fault Refusal :=
  match takeAction s with
  | none => waitForHost s
  | some (a, t) => runAction a t

/-- `s` with the given command word as the next thing the host presents, so that the very next step runs it (log 1, log 11). -/
def State.withFetchWord (s : State) (nbits w : Nat) : State := { s with host := pushWord nbits w s.host }

end Sys2Proof.Machine
end

