-- ==== Sys2Proof/Machine/TreeView.lean ====
section
/-! DEFINITION. The tree view of the node store (R15): tree(i), leaves(i), path(r, s). No meaning reads it; claims do. -/

namespace Sys2Proof.Machine

/-- The source's tagged variant (R15). -/
inductive Tree where
  | leaf (sym : Symbol) (weight : Weight)
  | internal (weight : Weight) (left right : Tree)
deriving DecidableEq, Repr

/-- The symbols at the leaves of a tree, left to right (R15). -/
def Tree.leaves : Tree → List Symbol
  | .leaf sym _ => [sym]
  | .internal _ l r => l.leaves ++ r.leaves

/-- `tree(i)` as far as a depth bound goes (R15); absent when the walk meets an absent entry or the bound. -/
def treeWithin (s : State) : Nat → NodeIdx → Option Tree
  | 0, _ => none
  | depth + 1, i =>
    match s.node? i with
    | none => none
    | some (.leaf sym w) => some (.leaf sym w)
    | some (.internal w l r) =>
      match treeWithin s depth l, treeWithin s depth r with
      | some tl, some tr => some (.internal w tl tr)
      | _, _ => none

/-- `tree(i)` (R15). A path has at most `MAXLEN` bits (R8). -/
def treeAt (s : State) (i : NodeIdx) : Option Tree := treeWithin s (Config.maxLen + 1) i

/-- `leaves(i)` (R15), as a list. -/
def leavesAt (s : State) (i : NodeIdx) : List Symbol :=
  match treeAt s i with
  | some t => t.leaves
  | none => []

/-- The node reached from `i` by a sequence of directions, 0 = `false` = left, 1 = `true` = right (R15). -/
def descend (s : State) : NodeIdx → List Bool → Option NodeIdx
  | i, [] => some i
  | i, c :: p =>
    match s.node? i with
    | some (.internal _ l r) => descend s (if c then r else l) p
    | _ => none

/-- The symbol of the leaf reached from `r` by the directions `p`: `p = path(r, sym)` says `leafReached s r p = some sym` (R15). -/
def leafReached (s : State) (r : NodeIdx) (p : List Bool) : Option Symbol :=
  match descend s r p with
  | none => none
  | some i =>
    match s.node? i with
    | some (.leaf sym _) => some sym
    | _ => none

/-- The weight of a valid node as a number (R24); 0 for an absent one, of which claims say separately that there is none. -/
def weightAt (s : State) (i : NodeIdx) : Nat :=
  match s.node? i with
  | some n => n.weight.toNat
  | none => 0

/-- The children of an entry (R24): none for a leaf. -/
def Node.children : Node → List NodeIdx
  | .leaf _ _ => []
  | .internal _ l r => [l, r]

/-- Every reference to a child in the node store, in index order. -/
def childRefs (s : State) : List NodeIdx := s.nodes.flatMap fun e => e.2.children

end Sys2Proof.Machine
end

