-- ==== Sys2Proof/Safety.lean ====
section
/-! DEFINITION. The terms claims about runs use: the phase table (R31), command sequences (R114, R115), the bits packed so far
(R216), and the invariants R51 to R55. -/

namespace Sys2Proof.Machine

/-! ## Legality -/

/-- The phase table with its extra conditions (R31), for `ERR = 0`. -/
def legal (i : Instr) (s : State) : Bool :=
  match i with
  | .nop | .clr | .ioerr => true
  | .recSym _ => s.phase == .freq && s.hst == .idle
  | .hin _ => s.phase == .freq && s.hst != .done && (s.hst != .idle || s.total == 0#40)
  | .seed => s.phase == .freq && (s.hst == .idle || s.hst == .done)
  | .merge => s.phase == .seeded
  | .build => (s.phase == .freq && (s.hst == .idle || s.hst == .done)) || s.phase == .seeded
  | .gen => s.phase == .tree
  | .hout | .get _ => s.phase == .tree || s.phase == .coded
  | .put _ | .flush => s.phase == .coded
  | .drep => (s.phase == .tree || s.phase == .coded) && decide (s.unique ≤ 1#9)

/-! ## Command sequences -/

/-- A sequence of commands, executed top to bottom (R114). -/
def execAll : List Instr → State → Result State
  | [], s => .next s
  | i :: rest, s => andThen (exec i s) (execAll rest)

/-- `MERGE` while the phase is SEEDED, at most so many times (R162, R164). -/
def mergesWhileSeeded : Nat → State → Result State
  | 0, s => .next s
  | turns + 1, s => if s.phase = .seeded then andThen (exec .merge s) (mergesWhileSeeded turns) else .next s

/-- The pseudo-command `ENCODE S` (R115). -/
def encodeCommands (bytes : List Byte) : List Instr :=
  [.clr] ++ bytes.map .recSym ++ [.build, .gen, .hout] ++ bytes.map .put ++ [.flush]

/-- The pseudo-command `DECODE A` (R115). -/
def decodeCommands (artifact : List Byte) : List Instr :=
  match artifact with
  | [] => [.clr, .build, .drep]
  | n :: _ =>
    let h := 1 + 5 * (n.toNat + 1)
    [.clr] ++ (artifact.take h).map .hin ++ [.build] ++
      (if n = 0#8 then [.drep] else (artifact.drop h).map .get)

/-! ## The packed body -/

/-- All bits packed so far: those of the bytes of `OUT`, then the pending bits of the accumulator, `ACC[7 : 8-NBITS]`,
earliest first (R33, R73, R216). -/
def packedBits (s : State) : List Bool := s.out.flatMap bitsMsbFirst ++ (bitsMsbFirst s.acc).take s.nbits.toNat

/-- The unwritten low-order bits of the accumulator are zero: `ACC[7-NBITS : 0] = 0` (R33, R54). -/
abbrev AccLowClear (s : State) : Prop := (bitsMsbFirst s.acc).drop s.nbits.toNat = List.replicate (8 - s.nbits.toNat) false

/-! ## Invariants -/

/-- The symbols with a non-zero count, in ascending order. -/
def presentSymbols (s : State) : List Symbol := allSymbols.filter fun sym => s.freqAt sym != 0#32

/-- The sum of all counts, as a number. -/
def countSum (s : State) : Nat := (allSymbols.map fun sym => (s.freqAt sym).toNat).sum

/-- R51, with R32's `HCNT` (0 until the first header byte, 1..256 after it), and that a partly received header leaves phase FREQ
only by `CLR` (R145, R164). -/
structure FreqInv (s : State) : Prop where
  /-- `sum over s of FREQ[s] = TOTAL` -/
  total_eq : countSum s = s.total.toNat
  /-- `UNIQUE = number of s with FREQ[s] != 0` -/
  unique_eq : (presentSymbols s).length = s.unique.toNat
  /-- `HCNT` is 0 until the first header byte (R32) -/
  header_idle : s.hst = .idle → s.hcnt = 0#9
  /-- after the first header byte `HCNT` is in 1..256 (R32) -/
  header_count : s.hst ≠ .idle → 1 ≤ s.hcnt.toNat ∧ s.hcnt.toNat ≤ 256
  /-- with a header byte received, `UNIQUE <= HCNT`, and `UNIQUE = HCNT` exactly when `HST = H_DONE` -/
  header_progress : s.hst ≠ .idle → s.unique ≤ s.hcnt ∧ (s.unique = s.hcnt ↔ s.hst = .done)
  /-- outside phase FREQ no header is partly received -/
  header_closed : s.phase ≠ .freq → s.hst = .idle ∨ s.hst = .done

/-- R52 and R53: the node store and the Priority List. -/
structure TreeInv (s : State) : Prop where
  /-- in phase FREQ no node is valid, `PL = []` and no internal node is allocated -/
  open_empty : s.phase = .freq → s.nodes = [] ∧ s.pl = [] ∧ s.next = Config.firstInternal
  /-- after FREQ, `NODE[s]` is valid exactly when `FREQ[s] != 0`, and is then the leaf of `s` with that weight -/
  leaf_entries : s.phase ≠ .freq → ∀ sym : Symbol, s.node? (leafIdx sym) = if s.freqAt sym = 0#32 then none else some (leafOf sym s)
  /-- `NODE[i]` with `i >= 256` is valid exactly when `i < NEXT` -/
  internal_allocated : ∀ i : NodeIdx, Config.firstInternal ≤ i → ((s.node? i).isSome = true ↔ i < s.next)
  /-- a valid entry at `i >= 256` is internal, its children are valid, smaller than `i` and different, its weight is their sum -/
  internal_entries : ∀ e ∈ s.nodes, 256 ≤ e.1 → ∃ w l r, e.2 = .internal w l r ∧ l.toNat < e.1 ∧ r.toNat < e.1 ∧ l ≠ r ∧
    (s.node? l).isSome = true ∧ (s.node? r).isSome = true ∧ w.toNat = weightAt s l + weightAt s r
  /-- every valid node is in `PL` or a child of a valid internal node, exactly once in all -/
  owned_once : ((s.pl ++ childRefs s).map BitVec.toNat).Perm (s.nodes.map Prod.fst)
  /-- `NEXT` is in 256..511 (R25) -/
  next_ge : Config.firstInternal ≤ s.next
  /-- `PL` is sorted ascending by weight -/
  pl_sorted : s.pl.Pairwise fun a b => weightAt s a ≤ weightAt s b
  /-- after FREQ the weights of `PL` sum to `TOTAL` -/
  pl_total : s.phase ≠ .freq → (s.pl.map (weightAt s)).sum = s.total.toNat
  /-- after FREQ the leaves of the members of `PL` are disjoint and together the present symbols -/
  pl_leaves : s.phase ≠ .freq → (s.pl.flatMap (leavesAt s)).Perm (presentSymbols s)
  /-- after FREQ `|PL| + (NEXT - 256) = UNIQUE` -/
  pl_count : s.phase ≠ .freq → s.pl.length + s.next.toNat = s.unique.toNat + 256
  /-- in phase SEEDED `|PL| >= 2` -/
  seeded_two : s.phase = .seeded → 2 ≤ s.pl.length
  /-- the tree is complete with a root: `PL = [ROOT]` and `ROOTV = 1` -/
  complete_root : s.phase = .tree ∨ s.phase = .coded → s.unique ≠ 0#9 → s.pl = [s.root] ∧ s.rootv = true
  /-- the tree is complete and empty -/
  complete_empty : s.phase = .tree ∨ s.phase = .coded → s.unique = 0#9 → s.pl = [] ∧ s.rootv = false
  /-- while `ROOTV = 0`, `ROOT` and `CUR` keep their reset value (R165) -/
  no_root : s.rootv = false → s.root = 0#9 ∧ s.cur = 0#9

/-- R54: the working registers. -/
structure WorkInv (s : State) : Prop where
  /-- the low-order bits of `ACC` are zero -/
  acc_low : AccLowClear s
  /-- `ACC` and `NBITS` are 0 outside phase CODED -/
  acc_idle : s.phase ≠ .coded → s.acc = 0#8 ∧ s.nbits = 0#3
  /-- `DECODED <= TOTAL` -/
  decoded_le : s.decoded ≤ s.total
  /-- `DECODED = 0` in phases FREQ and SEEDED -/
  decoded_zero : s.phase = .freq ∨ s.phase = .seeded → s.decoded = 0#40
  /-- `ROOTV = 1` implies phase TREE or CODED -/
  rootv_phase : s.rootv = true → s.phase = .tree ∨ s.phase = .coded
  /-- with a root, `CUR` is a valid node inside `tree(ROOT)` -/
  cur_inside : s.rootv = true → (s.node? s.cur).isSome = true ∧ ∃ p, descend s s.root p = some s.cur
  /-- with `UNIQUE >= 2` it is an internal node -/
  cur_internal : s.rootv = true → 2#9 ≤ s.unique → ∃ w l r, s.node? s.cur = some (.internal w l r)

/-- R55: the Code Table. -/
structure CodeInv (s : State) : Prop where
  /-- outside phase CODED no entry is valid -/
  closed : s.phase ≠ .coded → s.codes = []
  /-- with `UNIQUE <= 1` no entry is valid -/
  few : s.unique ≤ 1#9 → s.codes = []
  /-- in phase CODED with `UNIQUE >= 2` an entry is valid exactly when the symbol is present -/
  present : s.phase = .coded → 2#9 ≤ s.unique → ∀ sym : Symbol, (s.code? sym).isSome = true ↔ s.freqAt sym ≠ 0#32
  /-- and it is then the path from the root to the symbol's leaf, 1 to 255 bits long -/
  is_path : ∀ sym c, s.code? sym = some c →
    leafReached s s.root c.bits = some sym ∧ 1 ≤ c.bits.length ∧ c.bits.length ≤ Config.maxLen
  /-- no valid code is a prefix of another valid code -/
  prefix_free : ∀ a b ca cb, s.code? a = some ca → s.code? b = some cb → ca.bits <+: cb.bits → a = b

/-- The invariants R51 to R55 of every reachable state, and the canonical form of the tables (log 4). -/
structure Inv (s : State) : Prop where
  wf : Memory.wf s
  freqInv : FreqInv s
  treeInv : TreeInv s
  workInv : WorkInv s
  codeInv : CodeInv s

end Sys2Proof.Machine
end

