-- ==== Sys2Proof/Certificates/Slice0/Obligations.lean ====
section
/-! DEFINITION. The statements about HUFFCORE for the provers, in the order of the spec's files. Each docstring names the rules of spec/
a statement follows; "log <n>" is notes/assumptions/<n>.md. A frame is written `t = { s with <fields> := t.<fields>, .. }`: every
field not named, the three tables among them, is as before. -/

open Sys2Proof Sys2Proof.Machine

/-! ## Encodings -/

/-- Well-formed and ill-formed words written out bit by bit from R100 and R102 (the words of V1 and V2). -/
def Obligations.SampleWordsDecode : Prop :=
  decode 0x0000#16 = .ok .nop ∧ decode 0x1000#16 = .ok .clr ∧ decode 0x2041#16 = .ok (.recSym 0x41#8) ∧
  decode 0x30FF#16 = .ok (.hin 0xFF#8) ∧ decode 0x4000#16 = .ok .seed ∧ decode 0x5000#16 = .ok .merge ∧
  decode 0x6000#16 = .ok .build ∧ decode 0x7000#16 = .ok .gen ∧ decode 0x8000#16 = .ok .hout ∧
  decode 0x905A#16 = .ok (.put 0x5A#8) ∧ decode 0xA000#16 = .ok .flush ∧ decode 0xB0FF#16 = .ok (.get 0xFF#8) ∧
  decode 0xC000#16 = .ok .drep ∧ decode 0xD000#16 = .ok .ioerr ∧
  decode 0xE041#16 = .error .reservedOpcode ∧ decode 0x2141#16 = .error .reservedBits ∧
  decode 0x5080#16 = .error .operandNotZero

/-- Decoding and encoding agree in both directions, for every word and every command with every operand (R100, R102). -/
def Obligations.DecodeInvertsEncode : Prop :=
  ∀ (w : Word) (i : Instr), decode w = .ok i ↔ w = encode i

/-- R104: a word decodes exactly when it passes the three checks, exactly when it selects one row of the opcode map; the row is the
decoded command's; no word selects two rows. -/
def Obligations.WellFormedWordSelectsOneRow : Prop :=
  ∀ w : Word,
    ((∃ i, decode w = .ok i) ↔ (fieldsOf w).wellFormed = true) ∧
    ((fieldsOf w).wellFormed = true ↔ (opcodeRows.filter fun r => r.selectedBy w).length = 1) ∧
    (opcodeRows.filter fun r => r.selectedBy w).length ≤ 1 ∧
    (∀ i, decode w = .ok i → (opcodeRows.filter fun r => r.selectedBy w).map OpcodeRow.mnemonic = [mnemonicOf i])

/-! ## The step -/

/-- A step takes the host's next word and runs the command it decodes to on the state without that word (R9; the queue is the
model's own, log 1). -/
def Obligations.StepRunsDecodedCommand : Prop :=
  ∀ (s : State) (w : Word) (rest : List HostAction) (i : Instr),
    s.host = .command w :: rest → decode w = .ok i → step s = exec i { s with host := rest }

/-- R265, R105: executing an ill-formed word when `ERR = 0` raises ILLEGAL and changes nothing else. -/
def Obligations.IllFormedWordRaisesIllegal : Prop :=
  ∀ (s : State) (w : Word) (rest : List HostAction),
    s.host = .command w :: rest → (fieldsOf w).wellFormed = false → s.err = .noFault →
      step s = .next { s with host := rest, err := .illegal }

/-- R263: while `ERR != 0` every word except exactly 0x1000 leaves the state unchanged; 0x1000 is `CLR`. -/
def Obligations.FaultedBlockIgnoresAllButClr : Prop :=
  ∀ (s : State) (w : Word) (rest : List HostAction),
    s.host = .command w :: rest → s.err ≠ .noFault →
      (w ≠ 0x1000#16 → step s = .next { s with host := rest }) ∧
      (w = 0x1000#16 → step s = .next { State.reset with host := rest })

/-- With no action of the host the block waits unchanged, and a reset restores the reset state (R290; waiting and the reset action are
the model's own form, log 2 and log 3). -/
def Obligations.WaitAndResetSteps : Prop :=
  (∀ s : State, s.host = [] → step s = .next s) ∧
  (∀ (s : State) (rest : List HostAction), s.host = .reset :: rest → step s = .next { State.reset with host := rest })

/-! ## State, reset, status -/

/-- R50: the reset value of every element; and the state after `CLR` is identical. -/
def Obligations.ResetAndClrValues : Prop :=
  ∀ s : State, ∃ t, exec .clr s = .next t ∧ t.host = s.host ∧ ∀ u, u = State.reset ∨ u = t →
    (∀ sym, u.freqAt sym = 0#32) ∧ u.total = 0#40 ∧ u.unique = 0#9 ∧ (∀ i, u.node? i = none) ∧ u.next = 256#9 ∧ u.pl = [] ∧
    u.root = 0#9 ∧ u.rootv = false ∧ (∀ sym, u.code? sym = none) ∧ u.phase = .freq ∧
    u.hst = .idle ∧ u.hcnt = 0#9 ∧ u.hsym = 0#8 ∧ u.hfrq = 0#32 ∧ u.acc = 0#8 ∧ u.nbits = 0#3 ∧
    u.cur = 0#9 ∧ u.decoded = 0#40 ∧ u.err = .noFault ∧ u.out = []

/-- R40 to R43: every field of the five status registers at its place, reserved bits and the selects 5 to 7 read as 0. -/
def Obligations.StatusRegisterFields : Prop :=
  ∀ s : State,
    ((s.stdata 0#3).extractLsb' 0 3 = s.phase.code ∧ (s.stdata 0#3).getLsbD 3 = s.rootv ∧
      (s.stdata 0#3).extractLsb' 4 4 = s.err.code ∧ (s.stdata 0#3).extractLsb' 8 3 = s.hst.code ∧
      ((s.stdata 0#3).getLsbD 11 = true ↔ (s.phase = .tree ∨ s.phase = .coded) ∧ s.decoded = s.total) ∧
      (s.stdata 0#3).extractLsb' 12 3 = s.nbits ∧ (s.stdata 0#3).getLsbD 15 = false ∧
      (s.stdata 0#3).extractLsb' 16 9 = s.unique ∧ (s.stdata 0#3).extractLsb' 25 15 = 0#15) ∧
    ((s.stdata 1#3).extractLsb' 0 9 = BitVec.ofNat 9 s.pl.length ∧ (s.stdata 1#3).extractLsb' 9 9 = s.root ∧
      (s.stdata 1#3).extractLsb' 18 9 = s.next ∧ (s.stdata 1#3).extractLsb' 27 13 = 0#13) ∧
    s.stdata 2#3 = s.total ∧ s.stdata 3#3 = s.decoded ∧
    ((s.stdata 4#3).extractLsb' 0 9 = s.cur ∧ (s.stdata 4#3).extractLsb' 9 8 = s.acc ∧
      (s.stdata 4#3).extractLsb' 17 9 = s.hcnt ∧ (s.stdata 4#3).extractLsb' 26 14 = 0#14) ∧
    s.stdata 5#3 = 0#40 ∧ s.stdata 6#3 = 0#40 ∧ s.stdata 7#3 = 0#40 ∧
    (State.reset.stdata 0#3 = 0#40 ∧ State.reset.stdata 1#3 = 0x0004000000#40 ∧ State.reset.stdata 2#3 = 0#40 ∧
      State.reset.stdata 3#3 = 0#40 ∧ State.reset.stdata 4#3 = 0#40)

/-! ## The phase table and the fault mechanism -/

/-- R31: a well-formed command the phase table does not allow raises SEQ and changes nothing else; one it allows never raises SEQ. -/
def Obligations.PhaseTableDecidesSeq : Prop :=
  ∀ (i : Instr) (s : State), s.err = .noFault →
    (legal i s = false → exec i s = .next { s with err := .seq }) ∧
    (legal i s = true → ∀ t, exec i s = .next t → t.err ≠ .seq)

/-- R262: a fault changes nothing but `ERR`. `GET` is the one exception, whose earlier bits' effects stand; under the invariants
it changes nothing but `ERR` either. -/
def Obligations.FaultChangesOnlyErr : Prop :=
  ∀ (i : Instr) (s t : State), s.err = .noFault → exec i s = .next t → t.err ≠ .noFault →
    ((∀ b, i ≠ .get b) ∨ Inv s → t = { s with err := t.err }) ∧
    t = { s with err := t.err, out := t.out, cur := t.cur, decoded := t.decoded }

/-- R261, R264, R269: which command raises which code; RESOURCE is raised by nothing; the codes' numbers. -/
def Obligations.FaultCodesByCommand : Prop :=
  (∀ (i : Instr) (s t : State), s.err = .noFault → exec i s = .next t →
    (t.err = .io → i = .ioerr) ∧
    (t.err = .corrupt → (∃ b, i = .hin b) ∨ ∃ b, i = .get b) ∧
    t.err ≠ .resource ∧ t.err ≠ .illegal ∧
    (t.err = .contract → ∃ sym, i = .put sym) ∧
    (t.err = .seq → i ≠ .nop ∧ i ≠ .clr ∧ i ≠ .ioerr) ∧
    (t.err = .overflow → ∃ sym, i = .recSym sym)) ∧
  [ErrCode.noFault, .io, .corrupt, .resource, .contract, .seq, .illegal, .overflow].map ErrCode.code =
    [0#4, 1#4, 2#4, 3#4, 4#4, 5#4, 6#4, 7#4]

/-- R244, R30: the only movements of `PHASE`, command by command; `SEED` goes to TREE exactly when `UNIQUE <= 1`, `MERGE` on the step
that finds two nodes; `CLR` goes back to FREQ; a fault does not change `PHASE`. -/
def Obligations.PhaseMovesOnlyForward : Prop :=
  (∀ s t : State, exec .clr s = .next t → t.phase = .freq) ∧
  ∀ (i : Instr) (s t : State), exec i s = .next t → i ≠ .clr →
    s.phase.code ≤ t.phase.code ∧
    (t.phase ≠ s.phase →
      (i = .seed ∧ s.phase = .freq ∧ (t.phase = .seeded ∨ t.phase = .tree) ∧ (Inv s → (t.phase = .tree ↔ s.unique ≤ 1#9))) ∨
      (i = .merge ∧ s.phase = .seeded ∧ s.pl.length = 2 ∧ t.phase = .tree) ∨
      (i = .build ∧ (s.phase = .freq ∨ s.phase = .seeded) ∧ t.phase = .tree) ∨
      (i = .gen ∧ s.phase = .tree ∧ t.phase = .coded)) ∧
    (s.err = .noFault → t.err ≠ .noFault → t.phase = s.phase)

/-- R21, R24, R26, R28, R33, R34, R35: which commands write the tables, the Priority List, the working registers and `ERR`. -/
def Obligations.StateWriters : Prop :=
  ∀ (i : Instr) (s t : State), exec i s = .next t → i ≠ .clr →
    (t.freq ≠ s.freq ∨ t.total ≠ s.total ∨ t.unique ≠ s.unique → (∃ sym, i = .recSym sym) ∨ ∃ b, i = .hin b) ∧
    (t.nodes ≠ s.nodes ∨ t.pl ≠ s.pl ∨ t.next ≠ s.next ∨ t.root ≠ s.root ∨ t.rootv ≠ s.rootv →
      i = .seed ∨ i = .merge ∨ i = .build) ∧
    (t.codes ≠ s.codes → i = .gen) ∧
    (t.hst ≠ s.hst ∨ t.hcnt ≠ s.hcnt ∨ t.hsym ≠ s.hsym ∨ t.hfrq ≠ s.hfrq → ∃ b, i = .hin b) ∧
    (t.acc ≠ s.acc ∨ t.nbits ≠ s.nbits → (∃ sym, i = .put sym) ∨ i = .flush) ∧
    (t.decoded ≠ s.decoded → (∃ b, i = .get b) ∨ i = .drep) ∧
    (s.err ≠ .noFault → t = s) ∧
    t.host = s.host

/-- R44: `OUT` only grows, by `HOUT`, `PUT`, `FLUSH`, `GET` and `DREP`; nothing but `CLR` and reset removes from it; and no command reads it: with
any other record in its place the same bytes are appended and everything else is the same. -/
def Obligations.OutOnlyGrowsAndIsNotRead : Prop :=
  (∀ s t : State, exec .clr s = .next t → t.out = []) ∧
  (∀ (s t : State) (rest : List HostAction), s.host = .reset :: rest → step s = .next t → t.out = []) ∧
  ∀ (i : Instr) (s t : State), exec i s = .next t → i ≠ .clr →
    (t.out ≠ s.out → i = .hout ∨ (∃ sym, i = .put sym) ∨ i = .flush ∨ (∃ b, i = .get b) ∨ i = .drep) ∧
    ∃ appended, t.out = s.out ++ appended ∧
      ∀ record : List Byte, exec i { s with out := record } = .next { t with out := record ++ appended }

/-! ## Control -/

/-- R241: `NOP` changes nothing, in every phase and when faulted. -/
def Obligations.NopChangesNothing : Prop :=
  ∀ s : State, exec .nop s = .next s

/-- R242: `CLR` in every phase and in the faulted state gives every element its reset value; the status registers after it. -/
def Obligations.ClrReturnsEverythingToReset : Prop :=
  ∀ s : State, ∃ t, exec .clr s = .next t ∧ t = { State.reset with host := s.host } ∧
    t.stdata 0#3 = 0#40 ∧ t.stdata 1#3 = 0x0004000000#40 ∧ t.stdata 2#3 = 0#40 ∧ t.stdata 3#3 = 0#40 ∧ t.stdata 4#3 = 0#40 ∧
    t.out = []

/-- R243, R267: `IOERR` records IO in any phase and writes `ERR` only; in the faulted state the earlier code stays. -/
def Obligations.IoerrRecordsIo : Prop :=
  ∀ s : State, (s.err = .noFault → exec .ioerr s = .next { s with err := .io }) ∧ (s.err ≠ .noFault → exec .ioerr s = .next s)

/-! ## The Frequency Table -/

/-- R131: `REC` counts one occurrence in `FREQ[s]`, `TOTAL` and, the first time, `UNIQUE`; nothing else changes; the table is not
empty afterwards. -/
def Obligations.RecCountsOneOccurrence : Prop :=
  ∀ (sym : Symbol) (s : State),
    s.err = .noFault → s.phase = .freq → s.hst = .idle → s.freqAt sym ≠ 0xFFFFFFFF#32 →
      ∃ t, exec (.recSym sym) s = .next t ∧
        (t.freqAt sym).toNat = (s.freqAt sym).toNat + 1 ∧ (∀ x, x ≠ sym → t.freqAt x = s.freqAt x) ∧
        t.total = s.total + 1#40 ∧ t.unique = (if s.freqAt sym = 0#32 then s.unique + 1#9 else s.unique) ∧
        t = { s with freq := t.freq, total := t.total, unique := t.unique } ∧
        (FreqInv s → t.total.toNat = s.total.toNat + 1 ∧ t.flagEmpty = false)

/-- R132, R276: a count of 2^32 - 1 is not passed: OVERFLOW, nothing else changes. -/
def Obligations.RecAtMaximumOverflows : Prop :=
  ∀ (sym : Symbol) (s : State),
    s.err = .noFault → s.phase = .freq → s.hst = .idle → s.freqAt sym = 0xFFFFFFFF#32 →
      exec (.recSym sym) s = .next { s with err := .overflow }

/-- R131: the final table is the same for any permutation of the same input. -/
def Obligations.RecOrderIrrelevant : Prop :=
  ∀ (xs ys : List Symbol) (s t : State),
    Memory.wf s → s.err = .noFault → xs.Perm ys → execAll (xs.map .recSym) s = .next t → t.err = .noFault →
      execAll (ys.map .recSym) s = .next t

/-! ## The Header Codec -/

/-- R195, R196: the parser's steps before the commit, one per position: what each byte writes, and nothing else. -/
def Obligations.HinAdvancesParser : Prop :=
  ∀ (b : Byte) (s : State), s.err = .noFault → s.phase = .freq →
    (s.hst = .idle → s.total = 0#40 →
      exec (.hin b) s = .next { s with hcnt := BitVec.ofNat 9 (b.toNat + 1), hst := .sym }) ∧
    (s.hst = .sym → exec (.hin b) s = .next { s with hsym := b, hfrq := 0#32, hst := .f3 }) ∧
    (s.hst = .f3 → exec (.hin b) s = .next { s with hfrq := b ++ s.hfrq.extractLsb' 0 24, hst := .f2 }) ∧
    (s.hst = .f2 → exec (.hin b) s =
      .next { s with hfrq := s.hfrq.extractLsb' 24 8 ++ b ++ s.hfrq.extractLsb' 0 16, hst := .f1 }) ∧
    (s.hst = .f1 → exec (.hin b) s =
      .next { s with hfrq := s.hfrq.extractLsb' 16 16 ++ b ++ s.hfrq.extractLsb' 0 8, hst := .f0 })

/-- R197: the fifth byte commits the entry: `FREQ[HSYM]`, `UNIQUE`, `TOTAL` and the parser in one step, nothing else; the sums
fit, and the table's invariant holds after it. -/
def Obligations.HinCommitsEntry : Prop :=
  ∀ (b : Byte) (s : State) (f : Count),
    s.err = .noFault → s.phase = .freq → s.hst = .f0 → f = s.hfrq.extractLsb' 8 24 ++ b → f ≠ 0#32 → s.freqAt s.hsym = 0#32 →
      ∃ t, exec (.hin b) s = .next t ∧
        t.freqAt s.hsym = f ∧ (∀ x, x ≠ s.hsym → t.freqAt x = s.freqAt x) ∧
        t.hfrq = f ∧ t.unique = s.unique + 1#9 ∧ t.total = s.total + f.setWidth 40 ∧
        (t.hst = if t.unique = s.hcnt then .done else .sym) ∧
        t = { s with freq := t.freq, hfrq := t.hfrq, unique := t.unique, total := t.total, hst := t.hst } ∧
        (FreqInv s → FreqInv t ∧ t.total.toNat = s.total.toNat + f.toNat ∧ t.unique.toNat = s.unique.toNat + 1)

/-- R109, R72: the five bytes of an entry are the symbol and its frequency, most-significant byte first. -/
def Obligations.HeaderEntryIsBigEndian : Prop :=
  ∀ (a b3 b2 b1 b0 : Byte) (s : State),
    s.err = .noFault → s.phase = .freq → s.hst = .sym → s.freqAt a = 0#32 →
    0 < b3.toNat * 2 ^ 24 + b2.toNat * 2 ^ 16 + b1.toNat * 2 ^ 8 + b0.toNat →
      ∃ t, execAll [.hin a, .hin b3, .hin b2, .hin b1, .hin b0] s = .next t ∧
        (t.freqAt a).toNat = b3.toNat * 2 ^ 24 + b2.toNat * 2 ^ 16 + b1.toNat * 2 ^ 8 + b0.toNat ∧
        (∀ x, x ≠ a → t.freqAt x = s.freqAt x) ∧ t.unique = s.unique + 1#9 ∧
        t.total = s.total + (t.freqAt a).setWidth 40 ∧ t.hsym = a ∧ t.hfrq = t.freqAt a ∧
        (t.hst = if t.unique = s.hcnt then .done else .sym) ∧
        t = { s with freq := t.freq, hsym := t.hsym, hfrq := t.hfrq, unique := t.unique, total := t.total, hst := t.hst }

/-- R198: a frequency of 0 or a symbol listed twice is CORRUPT at the fifth byte, and nothing else changes; every other fifth byte is
accepted, and every count, symbol and earlier frequency byte; so a complete header has `UNIQUE = HCNT >= 1` and `TOTAL >= UNIQUE`; a
header that ends early is no corruption, but makes `SEED` and `BUILD` raise SEQ. -/
def Obligations.HinRejectsInconsistentEntry : Prop :=
  (∀ (b : Byte) (s : State), s.err = .noFault → s.phase = .freq → s.hst = .f0 →
    (s.hfrq.extractLsb' 8 24 ++ b = 0#32 ∨ s.freqAt s.hsym ≠ 0#32 → exec (.hin b) s = .next { s with err := .corrupt }) ∧
    (s.hfrq.extractLsb' 8 24 ++ b ≠ 0#32 ∧ s.freqAt s.hsym = 0#32 → ∃ t, exec (.hin b) s = .next t ∧ t.err = .noFault)) ∧
  (∀ (b : Byte) (s : State), s.err = .noFault → s.phase = .freq → s.hst ≠ .f0 → s.hst ≠ .done → (s.hst = .idle → s.total = 0#40) →
    ∃ t, exec (.hin b) s = .next t ∧ t.err = .noFault) ∧
  (∀ s : State, s.err = .noFault → s.phase = .freq → s.hst ≠ .idle → s.hst ≠ .done →
    exec .seed s = .next { s with err := .seq } ∧ exec .build s = .next { s with err := .seq }) ∧
  (∀ s : State, FreqInv s → s.hst = .done →
    s.unique = s.hcnt ∧ 1 ≤ s.unique.toNat ∧ s.unique.toNat ≤ s.total.toNat)

/-- R191, R193, R107 to R109: `HOUT` appends the count byte and the entries of the present symbols in ascending order, `1 + 5 * UNIQUE`
bytes; nothing for an empty table; it writes `OUT` only. The listed entries of the table in canonical form are the present symbols. -/
def Obligations.HoutEmitsHeader : Prop :=
  ∀ s : State, s.err = .noFault → s.phase = .tree ∨ s.phase = .coded → Memory.wf s → FreqInv s →
    ∃ t, exec .hout s = .next t ∧ t = { s with out := t.out } ∧
      (s.unique = 0#9 → t.out = s.out) ∧
      (s.unique ≠ 0#9 →
        t.out = s.out ++ [BitVec.ofNat 8 (s.unique.toNat - 1)] ++ s.freq.flatMap (fun e =>
          [BitVec.ofNat 8 e.1, BitVec.ofNat 8 (e.2.toNat / 2 ^ 24), BitVec.ofNat 8 (e.2.toNat / 2 ^ 16),
            BitVec.ofNat 8 (e.2.toNat / 2 ^ 8), BitVec.ofNat 8 e.2.toNat]) ∧
        t.out.length = s.out.length + 1 + 5 * s.unique.toNat)

/-- R199: the bytes `HOUT` writes, fed to `HIN` from a cleared block, rebuild the same `FREQ`, `UNIQUE` and `TOTAL`, and the parser ends
in `H_DONE`. -/
def Obligations.HeaderRoundTrip : Prop :=
  ∀ s t : State, s.err = .noFault → s.phase = .tree ∨ s.phase = .coded → Memory.wf s → FreqInv s → s.unique ≠ 0#9 →
    exec .hout s = .next t →
      ∃ header u, t.out = s.out ++ header ∧ execAll (.clr :: header.map .hin) t = .next u ∧ u.err = .noFault ∧
        u.hst = .done ∧ u.freq = s.freq ∧ u.unique = s.unique ∧ u.total = s.total

/-! ## The Priority List -/

/-- R145: `SEED` makes the leaf of every present symbol and no other node, puts exactly them into `PL`, and enters SEEDED with two or
more of them, else completes the tree; nothing else changes. -/
def Obligations.SeedMakesLeaves : Prop :=
  ∀ s : State, s.err = .noFault → s.phase = .freq → s.hst = .idle ∨ s.hst = .done → Inv s →
    ∃ t, exec .seed s = .next t ∧
      (∀ sym, t.node? (leafIdx sym) = if s.freqAt sym = 0#32 then none else some (.leaf sym ((s.freqAt sym).setWidth 40))) ∧
      (∀ i : NodeIdx, 256#9 ≤ i → t.node? i = none) ∧
      t.pl.Perm ((presentSymbols s).map leafIdx) ∧ t.pl.length = s.unique.toNat ∧
      (2#9 ≤ s.unique → t.phase = .seeded ∧ t.root = s.root ∧ t.rootv = s.rootv ∧ t.cur = s.cur) ∧
      (s.unique = 1#9 → t.phase = .tree ∧ t.rootv = true ∧ t.pl = [t.root] ∧ t.cur = t.root) ∧
      (s.unique = 0#9 → t.phase = .tree ∧ t.rootv = false ∧ t.root = 0#9 ∧ t.cur = 0#9) ∧
      t = { s with nodes := t.nodes, pl := t.pl, phase := t.phase, root := t.root, rootv := t.rootv, cur := t.cur }

/-- R147, R142: after `SEED`, `PL` is the present symbols sorted ascending by the pair (count, symbol); inserting the leaves in any
other order gives the same `PL`. -/
def Obligations.SeedOrderIsCountThenSymbol : Prop :=
  ∀ s t : State, s.err = .noFault → s.phase = .freq → Inv s → exec .seed s = .next t → t.err = .noFault →
    (∃ syms : List Symbol, t.pl = syms.map leafIdx ∧ syms.Perm (presentSymbols s) ∧
      syms.Pairwise (fun a b => s.freqAt a < s.freqAt b ∨ (s.freqAt a = s.freqAt b ∧ a < b))) ∧
    (∀ order : List Symbol, order.Perm allSymbols → ∃ u, seedLoop order s = .next u ∧ u.pl = t.pl ∧ u.nodes = t.nodes)

/-! ## The Tree Builder -/

/-- R161, R162, R143, R163, R165: one `MERGE` pops the two front nodes, makes their parent at `NEXT` (first popped left, second right,
weight the sum), puts it after nodes of smaller weight and before the first node of equal or greater weight (on a sorted list, before
every such node), and completes the tree when it is alone; nothing else changes. Under the invariants the sum does not wrap and the left
child is not the heavier. -/
def Obligations.MergeBuildsParent : Prop :=
  ∀ (s : State) (l r : NodeIdx) (rest : List NodeIdx) (nl nr : Node),
    s.err = .noFault → s.phase = .seeded → s.pl = l :: r :: rest → s.node? l = some nl → s.node? r = some nr →
    (∀ k ∈ rest, (s.node? k).isSome = true) → s.next.toNat < 511 →
      ∃ t pre post, exec .merge s = .next t ∧
        t.node? s.next = some (.internal (nl.weight + nr.weight) l r) ∧ (∀ i, i ≠ s.next → t.node? i = s.node? i) ∧
        t.next = s.next + 1#9 ∧
        rest = pre ++ post ∧ t.pl = pre ++ s.next :: post ∧
        (∀ k ∈ pre, weightAt t k < weightAt t s.next) ∧ (∀ k, post.head? = some k → weightAt t s.next ≤ weightAt t k) ∧
        (rest.Pairwise (fun a b => weightAt t a ≤ weightAt t b) → ∀ k ∈ post, weightAt t s.next ≤ weightAt t k) ∧
        (Inv s → weightAt t s.next = nl.weight.toNat + nr.weight.toNat ∧ nl.weight ≤ nr.weight ∧ l ≠ r) ∧
        (rest = [] → t.phase = .tree ∧ t.root = s.next ∧ t.rootv = true ∧ t.cur = s.next) ∧
        (rest ≠ [] → t.phase = .seeded ∧ t.root = s.root ∧ t.rootv = s.rootv ∧ t.cur = s.cur) ∧
        t = { s with nodes := t.nodes, next := t.next, pl := t.pl, phase := t.phase, root := t.root, rootv := t.rootv, cur := t.cur }

/-- R164, R162: `BUILD` is `SEED`, if the table is still open, and then `MERGE` until phase TREE. -/
def Obligations.BuildIsSeedThenMerges : Prop :=
  (∀ s t : State, s.err = .noFault → s.phase = .freq → exec .seed s = .next t → t.err = .noFault →
    exec .build s = mergesWhileSeeded t.pl.length t) ∧
  (∀ s : State, s.err = .noFault → s.phase = .seeded → 2 ≤ s.pl.length →
    exec .build s = mergesWhileSeeded s.pl.length s)

/-- R164, R165, R167, R168: `BUILD` completes the tree: the root alone in `PL`, `UNIQUE - 1` merges, root at `254 + UNIQUE`; the single
leaf is the root; the empty table has none; nothing but the builder's state changes. -/
def Obligations.BuildCompletesTree : Prop :=
  ∀ s : State, Inv s → s.err = .noFault → (s.phase = .freq ∧ (s.hst = .idle ∨ s.hst = .done)) ∨ s.phase = .seeded →
    ∃ t, exec .build s = .next t ∧ t.phase = .tree ∧
      (2 ≤ s.unique.toNat → t.root.toNat = 254 + s.unique.toNat ∧ t.next.toNat = 255 + s.unique.toNat) ∧
      (∀ i : NodeIdx, 256#9 ≤ i → ((t.node? i).isSome = true ↔ i < t.next)) ∧ t.root.toNat ≤ 510 ∧
      (1 ≤ s.unique.toNat → t.pl = [t.root] ∧ t.rootv = true ∧ t.cur = t.root) ∧
      (s.unique = 1#9 → ∃ sym w, t.node? t.root = some (.leaf sym w)) ∧
      (s.unique ≤ 1#9 → t.next = 256#9) ∧
      (s.unique = 0#9 → t.pl = [] ∧ t.rootv = false ∧ t.root = 0#9 ∧ t.nodes = []) ∧
      t = { s with nodes := t.nodes, next := t.next, pl := t.pl, phase := t.phase, root := t.root, rootv := t.rootv, cur := t.cur }

/-- R169: the tree `BUILD` makes is a function of the Frequency Table alone: whatever else differs between two open tables, equal counts
give equal nodes, list, root and `NEXT`. -/
def Obligations.TreeDependsOnTableAlone : Prop :=
  ∀ s s' t t' : State, Inv s → Inv s' → s.phase = .freq → s'.phase = .freq → (∀ sym, s.freqAt sym = s'.freqAt sym) →
    exec .build s = .next t → exec .build s' = .next t' → s.err = .noFault → s'.err = .noFault → t.err = .noFault → t'.err = .noFault →
      t.nodes = t'.nodes ∧ t.pl = t'.pl ∧ t.root = t'.root ∧ t.rootv = t'.rootv ∧ t.next = t'.next ∧ t.cur = t'.cur

/-- R166: the weight of every valid node is the sum of the counts of the leaves under it; the root's weight is `TOTAL`. -/
def Obligations.NodeWeightIsLeafSum : Prop :=
  ∀ s : State, Inv s →
    (∀ (i : NodeIdx) (n : Node), s.node? i = some n →
      n.weight.toNat = ((leavesAt s i).map fun sym => (s.freqAt sym).toNat).sum) ∧
    (s.rootv = true → weightAt s s.root = s.total.toNat)

/-! ## The Code Generator -/

/-- R182, R181: after `GEN` with `UNIQUE >= 2` the code of every present symbol is its path from the root, every other symbol has no
entry and its `PUT` raises CONTRACT; `GEN` writes `CODE` and `PHASE` only. -/
def Obligations.GenAssignsRootPaths : Prop :=
  ∀ s : State, Inv s → s.err = .noFault → s.phase = .tree → 2#9 ≤ s.unique →
    ∃ t, exec .gen s = .next t ∧ t.phase = .coded ∧
      (∀ sym, s.freqAt sym ≠ 0#32 → ∃ p, t.code? sym = some ⟨p⟩ ∧ leafReached s s.root p = some sym ∧ 1 ≤ p.length ∧ p.length ≤ 255) ∧
      (∀ sym, s.freqAt sym = 0#32 → t.code? sym = none ∧ exec (.put sym) t = .next { t with err := .contract }) ∧
      t = { s with codes := t.codes, phase := t.phase }

/-- R184: with `UNIQUE <= 1` `GEN` writes no entry and only moves `PHASE` to CODED. -/
def Obligations.GenBypassesSingleAndEmpty : Prop :=
  ∀ s : State, s.err = .noFault → s.phase = .tree → s.unique ≤ 1#9 → exec .gen s = .next { s with phase := .coded }

/-- R183: no code is a prefix of another symbol's code; every infinite bit sequence has a prefix that is a code; the Kraft sum is
exactly 1 (here multiplied by 2^255, the length bound of R8). -/
def Obligations.CodesArePrefixFreeAndComplete : Prop :=
  ∀ s t : State, Inv s → s.err = .noFault → s.phase = .tree → 2#9 ≤ s.unique → exec .gen s = .next t →
    (∀ a b ca cb, t.code? a = some ca → t.code? b = some cb → ca.bits <+: cb.bits → a = b) ∧
    (∀ bits : List Bool, bits.length = 255 → ∃ sym c, t.code? sym = some c ∧ c.bits <+: bits) ∧
    ((allSymbols.filterMap t.code?).map fun c => 2 ^ (255 - c.bits.length)).sum = 2 ^ 255

/-! ## The Bit Packer -/

/-- R211: `append_bit` puts the bit after the pending ones, most-significant first, and on the eighth emits the byte and resets the
accumulator; the unwritten bits stay, so zero bits below the pending ones stay zero. -/
def Obligations.AppendBitFillsFromTheTop : Prop :=
  ∀ (s : State) (c : Bool),
    (AccLowClear s → AccLowClear (appendBit s c)) ∧
    appendBit s c = { s with acc := (appendBit s c).acc, nbits := (appendBit s c).nbits, out := (appendBit s c).out } ∧
    (s.nbits ≠ 7#3 →
      (appendBit s c).nbits.toNat = s.nbits.toNat + 1 ∧ (appendBit s c).out = s.out ∧
      (bitsMsbFirst (appendBit s c).acc).take (s.nbits.toNat + 1) = (bitsMsbFirst s.acc).take s.nbits.toNat ++ [c] ∧
      (bitsMsbFirst (appendBit s c).acc).drop (s.nbits.toNat + 1) = (bitsMsbFirst s.acc).drop (s.nbits.toNat + 1)) ∧
    (s.nbits = 7#3 →
      (appendBit s c).nbits = 0#3 ∧ (appendBit s c).acc = 0#8 ∧
      ∃ b, (appendBit s c).out = s.out ++ [b] ∧ bitsMsbFirst b = (bitsMsbFirst s.acc).take 7 ++ [c])

/-- R212: `PUT` of a present symbol with `UNIQUE >= 2` appends exactly its code to the packed bits and writes `ACC`, `NBITS` and `OUT`
only; at most 32 bytes are emitted. -/
def Obligations.PutAppendsCode : Prop :=
  ∀ (sym : Symbol) (s : State) (c : Code),
    s.err = .noFault → s.phase = .coded → s.freqAt sym ≠ 0#32 → 2#9 ≤ s.unique → s.code? sym = some c → AccLowClear s →
      ∃ t, exec (.put sym) s = .next t ∧ packedBits t = packedBits s ++ c.bits ∧ s.out <+: t.out ∧ AccLowClear t ∧
        (c.bits.length ≤ 255 → t.out.length ≤ s.out.length + 32) ∧
        t = { s with acc := t.acc, nbits := t.nbits, out := t.out }

/-- R212, R275: `PUT` of an absent symbol raises CONTRACT and changes nothing else, in the empty case always. -/
def Obligations.PutOfAbsentSymbolIsContract : Prop :=
  ∀ (sym : Symbol) (s : State), s.err = .noFault → s.phase = .coded → (s.freqAt sym = 0#32 ∨ (FreqInv s ∧ s.unique = 0#9)) →
    exec (.put sym) s = .next { s with err := .contract }

/-- R213: in the single-symbol case `PUT` of the one present symbol is accepted and appends nothing, of any other symbol it is CONTRACT,
and `FLUSH` emits nothing. -/
def Obligations.SingleSymbolHasNoBody : Prop :=
  ∀ (sym : Symbol) (s : State), s.err = .noFault → s.phase = .coded → s.unique = 1#9 →
    (s.freqAt sym ≠ 0#32 → exec (.put sym) s = .next s) ∧
    (s.freqAt sym = 0#32 → exec (.put sym) s = .next { s with err := .contract }) ∧
    (s.nbits = 0#3 → exec .flush s = .next s)

/-- R214, R74: `FLUSH` emits the pending bits in the most-significant positions of one byte with zeros below and resets the accumulator;
with nothing pending it emits nothing, so a second `FLUSH` emits nothing. -/
def Obligations.FlushPadsWithZeros : Prop :=
  ∀ s : State, s.err = .noFault → s.phase = .coded → AccLowClear s →
    (s.nbits = 0#3 → exec .flush s = .next s) ∧
    (s.nbits ≠ 0#3 → ∃ t b, exec .flush s = .next t ∧ t.out = s.out ++ [b] ∧
      bitsMsbFirst b = (bitsMsbFirst s.acc).take s.nbits.toNat ++ List.replicate (8 - s.nbits.toNat) false ∧
      t.acc = 0#8 ∧ t.nbits = 0#3 ∧ t = { s with acc := t.acc, nbits := t.nbits, out := t.out } ∧ exec .flush t = .next t)

/-- R216: `PUT`s of present symbols from an empty accumulator and then `FLUSH` append to `OUT` the concatenation of the codes followed by
`(8 - L mod 8) mod 8` zero bits, most-significant bit first. -/
def Obligations.BodyIsCodesThenPadding : Prop :=
  ∀ (xs : List Symbol) (s : State), Inv s → s.err = .noFault → s.phase = .coded → 2#9 ≤ s.unique →
    s.acc = 0#8 → s.nbits = 0#3 → (∀ x ∈ xs, s.freqAt x ≠ 0#32) →
      ∃ t body codes, execAll (xs.map .put ++ [.flush]) s = .next t ∧ t.err = .noFault ∧ t.out = s.out ++ body ∧
        codes = xs.flatMap (fun x => ((s.code? x).map Code.bits).getD []) ∧
        body.flatMap bitsMsbFirst = codes ++ List.replicate ((8 - codes.length % 8) % 8) false ∧
        t = { s with out := t.out }

/-! ## The Bit Unpacker -/

/-- R227: when `DONE` holds a `GET` changes nothing and raises nothing, whatever its byte. -/
def Obligations.GetAfterDoneIsIgnored : Prop :=
  ∀ (b : Byte) (s : State), s.err = .noFault → s.flagDone = true → exec (.get b) s = .next s

/-- R226, R227: `GET` with `UNIQUE >= 2` walks the tree by the byte's bits from bit 7 down. With `p` the directions from the root to
`CUR`, the bits examined split into the root paths of the symbols emitted and the directions to the new `CUR`; the loop examines all eight
bits unless `DECODED` reaches `TOTAL`; no fault is raised; `OUT`, `DECODED` and `CUR` alone change. -/
def Obligations.GetWalksTree : Prop :=
  ∀ (b : Byte) (s : State) (p : List Bool), Inv s → s.err = .noFault → s.phase = .tree ∨ s.phase = .coded → 2#9 ≤ s.unique →
    descend s s.root p = some s.cur →
      ∃ (t : State) (k : Nat) (syms : List Symbol) (paths : List (List Bool)) (q : List Bool),
        exec (.get b) s = .next t ∧ k ≤ 8 ∧ t.out = s.out ++ syms ∧
        List.Forall₂ (fun path sym => leafReached s s.root path = some sym) paths syms ∧
        p ++ (bitsMsbFirst b).take k = paths.flatten ++ q ∧ descend s s.root q = some t.cur ∧
        t.decoded.toNat = s.decoded.toNat + syms.length ∧ (k = 8 ∨ t.decoded = t.total) ∧
        (t.decoded = t.total → s.decoded ≠ s.total → t.cur = s.root) ∧
        t = { s with out := t.out, decoded := t.decoded, cur := t.cur }

/-- R228: `GET` taking a bit at a leaf raises CORRUPT and changes nothing else; under the invariants that happens exactly in the
single-symbol case with `DECODED < TOTAL`, so with `UNIQUE >= 2` no body byte raises it. -/
def Obligations.GetAtLeafIsCorrupt : Prop :=
  (∀ (b : Byte) (s : State) (sym : Symbol) (w : Weight), s.err = .noFault → s.phase = .tree ∨ s.phase = .coded →
    s.decoded ≠ s.total → s.node? s.cur = some (.leaf sym w) → exec (.get b) s = .next { s with err := .corrupt }) ∧
  (∀ (b : Byte) (s t : State), Inv s → s.err = .noFault → s.phase = .tree ∨ s.phase = .coded →
    exec (.get b) s = .next t → (t.err = .corrupt ↔ s.unique = 1#9 ∧ s.decoded < s.total) ∧ (t.err ≠ .corrupt → t.err = .noFault))

/-- R229: `DREP` emits the single symbol `TOTAL - DECODED` times and sets `DECODED`; it does nothing in the empty case; a second one
appends nothing; with `UNIQUE >= 2` it is SEQ. -/
def Obligations.DrepRepeatsSingleSymbol : Prop :=
  ∀ s : State, s.err = .noFault → s.phase = .tree ∨ s.phase = .coded →
    (∀ sym w, s.unique = 1#9 → s.node? s.root = some (.leaf sym w) →
      ∃ t, exec .drep s = .next t ∧ t.out = s.out ++ List.replicate (s.total.toNat - s.decoded.toNat) sym ∧ t.decoded = s.total ∧
        t.flagDone = true ∧ t = { s with out := t.out, decoded := t.decoded } ∧ exec .drep t = .next t) ∧
    (s.unique = 0#9 → exec .drep s = .next s) ∧
    (2#9 ≤ s.unique → exec .drep s = .next { s with err := .seq })

/-! ## Invariants -/

/-- The reset state meets the invariants R51 to R55. -/
def Obligations.ResetMeetsInvariants : Prop :=
  Inv State.reset

/-- Every step from a state whose tables are in canonical form ends in one whose tables are (the model's memory form, log 4). -/
def Obligations.StepKeepsTablesCanonical : Prop :=
  ∀ s t : State, Memory.wf s → step s = .next t → Memory.wf t

/-- R51: every step keeps the frequency invariants, from every state that has them; and with them `UNIQUE >= 1` whenever
`TOTAL >= 1`. -/
def Obligations.StepKeepsFrequencyInvariants : Prop :=
  ∀ s t : State, FreqInv s → step s = .next t → FreqInv t ∧ (1 ≤ t.total.toNat → 1 ≤ t.unique.toNat)

/-- R51 to R55, R9, R301: from every state that meets the invariants a step answers a next state, which meets them: the block never
stops, whatever the host presents. -/
def Obligations.StepNeverStopsAndKeepsInvariants : Prop :=
  ∀ s : State, Inv s → ∃ t, step s = .next t ∧ Inv t

/-! ## The round trip -/

/-- R230: for every byte sequence, with no symbol more than 2^32 - 1 times, `ENCODE` and then `DECODE` of the artifact it leaves in `OUT`
end with `ERR = 0`, `DONE = 1` and `OUT` the sequence, whatever state the block was in. -/
def Obligations.DecodeOfEncodeIsIdentity : Prop :=
  ∀ (bytes : List Byte) (s : State), (∀ b, bytes.count b < 2 ^ 32) →
    ∃ a t, execAll (encodeCommands bytes) s = .next a ∧ a.err = .noFault ∧
      execAll (decodeCommands a.out) a = .next t ∧ t.err = .noFault ∧ t.flagDone = true ∧ t.out = bytes
end

