-- ==== Sys2Proof/Laws/State.lean ====
section
/-! SUPPORT. One lemma per field and update of the state, true by unfolding the update once, so that no proof unfolds a record
update again. -/

namespace Sys2Proof.Machine

/-! ## `FREQ[s] <- v` -/

@[simp] theorem State.setFreq_freq (s : State) (sym : Symbol) (v : Count) : (s.setFreq sym v).freq = if v = freqUnlisted then Table.erase s.freq sym.toNat else Table.set s.freq sym.toNat v := rfl
@[simp] theorem State.setFreq_total (s : State) (sym : Symbol) (v : Count) : (s.setFreq sym v).total = s.total := rfl
@[simp] theorem State.setFreq_unique (s : State) (sym : Symbol) (v : Count) : (s.setFreq sym v).unique = s.unique := rfl
@[simp] theorem State.setFreq_nodes (s : State) (sym : Symbol) (v : Count) : (s.setFreq sym v).nodes = s.nodes := rfl
@[simp] theorem State.setFreq_next (s : State) (sym : Symbol) (v : Count) : (s.setFreq sym v).next = s.next := rfl
@[simp] theorem State.setFreq_pl (s : State) (sym : Symbol) (v : Count) : (s.setFreq sym v).pl = s.pl := rfl
@[simp] theorem State.setFreq_root (s : State) (sym : Symbol) (v : Count) : (s.setFreq sym v).root = s.root := rfl
@[simp] theorem State.setFreq_rootv (s : State) (sym : Symbol) (v : Count) : (s.setFreq sym v).rootv = s.rootv := rfl
@[simp] theorem State.setFreq_codes (s : State) (sym : Symbol) (v : Count) : (s.setFreq sym v).codes = s.codes := rfl
@[simp] theorem State.setFreq_phase (s : State) (sym : Symbol) (v : Count) : (s.setFreq sym v).phase = s.phase := rfl
@[simp] theorem State.setFreq_hst (s : State) (sym : Symbol) (v : Count) : (s.setFreq sym v).hst = s.hst := rfl
@[simp] theorem State.setFreq_hcnt (s : State) (sym : Symbol) (v : Count) : (s.setFreq sym v).hcnt = s.hcnt := rfl
@[simp] theorem State.setFreq_hsym (s : State) (sym : Symbol) (v : Count) : (s.setFreq sym v).hsym = s.hsym := rfl
@[simp] theorem State.setFreq_hfrq (s : State) (sym : Symbol) (v : Count) : (s.setFreq sym v).hfrq = s.hfrq := rfl
@[simp] theorem State.setFreq_acc (s : State) (sym : Symbol) (v : Count) : (s.setFreq sym v).acc = s.acc := rfl
@[simp] theorem State.setFreq_nbits (s : State) (sym : Symbol) (v : Count) : (s.setFreq sym v).nbits = s.nbits := rfl
@[simp] theorem State.setFreq_cur (s : State) (sym : Symbol) (v : Count) : (s.setFreq sym v).cur = s.cur := rfl
@[simp] theorem State.setFreq_decoded (s : State) (sym : Symbol) (v : Count) : (s.setFreq sym v).decoded = s.decoded := rfl
@[simp] theorem State.setFreq_err (s : State) (sym : Symbol) (v : Count) : (s.setFreq sym v).err = s.err := rfl
@[simp] theorem State.setFreq_out (s : State) (sym : Symbol) (v : Count) : (s.setFreq sym v).out = s.out := rfl
@[simp] theorem State.setFreq_host (s : State) (sym : Symbol) (v : Count) : (s.setFreq sym v).host = s.host := rfl

/-! ## Appending to `OUT` -/

@[simp] theorem State.emit_freq (s : State) (bytes : List Byte) : (s.emit bytes).freq = s.freq := rfl
@[simp] theorem State.emit_total (s : State) (bytes : List Byte) : (s.emit bytes).total = s.total := rfl
@[simp] theorem State.emit_unique (s : State) (bytes : List Byte) : (s.emit bytes).unique = s.unique := rfl
@[simp] theorem State.emit_nodes (s : State) (bytes : List Byte) : (s.emit bytes).nodes = s.nodes := rfl
@[simp] theorem State.emit_next (s : State) (bytes : List Byte) : (s.emit bytes).next = s.next := rfl
@[simp] theorem State.emit_pl (s : State) (bytes : List Byte) : (s.emit bytes).pl = s.pl := rfl
@[simp] theorem State.emit_root (s : State) (bytes : List Byte) : (s.emit bytes).root = s.root := rfl
@[simp] theorem State.emit_rootv (s : State) (bytes : List Byte) : (s.emit bytes).rootv = s.rootv := rfl
@[simp] theorem State.emit_codes (s : State) (bytes : List Byte) : (s.emit bytes).codes = s.codes := rfl
@[simp] theorem State.emit_phase (s : State) (bytes : List Byte) : (s.emit bytes).phase = s.phase := rfl
@[simp] theorem State.emit_hst (s : State) (bytes : List Byte) : (s.emit bytes).hst = s.hst := rfl
@[simp] theorem State.emit_hcnt (s : State) (bytes : List Byte) : (s.emit bytes).hcnt = s.hcnt := rfl
@[simp] theorem State.emit_hsym (s : State) (bytes : List Byte) : (s.emit bytes).hsym = s.hsym := rfl
@[simp] theorem State.emit_hfrq (s : State) (bytes : List Byte) : (s.emit bytes).hfrq = s.hfrq := rfl
@[simp] theorem State.emit_acc (s : State) (bytes : List Byte) : (s.emit bytes).acc = s.acc := rfl
@[simp] theorem State.emit_nbits (s : State) (bytes : List Byte) : (s.emit bytes).nbits = s.nbits := rfl
@[simp] theorem State.emit_cur (s : State) (bytes : List Byte) : (s.emit bytes).cur = s.cur := rfl
@[simp] theorem State.emit_decoded (s : State) (bytes : List Byte) : (s.emit bytes).decoded = s.decoded := rfl
@[simp] theorem State.emit_err (s : State) (bytes : List Byte) : (s.emit bytes).err = s.err := rfl
@[simp] theorem State.emit_out (s : State) (bytes : List Byte) : (s.emit bytes).out = s.out ++ bytes := rfl
@[simp] theorem State.emit_host (s : State) (bytes : List Byte) : (s.emit bytes).host = s.host := rfl

/-! ## Emitting the accumulator -/

@[simp] theorem emitAcc_freq (s : State) : (emitAcc s).freq = s.freq := rfl
@[simp] theorem emitAcc_total (s : State) : (emitAcc s).total = s.total := rfl
@[simp] theorem emitAcc_unique (s : State) : (emitAcc s).unique = s.unique := rfl
@[simp] theorem emitAcc_nodes (s : State) : (emitAcc s).nodes = s.nodes := rfl
@[simp] theorem emitAcc_next (s : State) : (emitAcc s).next = s.next := rfl
@[simp] theorem emitAcc_pl (s : State) : (emitAcc s).pl = s.pl := rfl
@[simp] theorem emitAcc_root (s : State) : (emitAcc s).root = s.root := rfl
@[simp] theorem emitAcc_rootv (s : State) : (emitAcc s).rootv = s.rootv := rfl
@[simp] theorem emitAcc_codes (s : State) : (emitAcc s).codes = s.codes := rfl
@[simp] theorem emitAcc_phase (s : State) : (emitAcc s).phase = s.phase := rfl
@[simp] theorem emitAcc_hst (s : State) : (emitAcc s).hst = s.hst := rfl
@[simp] theorem emitAcc_hcnt (s : State) : (emitAcc s).hcnt = s.hcnt := rfl
@[simp] theorem emitAcc_hsym (s : State) : (emitAcc s).hsym = s.hsym := rfl
@[simp] theorem emitAcc_hfrq (s : State) : (emitAcc s).hfrq = s.hfrq := rfl
@[simp] theorem emitAcc_acc (s : State) : (emitAcc s).acc = 0#8 := rfl
@[simp] theorem emitAcc_nbits (s : State) : (emitAcc s).nbits = 0#3 := rfl
@[simp] theorem emitAcc_cur (s : State) : (emitAcc s).cur = s.cur := rfl
@[simp] theorem emitAcc_decoded (s : State) : (emitAcc s).decoded = s.decoded := rfl
@[simp] theorem emitAcc_err (s : State) : (emitAcc s).err = s.err := rfl
@[simp] theorem emitAcc_out (s : State) : (emitAcc s).out = s.out ++ [s.acc] := rfl
@[simp] theorem emitAcc_host (s : State) : (emitAcc s).host = s.host := rfl

/-! ## `CLR` and reset -/

@[simp] theorem clearBlock_freq (s : State) : (clearBlock s).freq = State.reset.freq := rfl
@[simp] theorem clearBlock_total (s : State) : (clearBlock s).total = State.reset.total := rfl
@[simp] theorem clearBlock_unique (s : State) : (clearBlock s).unique = State.reset.unique := rfl
@[simp] theorem clearBlock_nodes (s : State) : (clearBlock s).nodes = State.reset.nodes := rfl
@[simp] theorem clearBlock_next (s : State) : (clearBlock s).next = State.reset.next := rfl
@[simp] theorem clearBlock_pl (s : State) : (clearBlock s).pl = State.reset.pl := rfl
@[simp] theorem clearBlock_root (s : State) : (clearBlock s).root = State.reset.root := rfl
@[simp] theorem clearBlock_rootv (s : State) : (clearBlock s).rootv = State.reset.rootv := rfl
@[simp] theorem clearBlock_codes (s : State) : (clearBlock s).codes = State.reset.codes := rfl
@[simp] theorem clearBlock_phase (s : State) : (clearBlock s).phase = State.reset.phase := rfl
@[simp] theorem clearBlock_hst (s : State) : (clearBlock s).hst = State.reset.hst := rfl
@[simp] theorem clearBlock_hcnt (s : State) : (clearBlock s).hcnt = State.reset.hcnt := rfl
@[simp] theorem clearBlock_hsym (s : State) : (clearBlock s).hsym = State.reset.hsym := rfl
@[simp] theorem clearBlock_hfrq (s : State) : (clearBlock s).hfrq = State.reset.hfrq := rfl
@[simp] theorem clearBlock_acc (s : State) : (clearBlock s).acc = State.reset.acc := rfl
@[simp] theorem clearBlock_nbits (s : State) : (clearBlock s).nbits = State.reset.nbits := rfl
@[simp] theorem clearBlock_cur (s : State) : (clearBlock s).cur = State.reset.cur := rfl
@[simp] theorem clearBlock_decoded (s : State) : (clearBlock s).decoded = State.reset.decoded := rfl
@[simp] theorem clearBlock_err (s : State) : (clearBlock s).err = State.reset.err := rfl
@[simp] theorem clearBlock_out (s : State) : (clearBlock s).out = State.reset.out := rfl
@[simp] theorem clearBlock_host (s : State) : (clearBlock s).host = s.host := rfl

/-! ## `REC` -/

@[simp] theorem countSymbol_freq (sym : Symbol) (s : State) : (countSymbol sym s).freq = (s.setFreq sym (s.freqAt sym + 1#32)).freq := rfl
@[simp] theorem countSymbol_total (sym : Symbol) (s : State) : (countSymbol sym s).total = s.total + 1#40 := rfl
@[simp] theorem countSymbol_unique (sym : Symbol) (s : State) : (countSymbol sym s).unique = if s.freqAt sym = 0#32 then s.unique + 1#9 else s.unique := rfl
@[simp] theorem countSymbol_nodes (sym : Symbol) (s : State) : (countSymbol sym s).nodes = s.nodes := rfl
@[simp] theorem countSymbol_next (sym : Symbol) (s : State) : (countSymbol sym s).next = s.next := rfl
@[simp] theorem countSymbol_pl (sym : Symbol) (s : State) : (countSymbol sym s).pl = s.pl := rfl
@[simp] theorem countSymbol_root (sym : Symbol) (s : State) : (countSymbol sym s).root = s.root := rfl
@[simp] theorem countSymbol_rootv (sym : Symbol) (s : State) : (countSymbol sym s).rootv = s.rootv := rfl
@[simp] theorem countSymbol_codes (sym : Symbol) (s : State) : (countSymbol sym s).codes = s.codes := rfl
@[simp] theorem countSymbol_phase (sym : Symbol) (s : State) : (countSymbol sym s).phase = s.phase := rfl
@[simp] theorem countSymbol_hst (sym : Symbol) (s : State) : (countSymbol sym s).hst = s.hst := rfl
@[simp] theorem countSymbol_hcnt (sym : Symbol) (s : State) : (countSymbol sym s).hcnt = s.hcnt := rfl
@[simp] theorem countSymbol_hsym (sym : Symbol) (s : State) : (countSymbol sym s).hsym = s.hsym := rfl
@[simp] theorem countSymbol_hfrq (sym : Symbol) (s : State) : (countSymbol sym s).hfrq = s.hfrq := rfl
@[simp] theorem countSymbol_acc (sym : Symbol) (s : State) : (countSymbol sym s).acc = s.acc := rfl
@[simp] theorem countSymbol_nbits (sym : Symbol) (s : State) : (countSymbol sym s).nbits = s.nbits := rfl
@[simp] theorem countSymbol_cur (sym : Symbol) (s : State) : (countSymbol sym s).cur = s.cur := rfl
@[simp] theorem countSymbol_decoded (sym : Symbol) (s : State) : (countSymbol sym s).decoded = s.decoded := rfl
@[simp] theorem countSymbol_err (sym : Symbol) (s : State) : (countSymbol sym s).err = s.err := rfl
@[simp] theorem countSymbol_out (sym : Symbol) (s : State) : (countSymbol sym s).out = s.out := rfl
@[simp] theorem countSymbol_host (sym : Symbol) (s : State) : (countSymbol sym s).host = s.host := rfl

/-! ## The fifth byte of a header entry -/

@[simp] theorem commitEntry_freq (f : Count) (s : State) : (commitEntry f s).freq = (s.setFreq s.hsym f).freq := rfl
@[simp] theorem commitEntry_total (f : Count) (s : State) : (commitEntry f s).total = s.total + f.setWidth 40 := rfl
@[simp] theorem commitEntry_unique (f : Count) (s : State) : (commitEntry f s).unique = s.unique + 1#9 := rfl
@[simp] theorem commitEntry_nodes (f : Count) (s : State) : (commitEntry f s).nodes = s.nodes := rfl
@[simp] theorem commitEntry_next (f : Count) (s : State) : (commitEntry f s).next = s.next := rfl
@[simp] theorem commitEntry_pl (f : Count) (s : State) : (commitEntry f s).pl = s.pl := rfl
@[simp] theorem commitEntry_root (f : Count) (s : State) : (commitEntry f s).root = s.root := rfl
@[simp] theorem commitEntry_rootv (f : Count) (s : State) : (commitEntry f s).rootv = s.rootv := rfl
@[simp] theorem commitEntry_codes (f : Count) (s : State) : (commitEntry f s).codes = s.codes := rfl
@[simp] theorem commitEntry_phase (f : Count) (s : State) : (commitEntry f s).phase = s.phase := rfl
@[simp] theorem commitEntry_hst (f : Count) (s : State) : (commitEntry f s).hst = if s.unique + 1#9 = s.hcnt then .done else .sym := rfl
@[simp] theorem commitEntry_hcnt (f : Count) (s : State) : (commitEntry f s).hcnt = s.hcnt := rfl
@[simp] theorem commitEntry_hsym (f : Count) (s : State) : (commitEntry f s).hsym = s.hsym := rfl
@[simp] theorem commitEntry_hfrq (f : Count) (s : State) : (commitEntry f s).hfrq = f := rfl
@[simp] theorem commitEntry_acc (f : Count) (s : State) : (commitEntry f s).acc = s.acc := rfl
@[simp] theorem commitEntry_nbits (f : Count) (s : State) : (commitEntry f s).nbits = s.nbits := rfl
@[simp] theorem commitEntry_cur (f : Count) (s : State) : (commitEntry f s).cur = s.cur := rfl
@[simp] theorem commitEntry_decoded (f : Count) (s : State) : (commitEntry f s).decoded = s.decoded := rfl
@[simp] theorem commitEntry_err (f : Count) (s : State) : (commitEntry f s).err = s.err := rfl
@[simp] theorem commitEntry_out (f : Count) (s : State) : (commitEntry f s).out = s.out := rfl
@[simp] theorem commitEntry_host (f : Count) (s : State) : (commitEntry f s).host = s.host := rfl

/-! ## Completion of the tree: what it writes and what it leaves -/

@[simp] theorem treeComplete_freq (s : State) : (treeComplete s).freq = s.freq := by
  unfold treeComplete; split <;> rfl
@[simp] theorem treeComplete_total (s : State) : (treeComplete s).total = s.total := by
  unfold treeComplete; split <;> rfl
@[simp] theorem treeComplete_unique (s : State) : (treeComplete s).unique = s.unique := by
  unfold treeComplete; split <;> rfl
@[simp] theorem treeComplete_nodes (s : State) : (treeComplete s).nodes = s.nodes := by
  unfold treeComplete; split <;> rfl
@[simp] theorem treeComplete_next (s : State) : (treeComplete s).next = s.next := by
  unfold treeComplete; split <;> rfl
@[simp] theorem treeComplete_pl (s : State) : (treeComplete s).pl = s.pl := by
  unfold treeComplete; split <;> rfl
@[simp] theorem treeComplete_codes (s : State) : (treeComplete s).codes = s.codes := by
  unfold treeComplete; split <;> rfl
@[simp] theorem treeComplete_phase (s : State) : (treeComplete s).phase = .tree := by
  unfold treeComplete; split <;> rfl
@[simp] theorem treeComplete_hst (s : State) : (treeComplete s).hst = s.hst := by
  unfold treeComplete; split <;> rfl
@[simp] theorem treeComplete_hcnt (s : State) : (treeComplete s).hcnt = s.hcnt := by
  unfold treeComplete; split <;> rfl
@[simp] theorem treeComplete_hsym (s : State) : (treeComplete s).hsym = s.hsym := by
  unfold treeComplete; split <;> rfl
@[simp] theorem treeComplete_hfrq (s : State) : (treeComplete s).hfrq = s.hfrq := by
  unfold treeComplete; split <;> rfl
@[simp] theorem treeComplete_acc (s : State) : (treeComplete s).acc = s.acc := by
  unfold treeComplete; split <;> rfl
@[simp] theorem treeComplete_nbits (s : State) : (treeComplete s).nbits = s.nbits := by
  unfold treeComplete; split <;> rfl
@[simp] theorem treeComplete_decoded (s : State) : (treeComplete s).decoded = s.decoded := by
  unfold treeComplete; split <;> rfl
@[simp] theorem treeComplete_err (s : State) : (treeComplete s).err = s.err := by
  unfold treeComplete; split <;> rfl
@[simp] theorem treeComplete_out (s : State) : (treeComplete s).out = s.out := by
  unfold treeComplete; split <;> rfl
@[simp] theorem treeComplete_host (s : State) : (treeComplete s).host = s.host := by
  unfold treeComplete; split <;> rfl

@[simp] theorem completeIfSingle_freq (s : State) : (completeIfSingle s).freq = s.freq := by
  unfold completeIfSingle; split <;> simp
@[simp] theorem completeIfSingle_total (s : State) : (completeIfSingle s).total = s.total := by
  unfold completeIfSingle; split <;> simp
@[simp] theorem completeIfSingle_unique (s : State) : (completeIfSingle s).unique = s.unique := by
  unfold completeIfSingle; split <;> simp
@[simp] theorem completeIfSingle_nodes (s : State) : (completeIfSingle s).nodes = s.nodes := by
  unfold completeIfSingle; split <;> simp
@[simp] theorem completeIfSingle_next (s : State) : (completeIfSingle s).next = s.next := by
  unfold completeIfSingle; split <;> simp
@[simp] theorem completeIfSingle_pl (s : State) : (completeIfSingle s).pl = s.pl := by
  unfold completeIfSingle; split <;> simp
@[simp] theorem completeIfSingle_codes (s : State) : (completeIfSingle s).codes = s.codes := by
  unfold completeIfSingle; split <;> simp
@[simp] theorem completeIfSingle_hst (s : State) : (completeIfSingle s).hst = s.hst := by
  unfold completeIfSingle; split <;> simp
@[simp] theorem completeIfSingle_hcnt (s : State) : (completeIfSingle s).hcnt = s.hcnt := by
  unfold completeIfSingle; split <;> simp
@[simp] theorem completeIfSingle_hsym (s : State) : (completeIfSingle s).hsym = s.hsym := by
  unfold completeIfSingle; split <;> simp
@[simp] theorem completeIfSingle_hfrq (s : State) : (completeIfSingle s).hfrq = s.hfrq := by
  unfold completeIfSingle; split <;> simp
@[simp] theorem completeIfSingle_acc (s : State) : (completeIfSingle s).acc = s.acc := by
  unfold completeIfSingle; split <;> simp
@[simp] theorem completeIfSingle_nbits (s : State) : (completeIfSingle s).nbits = s.nbits := by
  unfold completeIfSingle; split <;> simp
@[simp] theorem completeIfSingle_decoded (s : State) : (completeIfSingle s).decoded = s.decoded := by
  unfold completeIfSingle; split <;> simp
@[simp] theorem completeIfSingle_err (s : State) : (completeIfSingle s).err = s.err := by
  unfold completeIfSingle; split <;> simp
@[simp] theorem completeIfSingle_out (s : State) : (completeIfSingle s).out = s.out := by
  unfold completeIfSingle; split <;> simp
@[simp] theorem completeIfSingle_host (s : State) : (completeIfSingle s).host = s.host := by
  unfold completeIfSingle; split <;> simp

@[simp] theorem finishSeeding_freq (s : State) : (finishSeeding s).freq = s.freq := by
  unfold finishSeeding; split <;> simp
@[simp] theorem finishSeeding_total (s : State) : (finishSeeding s).total = s.total := by
  unfold finishSeeding; split <;> simp
@[simp] theorem finishSeeding_unique (s : State) : (finishSeeding s).unique = s.unique := by
  unfold finishSeeding; split <;> simp
@[simp] theorem finishSeeding_nodes (s : State) : (finishSeeding s).nodes = s.nodes := by
  unfold finishSeeding; split <;> simp
@[simp] theorem finishSeeding_next (s : State) : (finishSeeding s).next = s.next := by
  unfold finishSeeding; split <;> simp
@[simp] theorem finishSeeding_pl (s : State) : (finishSeeding s).pl = s.pl := by
  unfold finishSeeding; split <;> simp
@[simp] theorem finishSeeding_codes (s : State) : (finishSeeding s).codes = s.codes := by
  unfold finishSeeding; split <;> simp
@[simp] theorem finishSeeding_hst (s : State) : (finishSeeding s).hst = s.hst := by
  unfold finishSeeding; split <;> simp
@[simp] theorem finishSeeding_hcnt (s : State) : (finishSeeding s).hcnt = s.hcnt := by
  unfold finishSeeding; split <;> simp
@[simp] theorem finishSeeding_hsym (s : State) : (finishSeeding s).hsym = s.hsym := by
  unfold finishSeeding; split <;> simp
@[simp] theorem finishSeeding_hfrq (s : State) : (finishSeeding s).hfrq = s.hfrq := by
  unfold finishSeeding; split <;> simp
@[simp] theorem finishSeeding_acc (s : State) : (finishSeeding s).acc = s.acc := by
  unfold finishSeeding; split <;> simp
@[simp] theorem finishSeeding_nbits (s : State) : (finishSeeding s).nbits = s.nbits := by
  unfold finishSeeding; split <;> simp
@[simp] theorem finishSeeding_decoded (s : State) : (finishSeeding s).decoded = s.decoded := by
  unfold finishSeeding; split <;> simp
@[simp] theorem finishSeeding_err (s : State) : (finishSeeding s).err = s.err := by
  unfold finishSeeding; split <;> simp
@[simp] theorem finishSeeding_out (s : State) : (finishSeeding s).out = s.out := by
  unfold finishSeeding; split <;> simp
@[simp] theorem finishSeeding_host (s : State) : (finishSeeding s).host = s.host := by
  unfold finishSeeding; split <;> simp

/-! ## The cases of completion -/

/-- One node remains: it is the root, and the traversal starts there (R165). -/
theorem treeComplete_single (s : State) (i : NodeIdx) (h : s.pl = [i]) :
    treeComplete s = { s with phase := .tree, root := i, rootv := true, cur := i } := by
  unfold treeComplete; rw [h]

/-- No node remains: only the phase moves (R165, empty case). -/
theorem treeComplete_empty (s : State) (h : s.pl = []) : treeComplete s = { s with phase := .tree } := by
  unfold treeComplete; rw [h]

/-- Outside the single-node case completion only moves the phase. -/
theorem treeComplete_of_length_ne_one (s : State) (h : s.pl.length ≠ 1) : treeComplete s = { s with phase := .tree } := by
  unfold treeComplete
  split
  · rename_i i hi; simp [hi] at h
  · rfl

theorem completeIfSingle_of_length_ne_one (s : State) (h : s.pl.length ≠ 1) : completeIfSingle s = s := by
  simp [completeIfSingle, h]

theorem completeIfSingle_single (s : State) (i : NodeIdx) (h : s.pl = [i]) :
    completeIfSingle s = { s with phase := .tree, root := i, rootv := true, cur := i } := by
  simp [completeIfSingle, h, treeComplete_single s i h]

theorem finishSeeding_two (s : State) (h : 2 ≤ s.pl.length) : finishSeeding s = { s with phase := .seeded } := by
  simp [finishSeeding, h]

theorem finishSeeding_single (s : State) (i : NodeIdx) (h : s.pl = [i]) :
    finishSeeding s = { s with phase := .tree, root := i, rootv := true, cur := i } := by
  simp [finishSeeding, h, treeComplete_single s i h]

theorem finishSeeding_empty (s : State) (h : s.pl = []) : finishSeeding s = { s with phase := .tree } := by
  simp [finishSeeding, h, treeComplete_empty s h]

end Sys2Proof.Machine
end

