-- ==== Sys2Proof/Laws/Table.lean ====
section
/-! SUPPORT. The laws of sparse tables: read after write, the canonical form is kept, and equal reads are equal tables. -/

namespace Sys2Proof.Machine

variable {α : Type}

@[simp] theorem Table.get?_nil (i : Nat) : Table.get? ([] : Table α) i = none := rfl

theorem Table.get?_cons (k : Nat) (v : α) (rest : Table α) (i : Nat) :
    Table.get? ((k, v) :: rest) i = if i = k then some v else Table.get? rest i := rfl

/-- A read after a write to the same index gives what was written. -/
@[simp] theorem Table.get?_set_self (t : Table α) (i : Nat) (v : α) : Table.get? (Table.set t i v) i = some v := by
  induction t with
  | nil => simp [Table.set, Table.get?]
  | cons e rest ih =>
    obtain ⟨k, u⟩ := e
    simp only [Table.set]
    split
    · simp [Table.get?]
    · split
      · simp [Table.get?]
      · next h => simp [Table.get?, h, ih]

/-- A write leaves every other index alone. -/
theorem Table.get?_set_ne (t : Table α) {i j : Nat} (v : α) (h : j ≠ i) :
    Table.get? (Table.set t i v) j = Table.get? t j := by
  induction t with
  | nil => simp [Table.set, Table.get?, h]
  | cons e rest ih =>
    obtain ⟨k, u⟩ := e
    simp only [Table.set]
    split
    · simp [Table.get?, h]
    · split
      · next h' => subst h'; simp [Table.get?, h]
      · simp [Table.get?, ih]

theorem Table.get?_set (t : Table α) (i j : Nat) (v : α) :
    Table.get? (Table.set t i v) j = if j = i then some v else Table.get? t j := by
  split
  · next h => subst h; simp
  · next h => exact Table.get?_set_ne t v h

/-- Removing an entry leaves every other index alone. -/
theorem Table.get?_erase_ne (t : Table α) {i j : Nat} (h : j ≠ i) : Table.get? (Table.erase t i) j = Table.get? t j := by
  induction t with
  | nil => rfl
  | cons e rest ih =>
    obtain ⟨k, u⟩ := e
    simp only [Table.erase]
    split
    · next h' => subst h'; simp [Table.get?, h]
    · simp [Table.get?, ih]

/-- What is read is listed. -/
theorem Table.mem_of_get? {t : Table α} {i : Nat} {v : α} (h : Table.get? t i = some v) : (i, v) ∈ t := by
  induction t with
  | nil => simp at h
  | cons e rest ih =>
    obtain ⟨k, u⟩ := e
    simp only [Table.get?] at h
    split at h
    · next h' => simp_all
    · exact List.mem_cons_of_mem _ (ih h)

/-- With rising indices, what is listed is read. -/
theorem Table.get?_of_mem {t : Table α} (hs : t.Pairwise (fun a b => a.1 < b.1)) {i : Nat} {v : α} (h : (i, v) ∈ t) :
    Table.get? t i = some v := by
  induction t with
  | nil => simp at h
  | cons e rest ih =>
    obtain ⟨k, u⟩ := e
    rw [List.pairwise_cons] at hs
    simp only [Table.get?]
    rcases List.mem_cons.1 h with h | h
    · cases h; simp
    · have : k < i := hs.1 _ h
      rw [if_neg (by omega)]
      exact ih hs.2 h

theorem Table.get?_eq_some_iff {t : Table α} (hs : t.Pairwise (fun a b => a.1 < b.1)) {i : Nat} {v : α} :
    Table.get? t i = some v ↔ (i, v) ∈ t :=
  ⟨Table.mem_of_get?, Table.get?_of_mem hs⟩

/-- An index is unlisted exactly when no pair has it. -/
theorem Table.get?_eq_none_iff {t : Table α} {i : Nat} : Table.get? t i = none ↔ ∀ e ∈ t, e.1 ≠ i := by
  induction t with
  | nil => simp
  | cons e rest ih =>
    obtain ⟨k, u⟩ := e
    simp only [Table.get?]
    split
    · next h => simp [h]
    · next h => simp [ih, Ne.symm h]

theorem Table.get?_isSome_iff {t : Table α} {i : Nat} : (Table.get? t i).isSome = true ↔ i ∈ t.map Prod.fst := by
  cases h : Table.get? t i with
  | none => simp only [Table.get?_eq_none_iff] at h; simp; exact fun v hv => h _ hv rfl
  | some v => simp; exact ⟨v, Table.mem_of_get? h⟩

/-- What a write can leave in the table. -/
theorem Table.mem_set {t : Table α} {i : Nat} {v : α} {e : Nat × α} (h : e ∈ Table.set t i v) : e = (i, v) ∨ e ∈ t := by
  induction t with
  | nil => simp_all [Table.set]
  | cons d rest ih =>
    obtain ⟨k, u⟩ := d
    simp only [Table.set] at h
    split at h
    · simpa using h
    · split at h
      · rcases List.mem_cons.1 h with h | h
        · exact .inl h
        · exact .inr (List.mem_cons_of_mem _ h)
      · rcases List.mem_cons.1 h with h | h
        · exact .inr (h ▸ List.mem_cons_self)
        · rcases ih h with h | h
          · exact .inl h
          · exact .inr (List.mem_cons_of_mem _ h)

theorem Table.mem_erase {t : Table α} {i : Nat} {e : Nat × α} (h : e ∈ Table.erase t i) : e ∈ t := by
  induction t with
  | nil => simp [Table.erase] at h
  | cons d rest ih =>
    obtain ⟨k, u⟩ := d
    simp only [Table.erase] at h
    split at h
    · exact List.mem_cons_of_mem _ h
    · rcases List.mem_cons.1 h with h | h
      · exact h ▸ List.mem_cons_self
      · exact List.mem_cons_of_mem _ (ih h)

/-- A write keeps the indices rising. -/
theorem Table.set_rising {t : Table α} (hs : t.Pairwise (fun a b => a.1 < b.1)) (i : Nat) (v : α) :
    (Table.set t i v).Pairwise (fun a b => a.1 < b.1) := by
  induction t with
  | nil => simp [Table.set]
  | cons d rest ih =>
    obtain ⟨k, u⟩ := d
    have hk := (List.pairwise_cons.1 hs).1
    have hr := (List.pairwise_cons.1 hs).2
    simp only [Table.set]
    split
    · next h =>
      refine List.pairwise_cons.2 ⟨fun e he => ?_, hs⟩
      rcases List.mem_cons.1 he with he | he
      · subst he; exact h
      · exact Nat.lt_trans h (hk e he)
    · split
      · next h => subst h; exact List.pairwise_cons.2 ⟨hk, hr⟩
      · next h1 h2 =>
        refine List.pairwise_cons.2 ⟨fun e he => ?_, ih hr⟩
        rcases Table.mem_set he with he | he
        · subst he; simp only; omega
        · exact hk e he

/-- Removing an entry keeps the indices rising. -/
theorem Table.erase_rising {t : Table α} (hs : t.Pairwise (fun a b => a.1 < b.1)) (i : Nat) :
    (Table.erase t i).Pairwise (fun a b => a.1 < b.1) := by
  induction t with
  | nil => simp [Table.erase]
  | cons d rest ih =>
    obtain ⟨k, u⟩ := d
    have hk := (List.pairwise_cons.1 hs).1
    have hr := (List.pairwise_cons.1 hs).2
    simp only [Table.erase]
    split
    · exact hr
    · exact List.pairwise_cons.2 ⟨fun e he => hk e (Table.mem_erase he), ih hr⟩

/-- A removed entry is unlisted. -/
theorem Table.get?_erase_self {t : Table α} (hs : t.Pairwise (fun a b => a.1 < b.1)) (i : Nat) :
    Table.get? (Table.erase t i) i = none := by
  induction t with
  | nil => rfl
  | cons d rest ih =>
    obtain ⟨k, u⟩ := d
    have hk := (List.pairwise_cons.1 hs).1
    have hr := (List.pairwise_cons.1 hs).2
    simp only [Table.erase]
    split
    · next h => subst h; exact Table.get?_eq_none_iff.2 fun e he => by have := hk e he; simp only at this; omega
    · next h => simp [Table.get?, h, ih hr]

/-- A write keeps the canonical form. -/
theorem Table.set_canonical {t : Table α} {size : Nat} {listed : α → Bool} (h : Table.Canonical t size listed)
    {i : Nat} {v : α} (hi : i < size) (hv : listed v = true) : Table.Canonical (Table.set t i v) size listed :=
  ⟨Table.set_rising h.1 i v, fun e he => (Table.mem_set he).elim (fun h' => h' ▸ ⟨hi, hv⟩) (h.2 e)⟩

/-- Removing an entry keeps the canonical form. -/
theorem Table.erase_canonical {t : Table α} {size : Nat} {listed : α → Bool} (h : Table.Canonical t size listed) (i : Nat) :
    Table.Canonical (Table.erase t i) size listed :=
  ⟨Table.erase_rising h.1 i, fun e he => h.2 e (Table.mem_erase he)⟩

theorem Table.nil_canonical (size : Nat) (listed : α → Bool) : Table.Canonical ([] : Table α) size listed :=
  ⟨List.Pairwise.nil, by simp⟩

/-- Writing an index above all listed ones appends it. -/
theorem Table.set_of_gt {t : Table α} {i : Nat} {v : α} (h : ∀ e ∈ t, e.1 < i) : Table.set t i v = t ++ [(i, v)] := by
  induction t with
  | nil => rfl
  | cons d rest ih =>
    obtain ⟨k, u⟩ := d
    have hk : k < i := h (k, u) List.mem_cons_self
    simp only [Table.set, if_neg (Nat.lt_asymm hk), if_neg (Nat.ne_of_gt hk), List.cons_append]
    rw [ih fun e he => h e (List.mem_cons_of_mem _ he)]

/-- Two tables with rising indices that read alike are equal: the canonical form is one form. -/
theorem Table.ext_of_rising {t u : Table α} (ht : t.Pairwise (fun a b => a.1 < b.1)) (hu : u.Pairwise (fun a b => a.1 < b.1))
    (h : ∀ i, Table.get? t i = Table.get? u i) : t = u := by
  induction t generalizing u with
  | nil =>
    cases u with
    | nil => rfl
    | cons e rest => obtain ⟨k, v⟩ := e; have := h k; simp [Table.get?] at this
  | cons d t' ih =>
    obtain ⟨k, v⟩ := d
    have hkt := (List.pairwise_cons.1 ht).1
    cases u with
    | nil => have := h k; simp [Table.get?] at this
    | cons e u' =>
      obtain ⟨j, w⟩ := e
      have hju := (List.pairwise_cons.1 hu).1
      have hkj : k = j := by
        by_contra hne
        have h1 := h k
        have h2 := h j
        simp only [Table.get?, if_true] at h1 h2
        rw [if_neg hne] at h1
        rw [if_neg (Ne.symm hne)] at h2
        have m1 := hju _ (Table.mem_of_get? h1.symm)
        have m2 := hkt _ (Table.mem_of_get? h2)
        simp only at m1 m2
        omega
      subst hkj
      have hvw : v = w := by have := h k; simpa [Table.get?] using this
      subst hvw
      congr 1
      refine ih (List.pairwise_cons.1 ht).2 (List.pairwise_cons.1 hu).2 fun i => ?_
      by_cases hik : i = k
      · subst hik
        rw [Table.get?_eq_none_iff.2 fun e he => Nat.ne_of_gt (hkt e he), Table.get?_eq_none_iff.2 fun e he => Nat.ne_of_gt (hju e he)]
      · have := h i; simpa [Table.get?, hik] using this

end Sys2Proof.Machine
end

