-- ==== Sys2Proof/Laws/Ops.lean ====
section
/-! SUPPORT. What each shared operation can do, said once: sequencing, checks and faults, table access, the host's queue; and that
every one of them keeps the canonical form of the tables. -/

namespace Sys2Proof.Machine

/-! ## Sequencing, checks, faults -/

@[simp] theorem andThen_next {α β : Type} (a : α) (f : α → Result β) : andThen (.next a) f = f a := rfl

@[simp] theorem andThen_fault {α β : Type} (r : Fault) (f : α → Result β) : andThen (.fault r) f = .fault r := rfl

@[simp] theorem andThen_refused {α β : Type} (r : Refusal) (f : α → Result β) : andThen (.refused r) f = .refused r := rfl

/-- A sequence answers a value exactly when both parts do. -/
theorem andThen_eq_next_iff {α β : Type} {x : Result α} {f : α → Result β} {b : β} :
    andThen x f = .next b ↔ ∃ a, x = .next a ∧ f a = .next b := by
  cases x <;> simp [andThen]

theorem andThen_assoc {α β γ : Type} (x : Result α) (f : α → Result β) (g : β → Result γ) :
    andThen (andThen x f) g = andThen x fun a => andThen (f a) g := by
  cases x <;> rfl

@[simp] theorem andThen_next_right {α : Type} (x : Result α) : (andThen x fun a => .next a) = x := by
  cases x <;> rfl

@[simp] theorem raise_eq (c : ErrCode) (s : State) : raise c s = .next { s with err := c } := rfl

@[simp] theorem require_pos {p : Prop} [Decidable p] (h : p) (c : ErrCode) (s : State) (k : Result State) :
    require p c s k = k := if_pos h

@[simp] theorem require_neg {p : Prop} [Decidable p] (h : ¬p) (c : ErrCode) (s : State) (k : Result State) :
    require p c s k = .next { s with err := c } := if_neg h

/-- A check either passes on to the rest of the command or takes the fault. -/
theorem require_eq_next_iff {p : Prop} [Decidable p] {c : ErrCode} {s t : State} {k : Result State} :
    require p c s k = .next t ↔ (p ∧ k = .next t) ∨ (¬p ∧ t = { s with err := c }) := by
  by_cases h : p <;> simp [h, eq_comm]

@[simp] theorem unlessFaulted_live {s : State} (h : s.err = .noFault) (k : Result State) : unlessFaulted s k = k := if_pos h

@[simp] theorem unlessFaulted_faulted {s : State} (h : s.err ≠ .noFault) (k : Result State) : unlessFaulted s k = .next s :=
  if_neg h

/-- A guarded command either runs, with `ERR = 0`, or is ignored. -/
theorem unlessFaulted_eq_next_iff {s t : State} {k : Result State} :
    unlessFaulted s k = .next t ↔ (s.err = .noFault ∧ k = .next t) ∨ (s.err ≠ .noFault ∧ t = s) := by
  by_cases h : s.err = .noFault <;> simp [h, eq_comm]

/-! ## Table access -/

/-- `FREQ` reads after a write: the written value there, the old value elsewhere. -/
theorem State.freqAt_setFreq_ne (s : State) {sym x : Symbol} (v : Count) (h : x ≠ sym) :
    (s.setFreq sym v).freqAt x = s.freqAt x := by
  have hn : x.toNat ≠ sym.toNat := fun e => h (BitVec.eq_of_toNat_eq e)
  unfold State.freqAt
  rw [State.setFreq_freq]
  split
  · rw [Table.get?_erase_ne _ hn]
  · rw [Table.get?_set_ne _ _ hn]

/-- The written value is read back: for a non-zero value in every state, for zero with rising indices. -/
theorem State.freqAt_setFreq_self (s : State) (sym : Symbol) {v : Count} (h : v ≠ 0#32) :
    (s.setFreq sym v).freqAt sym = v := by
  have h' : ¬v = freqUnlisted := h
  simp [State.freqAt, h']

theorem State.freqAt_setFreq_self_zero (s : State) (sym : Symbol) (hs : s.freq.Pairwise (fun a b => a.1 < b.1)) :
    (s.setFreq sym 0#32).freqAt sym = 0#32 := by
  have : (0#32 : Count) = freqUnlisted := rfl
  simp [State.freqAt, this, Table.get?_erase_self hs]

/-- `FREQ` is read through the table alone. -/
theorem State.freqAt_congr {s t : State} (h : t.freq = s.freq) (sym : Symbol) : t.freqAt sym = s.freqAt sym := by
  simp [State.freqAt, h]

theorem State.node?_congr {s t : State} (h : t.nodes = s.nodes) (i : NodeIdx) : t.node? i = s.node? i := by
  simp [State.node?, h]

theorem State.code?_congr {s t : State} (h : t.codes = s.codes) (sym : Symbol) : t.code? sym = s.code? sym := by
  simp [State.code?, h]

@[simp] theorem State.freqAt_emit (s : State) (bytes : List Byte) (sym : Symbol) : (s.emit bytes).freqAt sym = s.freqAt sym := rfl

@[simp] theorem State.node?_emit (s : State) (bytes : List Byte) (i : NodeIdx) : (s.emit bytes).node? i = s.node? i := rfl

@[simp] theorem State.code?_emit (s : State) (bytes : List Byte) (sym : Symbol) : (s.emit bytes).code? sym = s.code? sym := rfl

/-- With rising indices, the count of a symbol is non-zero exactly when a non-zero entry is listed. -/
theorem State.freqAt_of_mem {s : State} (h : s.freq.Pairwise (fun a b => a.1 < b.1)) {sym : Symbol} {v : Count}
    (hm : (sym.toNat, v) ∈ s.freq) : s.freqAt sym = v := by
  simp [State.freqAt, Table.get?_of_mem h hm]

/-- A read of a node answers it exactly when it is valid. -/
theorem State.readNode_eq_next_iff {s : State} {i : NodeIdx} {n : Node} : s.readNode i = .next n ↔ s.node? i = some n := by
  unfold State.readNode; split <;> simp_all

@[simp] theorem State.readNode_of_node? {s : State} {i : NodeIdx} {n : Node} (h : s.node? i = some n) : s.readNode i = .next n :=
  State.readNode_eq_next_iff.2 h

theorem State.readCode_eq_next_iff {s : State} {sym : Symbol} {c : Code} : s.readCode sym = .next c ↔ s.code? sym = some c := by
  unfold State.readCode; split <;> simp_all

@[simp] theorem State.readCode_of_code? {s : State} {sym : Symbol} {c : Code} (h : s.code? sym = some c) :
    s.readCode sym = .next c := State.readCode_eq_next_iff.2 h

/-- A write of a node succeeds exactly inside the table, and writes nothing else. -/
theorem State.writeNode_eq_next_iff {s t : State} {i : NodeIdx} {n : Node} :
    s.writeNode i n = .next t ↔ i.toNat < 511 ∧ t = { s with nodes := Table.set s.nodes i.toNat n } := by
  unfold State.writeNode; split <;> simp_all [eq_comm]

/-- `NODE` reads after a write. -/
theorem State.node?_set_self (s : State) (i : NodeIdx) (n : Node) :
    ({ s with nodes := Table.set s.nodes i.toNat n } : State).node? i = some n := by
  simp [State.node?]

theorem State.node?_set_ne (s : State) {i j : NodeIdx} (n : Node) (h : j ≠ i) :
    ({ s with nodes := Table.set s.nodes i.toNat n } : State).node? j = s.node? j := by
  simp only [State.node?]
  exact Table.get?_set_ne _ _ fun e => h (BitVec.eq_of_toNat_eq e)

/-! ## The symbols in order -/

@[simp] theorem allSymbols_length : allSymbols.length = 256 := by simp [allSymbols]

theorem mem_allSymbols (sym : Symbol) : sym ∈ allSymbols := by
  refine List.mem_map.2 ⟨sym.toNat, List.mem_range.2 sym.isLt, ?_⟩
  simp

/-- Every symbol once, in ascending order. -/
theorem allSymbols_rising : allSymbols.Pairwise fun a b => a < b := by
  unfold allSymbols
  rw [List.pairwise_map]
  refine List.Pairwise.imp_of_mem (fun {a b} ha hb hab => ?_) List.pairwise_lt_range
  have ha' := List.mem_range.1 ha
  have hb' := List.mem_range.1 hb
  rw [BitVec.lt_def, BitVec.toNat_ofNat, BitVec.toNat_ofNat]
  simp only [Config.nsym] at ha' hb'
  omega

theorem allSymbols_nodup : allSymbols.Nodup :=
  allSymbols_rising.imp fun h e => by subst e; exact absurd h (BitVec.lt_irrefl _)

/-- A sum over all symbols changes only by what changes at one symbol. -/
theorem sum_allSymbols_update (f g : Symbol → Nat) (a : Symbol) (h : ∀ x, x ≠ a → g x = f x) :
    (allSymbols.map g).sum + f a = (allSymbols.map f).sum + g a := by
  have key : ∀ l : List Symbol, l.Nodup → a ∈ l → (l.map g).sum + f a = (l.map f).sum + g a := by
    intro l
    induction l with
    | nil => simp
    | cons x rest ih =>
      intro hn hm
      rw [List.nodup_cons] at hn
      by_cases hx : x = a
      · subst hx
        have : rest.map g = rest.map f := List.map_congr_left fun y hy => h y fun e => hn.1 (e ▸ hy)
        simp only [List.map_cons, List.sum_cons, this]; omega
      · have := ih hn.2 ((List.mem_cons.1 hm).resolve_left (Ne.symm hx))
        simp only [List.map_cons, List.sum_cons, h x hx]; omega
  exact key allSymbols allSymbols_nodup (mem_allSymbols a)

/-- A choice of symbols that gains one symbol is one longer. -/
theorem length_filter_allSymbols_update (p q : Symbol → Bool) (a : Symbol) (h : ∀ x, x ≠ a → q x = p x) (hp : p a = false)
    (hq : q a = true) : (allSymbols.filter q).length = (allSymbols.filter p).length + 1 := by
  have key : ∀ r : Symbol → Bool, (allSymbols.filter r).length = (allSymbols.map fun x => if r x then 1 else 0).sum := by
    intro r
    induction allSymbols with
    | nil => rfl
    | cons x rest ih => by_cases hr : r x <;> simp [hr, ih]; omega
  have := sum_allSymbols_update (fun x => if p x then 1 else 0) (fun x => if q x then 1 else 0) a fun x hx => by simp [h x hx]
  simp only [hp, hq] at this
  rw [key, key]
  simpa using this

/-- At most 256 symbols are present. -/
theorem presentSymbols_length_le (s : State) : (presentSymbols s).length ≤ 256 := by
  have := List.length_filter_le (fun sym => s.freqAt sym != 0#32) allSymbols
  rwa [allSymbols_length] at this

theorem mem_presentSymbols {s : State} {sym : Symbol} : sym ∈ presentSymbols s ↔ s.freqAt sym ≠ 0#32 := by
  simp [presentSymbols, mem_allSymbols]

/-- The sum of 256 counts is at most 2^40 - 256 (R8). -/
theorem countSum_le (s : State) : countSum s ≤ 2 ^ 40 - 256 := by
  have key : ∀ l : List Symbol, (l.map fun sym => (s.freqAt sym).toNat).sum ≤ l.length * (2 ^ 32 - 1) := by
    intro l
    induction l with
    | nil => simp
    | cons x rest ih =>
      have := (s.freqAt x).isLt
      simp only [List.map_cons, List.sum_cons, List.length_cons]
      omega
  have := key allSymbols
  rw [allSymbols_length] at this
  exact this

/-- A change of one count changes the sum by as much. -/
theorem countSum_update {s t : State} (a : Symbol) (h : ∀ x, x ≠ a → t.freqAt x = s.freqAt x) :
    countSum t + (s.freqAt a).toNat = countSum s + (t.freqAt a).toNat :=
  sum_allSymbols_update (fun x => (s.freqAt x).toNat) (fun x => (t.freqAt x).toNat) a fun x hx => by simp only [h x hx]

/-! ## The canonical form of the tables -/

/-- A count written to `FREQ` keeps the canonical form, also when it is zero and the entry goes. -/
theorem Memory.wf_setFreq {s : State} (h : Memory.wf s) (sym : Symbol) (v : Count) : Memory.wf (s.setFreq sym v) := by
  refine ⟨?_, h.2.1, h.2.2⟩
  rw [State.setFreq_freq]
  split
  · exact Table.erase_canonical h.1 _
  · next hv => exact Table.set_canonical h.1 sym.isLt (by simpa using hv)

/-- A node written keeps the canonical form. -/
theorem Memory.wf_writeNode {s t : State} (h : Memory.wf s) {i : NodeIdx} {n : Node} (hw : s.writeNode i n = .next t) :
    Memory.wf t := by
  obtain ⟨hi, rfl⟩ := State.writeNode_eq_next_iff.1 hw
  exact ⟨h.1, Table.set_canonical h.2.1 hi rfl, h.2.2⟩

/-- A code written keeps the canonical form. -/
theorem Memory.writeCode_canonical {codes : Table Code} (h : Table.Canonical codes Config.nsym fun _ => true) (sym : Symbol)
    (p : List Bool) : Table.Canonical (writeCode codes sym p) Config.nsym fun _ => true :=
  Table.set_canonical h sym.isLt rfl

/-- A state with the same tables is as canonical. -/
theorem Memory.wf_congr {s t : State} (h : Memory.wf s) (hf : t.freq = s.freq) (hn : t.nodes = s.nodes) (hc : t.codes = s.codes) :
    Memory.wf t := by
  unfold Memory.wf; rw [hf, hn, hc]; exact h

theorem Memory.wf_clearBlock (s : State) : Memory.wf (clearBlock s) :=
  ⟨Table.nil_canonical _ _, Table.nil_canonical _ _, Table.nil_canonical _ _⟩

theorem Memory.wf_countSymbol {s : State} (h : Memory.wf s) (sym : Symbol) : Memory.wf (countSymbol sym s) :=
  Memory.wf_congr (Memory.wf_setFreq h sym _) rfl rfl rfl

theorem Memory.wf_commitEntry {s : State} (h : Memory.wf s) (f : Count) : Memory.wf (commitEntry f s) :=
  Memory.wf_congr (Memory.wf_setFreq h s.hsym f) rfl rfl rfl

/-! ## The host's queue -/

theorem takeAction_nil {s : State} (h : s.host = []) : takeAction s = none := by simp [takeAction, h]

theorem takeAction_cons {s : State} {a : HostAction} {rest : List HostAction} (h : s.host = a :: rest) :
    takeAction s = some (a, { s with host := rest }) := by simp [takeAction, h]

theorem step_nil {s : State} (h : s.host = []) : step s = waitForHost s := by simp [step, takeAction_nil h]

theorem step_cons {s : State} {a : HostAction} {rest : List HostAction} (h : s.host = a :: rest) :
    step s = runAction a { s with host := rest } := by simp [step, takeAction_cons h]

/-! ## Command sequences -/

@[simp] theorem execAll_nil (s : State) : execAll [] s = .next s := rfl

theorem execAll_cons (i : Instr) (rest : List Instr) (s : State) : execAll (i :: rest) s = andThen (exec i s) (execAll rest) := rfl

theorem execAll_append (a b : List Instr) (s : State) : execAll (a ++ b) s = andThen (execAll a s) (execAll b) := by
  induction a generalizing s with
  | nil => rfl
  | cons i rest ih =>
    simp only [List.cons_append, execAll_cons]
    cases exec i s with
    | next t => simp [ih]
    | fault r => rfl
    | refused r => rfl

end Sys2Proof.Machine
end

