-- ==== Sys2Proof/Laws/Builder.lean ====
section
/-! SUPPORT. What the operations of the Priority List and of the Tree Builder can do, said once each. -/

namespace Sys2Proof.Machine

/-! ## The Priority List -/

/-- `pop_front` answers the front, and leaves everything but the list alone. -/
theorem popFront_eq_next_iff {s : State} {p : NodeIdx × State} :
    popFront s = .next p ↔ ∃ rest, s.pl = p.1 :: rest ∧ p.2 = { s with pl := rest } := by
  obtain ⟨x, u⟩ := p
  unfold popFront
  cases h : s.pl with
  | nil => simp
  | cons y rest =>
    simp only [Host.Outcome.next.injEq, Prod.mk.injEq, List.cons.injEq]
    constructor
    · rintro ⟨rfl, rfl⟩; exact ⟨rest, ⟨rfl, rfl⟩, rfl⟩
    · rintro ⟨r, ⟨rfl, rfl⟩, rfl⟩; exact ⟨rfl, rfl⟩

/-- An insertion splits the list before the first member that passes the stop test. -/
theorem insertAt_next_spec {stops : Node → Node → Result Bool} {s : State} {n : NodeIdx} {new : Node} {l l' : List NodeIdx}
    (h : insertAt stops s n new l = .next l') :
    ∃ pre post, l = pre ++ post ∧ l' = pre ++ n :: post ∧
      (∀ k ∈ pre, ∃ old, s.node? k = some old ∧ stops new old = .next false) ∧
      (∀ k, post.head? = some k → ∃ old, s.node? k = some old ∧ stops new old = .next true) := by
  induction l generalizing l' with
  | nil =>
    simp only [insertAt, Host.Outcome.next.injEq] at h
    exact ⟨[], [], rfl, h.symm, by simp, by simp⟩
  | cons k rest ih =>
    simp only [insertAt, andThen_eq_next_iff, State.readNode_eq_next_iff] at h
    obtain ⟨old, hold, stop, hstop, h⟩ := h
    cases stop with
    | true =>
      simp only [if_true, Host.Outcome.next.injEq] at h
      refine ⟨[], k :: rest, rfl, h.symm, by simp, fun j hj => ?_⟩
      simp only [List.head?_cons, Option.some.injEq] at hj
      subst hj
      exact ⟨old, hold, hstop⟩
    | false =>
      simp only [Bool.false_eq_true, if_false, andThen_eq_next_iff, Host.Outcome.next.injEq] at h
      obtain ⟨tail, htail, rfl⟩ := h
      obtain ⟨pre, post, rfl, rfl, hpre, hpost⟩ := ih htail
      refine ⟨k :: pre, post, rfl, rfl, fun j hj => ?_, hpost⟩
      rcases List.mem_cons.1 hj with rfl | hj
      · exact ⟨old, hold, hstop⟩
      · exact hpre j hj

/-- An insertion completes when every member is valid and the stop test answers on it. -/
theorem insertAt_completes {stops : Node → Node → Result Bool} {s : State} {n : NodeIdx} {new : Node} {l : List NodeIdx}
    (h : ∀ k ∈ l, ∃ old b, s.node? k = some old ∧ stops new old = .next b) :
    ∃ l', insertAt stops s n new l = .next l' := by
  induction l with
  | nil => exact ⟨[n], rfl⟩
  | cons k rest ih =>
    obtain ⟨old, b, hold, hb⟩ := h k List.mem_cons_self
    obtain ⟨tail, htail⟩ := ih fun j hj => h j (List.mem_cons_of_mem _ hj)
    simp only [insertAt, State.readNode_of_node? hold, andThen_next, hb]
    cases b with
    | true => exact ⟨n :: k :: rest, by simp⟩
    | false => exact ⟨k :: tail, by simp [htail]⟩

/-- An insertion adds exactly the one member. -/
theorem insertAt_perm {stops : Node → Node → Result Bool} {s : State} {n : NodeIdx} {new : Node} {l l' : List NodeIdx}
    (h : insertAt stops s n new l = .next l') : l'.Perm (n :: l) := by
  obtain ⟨pre, post, rfl, rfl, -, -⟩ := insertAt_next_spec h
  exact List.perm_middle

/-- The stop test of `insert_merged` always answers. -/
theorem mergedStops_eq (new old : Node) : mergedStops new old = .next (decide (new.weight ≤ old.weight)) := rfl

theorem mergedStops_true_iff {new old : Node} : mergedStops new old = .next true ↔ new.weight.toNat ≤ old.weight.toNat := by
  simp [mergedStops_eq, BitVec.le_def]

theorem mergedStops_false_iff {new old : Node} : mergedStops new old = .next false ↔ old.weight.toNat < new.weight.toNat := by
  simp [mergedStops_eq, BitVec.le_def]

/-- The stop test of `insert_leaf` between two leaves is the order of the pair (weight, symbol). -/
theorem leafStops_leaf (symNew symOld : Symbol) (wNew wOld : Weight) :
    leafStops (.leaf symNew wNew) (.leaf symOld wOld) =
      .next (decide (wNew < wOld ∨ (wOld = wNew ∧ symNew < symOld))) := by
  by_cases h : wNew < wOld
  · simp [leafStops, Node.weight, h]
  · by_cases h' : wOld = wNew <;> simp [leafStops, Node.weight, h, h']

theorem insertLeaf_eq_next_iff {n : NodeIdx} {s t : State} :
    insertLeaf n s = .next t ↔ ∃ new pl, s.node? n = some new ∧ insertAt leafStops s n new s.pl = .next pl ∧ t = { s with pl := pl } := by
  simp only [insertLeaf, andThen_eq_next_iff, State.readNode_eq_next_iff, Host.Outcome.next.injEq, eq_comm (b := t)]
  constructor
  · rintro ⟨new, h1, pl, h2, h3⟩; exact ⟨new, pl, h1, h2, h3⟩
  · rintro ⟨new, pl, h1, h2, h3⟩; exact ⟨new, h1, pl, h2, h3⟩

theorem insertMerged_eq_next_iff {n : NodeIdx} {s t : State} :
    insertMerged n s = .next t ↔
      ∃ new pl, s.node? n = some new ∧ insertAt mergedStops s n new s.pl = .next pl ∧ t = { s with pl := pl } := by
  simp only [insertMerged, andThen_eq_next_iff, State.readNode_eq_next_iff, Host.Outcome.next.injEq, eq_comm (b := t)]
  constructor
  · rintro ⟨new, h1, pl, h2, h3⟩; exact ⟨new, pl, h1, h2, h3⟩
  · rintro ⟨new, pl, h1, h2, h3⟩; exact ⟨new, h1, pl, h2, h3⟩

/-! ## Seeding -/

theorem seedSymbol_absent {sym : Symbol} {s : State} (h : s.freqAt sym = 0#32) : seedSymbol sym s = .next s := if_pos h

/-- A present symbol gets its leaf and is inserted; nothing but `NODE` and `PL` changes. -/
theorem seedSymbol_present_iff {sym : Symbol} {s t : State} (h : s.freqAt sym ≠ 0#32) :
    seedSymbol sym s = .next t ↔
      ∃ pl, insertAt leafStops { s with nodes := Table.set s.nodes (leafIdx sym).toNat (leafOf sym s) } (leafIdx sym)
          (leafOf sym s) s.pl = .next pl ∧
        t = { s with nodes := Table.set s.nodes (leafIdx sym).toNat (leafOf sym s), pl := pl } := by
  have hi : (leafIdx sym).toNat < 511 := by
    have := sym.isLt
    simp only [leafIdx, BitVec.toNat_setWidth]; omega
  rw [seedSymbol, if_neg h, andThen_eq_next_iff]
  constructor
  · rintro ⟨u, hu, ht⟩
    obtain ⟨-, rfl⟩ := State.writeNode_eq_next_iff.1 hu
    obtain ⟨new, pl, hnew, hpl, rfl⟩ := insertLeaf_eq_next_iff.1 ht
    rw [State.node?_set_self] at hnew
    cases hnew
    exact ⟨pl, hpl, rfl⟩
  · rintro ⟨pl, hpl, rfl⟩
    refine ⟨_, State.writeNode_eq_next_iff.2 ⟨hi, rfl⟩, insertLeaf_eq_next_iff.2 ⟨leafOf sym s, pl, ?_, hpl, rfl⟩⟩
    exact State.node?_set_self s _ _

/-- One turn of the seeding loop changes `NODE` and `PL` only. -/
theorem seedSymbol_frame {sym : Symbol} {s t : State} (h : seedSymbol sym s = .next t) :
    t = { s with nodes := t.nodes, pl := t.pl } := by
  by_cases hs : s.freqAt sym = 0#32
  · rw [seedSymbol_absent hs] at h; cases h; rfl
  · obtain ⟨pl, -, rfl⟩ := (seedSymbol_present_iff hs).1 h; rfl

/-- The seeding loop changes `NODE` and `PL` only. -/
theorem seedLoop_frame {syms : List Symbol} {s t : State} (h : seedLoop syms s = .next t) :
    t = { s with nodes := t.nodes, pl := t.pl } := by
  induction syms generalizing s with
  | nil => cases h; rfl
  | cons sym rest ih =>
    obtain ⟨u, hu, ht⟩ := andThen_eq_next_iff.1 h
    have h1 := seedSymbol_frame hu
    have h2 := ih ht
    rw [h1] at h2
    exact h2

theorem seedLoop_append (a b : List Symbol) (s : State) : seedLoop (a ++ b) s = andThen (seedLoop a s) (seedLoop b) := by
  induction a generalizing s with
  | nil => rfl
  | cons sym rest ih =>
    simp only [List.cons_append, seedLoop]
    cases seedSymbol sym s with
    | next t => simp [ih]
    | fault r => rfl
    | refused r => rfl

theorem seedBody_eq_next_iff {s t : State} :
    seedBody s = .next t ↔ ∃ u, seedLoop allSymbols s = .next u ∧ t = finishSeeding u := by
  simp only [seedBody, andThen_eq_next_iff, Host.Outcome.next.injEq, eq_comm (b := t)]

/-! ## Merging -/

theorem allocNode_eq_next_iff {n : Node} {s : State} {p : NodeIdx × State} :
    allocNode n s = .next p ↔
      s.next.toNat < 511 ∧ p = (s.next, { s with nodes := Table.set s.nodes s.next.toNat n, next := s.next + 1#9 }) := by
  simp only [allocNode, andThen_eq_next_iff, State.writeNode_eq_next_iff, Host.Outcome.next.injEq]
  constructor
  · rintro ⟨u, ⟨h, rfl⟩, rfl⟩; exact ⟨h, rfl⟩
  · rintro ⟨h, rfl⟩; exact ⟨_, ⟨h, rfl⟩, rfl⟩

/-- The state of a merge before the merged node is inserted (R161): the two front nodes popped, the new one made. -/
def mergedState (s : State) (l r : NodeIdx) (nl nr : Node) (rest : List NodeIdx) : State :=
  { s with pl := rest, nodes := Table.set s.nodes s.next.toNat (mergedNode l r nl nr), next := s.next + 1#9 }

/-- Everything a merge step can do (R161). -/
theorem mergeStep_eq_next_iff {s t : State} :
    mergeStep s = .next t ↔
      ∃ l r rest nl nr pl, s.pl = l :: r :: rest ∧ s.node? l = some nl ∧ s.node? r = some nr ∧ s.next.toNat < 511 ∧
        insertAt mergedStops (mergedState s l r nl nr rest) s.next (mergedNode l r nl nr) rest = .next pl ∧
        t = completeIfSingle { mergedState s l r nl nr rest with pl := pl } := by
  simp only [mergeStep, andThen_eq_next_iff, State.readNode_eq_next_iff, Host.Outcome.next.injEq]
  constructor
  · rintro ⟨⟨l, u⟩, hl, ⟨r, v⟩, hr, nl, hnl, nr, hnr, ⟨m, w⟩, hm, x, hx, rfl⟩
    obtain ⟨rest1, hpl1, rfl⟩ := popFront_eq_next_iff.1 hl
    obtain ⟨rest, hpl2, rfl⟩ := popFront_eq_next_iff.1 hr
    obtain ⟨hlt, hmw⟩ := allocNode_eq_next_iff.1 hm
    cases hmw
    obtain ⟨new, pl, hnew, hins, rfl⟩ := insertMerged_eq_next_iff.1 hx
    simp only at hpl1 hpl2
    subst hpl2
    have hn : new = mergedNode l r nl nr := by
      simp only [State.node?, Table.get?_set_self, Option.some.injEq] at hnew
      exact hnew.symm
    subst hn
    exact ⟨l, r, rest, nl, nr, pl, hpl1, hnl, hnr, hlt, hins, rfl⟩
  · rintro ⟨l, r, rest, nl, nr, pl, hpl, hnl, hnr, hlt, hins, rfl⟩
    refine ⟨(l, { s with pl := r :: rest }), popFront_eq_next_iff.2 ⟨_, hpl, rfl⟩, (r, { s with pl := rest }),
      popFront_eq_next_iff.2 ⟨rest, rfl, rfl⟩, nl, hnl, nr, hnr, _, allocNode_eq_next_iff.2 ⟨hlt, rfl⟩, _,
      insertMerged_eq_next_iff.2 ⟨mergedNode l r nl nr, pl, ?_, hins, rfl⟩, rfl⟩
    simp [State.node?]

/-- What a merge step leaves alone. -/
theorem mergeStep_frame {s t : State} (h : mergeStep s = .next t) :
    t = { s with nodes := t.nodes, next := t.next, pl := t.pl, phase := t.phase, root := t.root, rootv := t.rootv, cur := t.cur } := by
  obtain ⟨l, r, rest, nl, nr, pl, -, -, -, -, -, rfl⟩ := mergeStep_eq_next_iff.1 h
  simp only [completeIfSingle, treeComplete, mergedState]
  split
  · split <;> rfl
  · rfl

/-- A merge step shortens `PL` by exactly one (R161). -/
theorem mergeStep_length {s t : State} (h : mergeStep s = .next t) : t.pl.length + 1 = s.pl.length := by
  obtain ⟨l, r, rest, nl, nr, pl, hpl, -, -, -, hins, rfl⟩ := mergeStep_eq_next_iff.1 h
  have := (insertAt_perm hins).length_eq
  simp only [completeIfSingle_pl, hpl, List.length_cons] at *
  omega

end Sys2Proof.Machine
end

