-- ==== Sys2Proof/Laws/Streams.lean ====
section
/-! SUPPORT. What the operations of the packer, the unpacker and the code generator can do, said once each. -/

namespace Sys2Proof.Machine

/-! ## The packer -/

/-- `append_bit` with room left (R211). -/
theorem appendBit_room {s : State} (c : Bool) (h : s.nbits ≠ 7#3) :
    appendBit s c = { s with acc := setBit s.acc (7 - s.nbits.toNat) c, nbits := s.nbits + 1#3 } := by
  simp [appendBit, h]

/-- `append_bit` of the eighth bit emits the byte (R211). -/
theorem appendBit_full {s : State} (c : Bool) (h : s.nbits = 7#3) :
    appendBit s c = { s with acc := 0#8, nbits := 0#3, out := s.out ++ [setBit s.acc 0 c] } := by
  simp [appendBit, h, emitAcc, State.emit]

/-- `append_bit` changes `ACC`, `NBITS` and `OUT` only. -/
theorem appendBit_frame (s : State) (c : Bool) :
    appendBit s c = { s with acc := (appendBit s c).acc, nbits := (appendBit s c).nbits, out := (appendBit s c).out } := by
  by_cases h : s.nbits = 7#3
  · rw [appendBit_full c h]
  · rw [appendBit_room c h]

@[simp] theorem appendBits_nil (s : State) : appendBits [] s = s := rfl

@[simp] theorem appendBits_cons (c : Bool) (bits : List Bool) (s : State) :
    appendBits (c :: bits) s = appendBits bits (appendBit s c) := rfl

/-- Appending a code changes `ACC`, `NBITS` and `OUT` only. -/
theorem appendBits_frame (bits : List Bool) (s : State) :
    appendBits bits s =
      { s with acc := (appendBits bits s).acc, nbits := (appendBits bits s).nbits, out := (appendBits bits s).out } := by
  induction bits generalizing s with
  | nil => rfl
  | cons c rest ih =>
    rw [appendBits_cons, ih (appendBit s c)]
    rw [appendBit_frame s c]

@[simp] theorem bitsMsbFirst_length (b : Byte) : (bitsMsbFirst b).length = 8 := rfl

@[simp] theorem countBytes_length (f : Count) : (countBytes f).length = 4 := rfl

/-! ## The unpacker -/

/-- A move to a child: an internal node becomes the pointer, a leaf is emitted and counted (R226). -/
theorem moveTo_eq_next_iff {child : NodeIdx} {s t : State} :
    moveTo child s = .next t ↔
      (∃ sym w, s.node? child = some (.leaf sym w) ∧ t = { s with out := s.out ++ [sym], decoded := s.decoded + 1#40, cur := s.root }) ∨
      (∃ w l r, s.node? child = some (.internal w l r) ∧ t = { s with cur := child }) := by
  simp only [moveTo, andThen_eq_next_iff, State.readNode_eq_next_iff]
  constructor
  · rintro ⟨n, hn, h⟩
    cases n with
    | leaf sym w => cases h; exact .inl ⟨sym, w, hn, rfl⟩
    | internal w l r => cases h; exact .inr ⟨w, l, r, hn, rfl⟩
  · rintro (⟨sym, w, hn, rfl⟩ | ⟨w, l, r, hn, rfl⟩)
    · exact ⟨_, hn, rfl⟩
    · exact ⟨_, hn, rfl⟩

theorem moveTo_frame {child : NodeIdx} {s t : State} (h : moveTo child s = .next t) :
    t = { s with out := t.out, decoded := t.decoded, cur := t.cur } := by
  rcases moveTo_eq_next_iff.1 h with ⟨sym, w, -, rfl⟩ | ⟨w, l, r, -, rfl⟩ <;> rfl

/-- When every symbol is decoded, no bit is examined (R227). -/
theorem takeBits_done {bits : List Bool} {s : State} (h : s.decoded = s.total) : takeBits bits s = .next s := by
  cases bits <;> simp [takeBits, h]

/-- A bit taken at an internal node. -/
theorem takeBits_internal {c : Bool} {rest : List Bool} {s : State} {w : Weight} {l r : NodeIdx} (h : s.decoded ≠ s.total)
    (hn : s.node? s.cur = some (.internal w l r)) :
    takeBits (c :: rest) s = andThen (moveTo (if c then r else l) s) (takeBits rest) := by
  simp [takeBits, h, State.readNode_of_node? hn]

/-- A bit taken at a leaf (R228). -/
theorem takeBits_leaf {c : Bool} {rest : List Bool} {s : State} {sym : Symbol} {w : Weight} (h : s.decoded ≠ s.total)
    (hn : s.node? s.cur = some (.leaf sym w)) : takeBits (c :: rest) s = .next { s with err := .corrupt } := by
  simp [takeBits, h, State.readNode_of_node? hn]

/-- The loop of `GET` changes `OUT`, `DECODED`, `CUR` and, on a fault, `ERR` only. -/
theorem takeBits_frame {bits : List Bool} {s t : State} (h : takeBits bits s = .next t) :
    t = { s with out := t.out, decoded := t.decoded, cur := t.cur, err := t.err } := by
  induction bits generalizing s with
  | nil => cases h; rfl
  | cons c rest ih =>
    by_cases hd : s.decoded = s.total
    · rw [takeBits_done hd] at h; cases h; rfl
    · simp only [takeBits, if_neg hd, andThen_eq_next_iff, State.readNode_eq_next_iff] at h
      obtain ⟨n, hn, h⟩ := h
      cases n with
      | leaf sym w => cases h; rfl
      | internal w l r =>
        obtain ⟨u, hu, ht⟩ := andThen_eq_next_iff.1 h
        have h1 := moveTo_frame hu
        have h2 := ih ht
        rw [h1] at h2
        exact h2

theorem repeatRoot_eq_next_iff {s t : State} :
    repeatRoot s = .next t ↔ ∃ sym w, s.node? s.root = some (.leaf sym w) ∧
      t = { s with out := s.out ++ List.replicate (s.total.toNat - s.decoded.toNat) sym, decoded := s.total } := by
  simp only [repeatRoot, andThen_eq_next_iff, State.readNode_eq_next_iff]
  constructor
  · rintro ⟨n, hn, h⟩
    cases n with
    | leaf sym w => cases h; exact ⟨sym, w, hn, rfl⟩
    | internal w l r => cases h
  · rintro ⟨sym, w, hn, rfl⟩; exact ⟨_, hn, rfl⟩

/-! ## The tree walk -/

theorem walk_leaf {s : State} {depth : Nat} {i : NodeIdx} {p : List Bool} {codes : Table Code} {sym : Symbol} {w : Weight}
    (h : s.node? i = some (.leaf sym w)) : walk s (depth + 1) i p codes = .next (writeCode codes sym p) := by
  simp [walk, State.readNode_of_node? h]

theorem walk_internal {s : State} {depth : Nat} {i : NodeIdx} {p : List Bool} {codes : Table Code} {w : Weight} {l r : NodeIdx}
    (h : s.node? i = some (.internal w l r)) :
    walk s (depth + 1) i p codes =
      andThen (walk s depth l (p ++ [false]) codes) fun codes' => walk s depth r (p ++ [true]) codes' := by
  simp [walk, State.readNode_of_node? h]

/-- Everything a walk can do at a node. -/
theorem walk_eq_next_iff {s : State} {depth : Nat} {i : NodeIdx} {p : List Bool} {codes out : Table Code} :
    walk s (depth + 1) i p codes = .next out ↔
      (∃ sym w, s.node? i = some (.leaf sym w) ∧ out = writeCode codes sym p) ∨
      (∃ w l r mid, s.node? i = some (.internal w l r) ∧ walk s depth l (p ++ [false]) codes = .next mid ∧
        walk s depth r (p ++ [true]) mid = .next out) := by
  constructor
  · intro h
    rw [walk, andThen_eq_next_iff] at h
    obtain ⟨n, hn, h⟩ := h
    rw [State.readNode_eq_next_iff] at hn
    cases n with
    | leaf sym w => cases h; exact .inl ⟨sym, w, hn, rfl⟩
    | internal w l r =>
      obtain ⟨mid, h1, h2⟩ := andThen_eq_next_iff.1 h
      exact .inr ⟨w, l, r, mid, hn, h1, h2⟩
  · rintro (⟨sym, w, hn, rfl⟩ | ⟨w, l, r, mid, hn, h1, h2⟩)
    · exact walk_leaf hn
    · rw [walk_internal hn, h1]; exact h2

/-- A walk keeps the canonical form of the Code Table. -/
theorem walk_canonical {s : State} {depth : Nat} {i : NodeIdx} {p : List Bool} {codes out : Table Code}
    (hc : Table.Canonical codes Config.nsym fun _ => true) (h : walk s depth i p codes = .next out) :
    Table.Canonical out Config.nsym fun _ => true := by
  induction depth generalizing i p codes out with
  | zero => cases h
  | succ d ih =>
    rcases walk_eq_next_iff.1 h with ⟨sym, w, -, rfl⟩ | ⟨w, l, r, mid, -, h1, h2⟩
    · exact Memory.writeCode_canonical hc sym p
    · exact ih (ih hc h1) h2

/-! ## The tree view -/

@[simp] theorem descend_nil (s : State) (i : NodeIdx) : descend s i [] = some i := rfl

theorem descend_internal {s : State} {i : NodeIdx} {w : Weight} {l r : NodeIdx} (h : s.node? i = some (.internal w l r)) (c : Bool)
    (p : List Bool) : descend s i (c :: p) = descend s (if c then r else l) p := by
  simp [descend, h]

theorem descend_append (s : State) (i : NodeIdx) (p q : List Bool) :
    descend s i (p ++ q) = (descend s i p).bind fun j => descend s j q := by
  induction p generalizing i with
  | nil => rfl
  | cons c p ih =>
    simp only [List.cons_append, descend]
    split
    · exact ih _
    · rfl

/-- A leaf has no way down (R228). -/
theorem descend_leaf {s : State} {i : NodeIdx} {sym : Symbol} {w : Weight} (h : s.node? i = some (.leaf sym w)) (c : Bool)
    (p : List Bool) : descend s i (c :: p) = none := by
  simp [descend, h]

end Sys2Proof.Machine
end

