-- ==== Sys2Proof/Laws/Commands.lean ====
section
/-! SUPPORT. Everything each command can do when it answers a next state: it is ignored by a faulted block, it takes a fault, or it has
its effect. Proofs about `exec` and `step` cite these instead of unfolding a meaning. -/

namespace Sys2Proof.Machine

variable {s t : State}

theorem execIoerr_eq_next_iff :
    execIoerr s = .next t ↔ (s.err = .noFault ∧ t = { s with err := .io }) ∨ (s.err ≠ .noFault ∧ t = s) := by
  simp only [execIoerr, unlessFaulted_eq_next_iff, raise_eq, Host.Outcome.next.injEq, eq_comm (b := t)]

theorem execIllFormed_eq_next_iff :
    execIllFormed s = .next t ↔ (s.err = .noFault ∧ t = { s with err := .illegal }) ∨ (s.err ≠ .noFault ∧ t = s) := by
  simp only [execIllFormed, unlessFaulted_eq_next_iff, raise_eq, Host.Outcome.next.injEq, eq_comm (b := t)]

theorem execRec_eq_next_iff {sym : Symbol} :
    execRec sym s = .next t ↔
      (s.err = .noFault ∧
        (((s.phase = .freq ∧ s.hst = .idle) ∧
            ((s.freqAt sym ≠ Config.freqMax ∧ t = countSymbol sym s) ∨
              (¬s.freqAt sym ≠ Config.freqMax ∧ t = { s with err := .overflow }))) ∨
          (¬(s.phase = .freq ∧ s.hst = .idle) ∧ t = { s with err := .seq }))) ∨
      (s.err ≠ .noFault ∧ t = s) := by
  simp only [execRec, unlessFaulted_eq_next_iff, require_eq_next_iff, Host.Outcome.next.injEq, eq_comm (b := t)]

theorem execSeed_eq_next_iff :
    execSeed s = .next t ↔
      (s.err = .noFault ∧
        ((s.phase = .freq ∧
            (((s.hst = .idle ∨ s.hst = .done) ∧ seedBody s = .next t) ∨
              (¬(s.hst = .idle ∨ s.hst = .done) ∧ t = { s with err := .seq }))) ∨
          (¬s.phase = .freq ∧ t = { s with err := .seq }))) ∨
      (s.err ≠ .noFault ∧ t = s) := by
  simp only [execSeed, unlessFaulted_eq_next_iff, require_eq_next_iff]

theorem execMerge_eq_next_iff :
    execMerge s = .next t ↔
      (s.err = .noFault ∧
        ((s.phase = .seeded ∧ mergeStep s = .next t) ∨ (¬s.phase = .seeded ∧ t = { s with err := .seq }))) ∨
      (s.err ≠ .noFault ∧ t = s) := by
  simp only [execMerge, unlessFaulted_eq_next_iff, require_eq_next_iff]

theorem execBuild_eq_next_iff :
    execBuild s = .next t ↔
      (s.err = .noFault ∧
        ((s.phase = .freq ∧
            (((s.hst = .idle ∨ s.hst = .done) ∧ ∃ u, seedBody s = .next u ∧ mergeAll u = .next t) ∨
              (¬(s.hst = .idle ∨ s.hst = .done) ∧ t = { s with err := .seq }))) ∨
          (s.phase ≠ .freq ∧
            ((s.phase = .seeded ∧ mergeAll s = .next t) ∨ (¬s.phase = .seeded ∧ t = { s with err := .seq }))))) ∨
      (s.err ≠ .noFault ∧ t = s) := by
  rw [execBuild, unlessFaulted_eq_next_iff]
  by_cases h : s.phase = .freq
  · simp [h, require_eq_next_iff, andThen_eq_next_iff]
  · simp [h, require_eq_next_iff]

theorem execGen_eq_next_iff :
    execGen s = .next t ↔
      (s.err = .noFault ∧
        ((s.phase = .tree ∧
            ((2#9 ≤ s.unique ∧ ∃ codes, walk s 256 s.root [] s.codes = .next codes ∧ t = { s with codes := codes, phase := .coded }) ∨
              (¬2#9 ≤ s.unique ∧ t = { s with phase := .coded }))) ∨
          (¬s.phase = .tree ∧ t = { s with err := .seq }))) ∨
      (s.err ≠ .noFault ∧ t = s) := by
  rw [execGen, unlessFaulted_eq_next_iff, require_eq_next_iff]
  by_cases h : 2#9 ≤ s.unique
  · simp only [h, if_true, andThen_eq_next_iff, Host.Outcome.next.injEq, eq_comm (b := t), true_and, not_true_eq_false, false_and, or_false]
  · simp only [h, if_false, Host.Outcome.next.injEq, eq_comm (b := t), false_and, not_false_eq_true, true_and, false_or]

theorem execHout_eq_next_iff :
    execHout s = .next t ↔
      (s.err = .noFault ∧
        (((s.phase = .tree ∨ s.phase = .coded) ∧ t = s.emit (headerBytes s)) ∨
          (¬(s.phase = .tree ∨ s.phase = .coded) ∧ t = { s with err := .seq }))) ∨
      (s.err ≠ .noFault ∧ t = s) := by
  simp only [execHout, unlessFaulted_eq_next_iff, require_eq_next_iff, Host.Outcome.next.injEq, eq_comm (b := t)]

/-- What one header byte does at each position of the parser (R194), in phase FREQ with `ERR = 0`. -/
theorem execHin_idle {b : Byte} (he : s.err = .noFault) (hp : s.phase = .freq) (hh : s.hst = .idle) :
    execHin b s = if s.total = 0#40 then .next { s with hcnt := declaredCount b, hst := .sym } else .next { s with err := .seq } := by
  simp [execHin, he, hp, hh, require]

theorem execHin_sym {b : Byte} (he : s.err = .noFault) (hp : s.phase = .freq) (hh : s.hst = .sym) :
    execHin b s = .next { s with hsym := b, hfrq := 0#32, hst := .f3 } := by
  simp [execHin, he, hp, hh]

theorem execHin_f3 {b : Byte} (he : s.err = .noFault) (hp : s.phase = .freq) (hh : s.hst = .f3) :
    execHin b s = .next { s with hfrq := withByte3 s.hfrq b, hst := .f2 } := by
  simp [execHin, he, hp, hh]

theorem execHin_f2 {b : Byte} (he : s.err = .noFault) (hp : s.phase = .freq) (hh : s.hst = .f2) :
    execHin b s = .next { s with hfrq := withByte2 s.hfrq b, hst := .f1 } := by
  simp [execHin, he, hp, hh]

theorem execHin_f1 {b : Byte} (he : s.err = .noFault) (hp : s.phase = .freq) (hh : s.hst = .f1) :
    execHin b s = .next { s with hfrq := withByte1 s.hfrq b, hst := .f0 } := by
  simp [execHin, he, hp, hh]

theorem execHin_f0 {b : Byte} (he : s.err = .noFault) (hp : s.phase = .freq) (hh : s.hst = .f0) :
    execHin b s =
      if withByte0 s.hfrq b ≠ 0#32 ∧ s.freqAt s.hsym = 0#32 then .next (commitEntry (withByte0 s.hfrq b) s)
      else .next { s with err := .corrupt } := by
  by_cases h1 : withByte0 s.hfrq b = 0#32 <;> by_cases h2 : s.freqAt s.hsym = 0#32 <;> simp [execHin, he, hp, hh, h1, h2]

theorem execHin_seq {b : Byte} (he : s.err = .noFault) (h : ¬(s.phase = .freq ∧ s.hst ≠ .done)) :
    execHin b s = .next { s with err := .seq } := by
  rw [execHin, unlessFaulted_live he, require_neg h]

theorem execHin_faulted {b : Byte} (he : s.err ≠ .noFault) : execHin b s = .next s := by
  rw [execHin, unlessFaulted_faulted he]

theorem execPut_eq_next_iff {sym : Symbol} :
    execPut sym s = .next t ↔
      (s.err = .noFault ∧
        ((s.phase = .coded ∧
            ((s.freqAt sym ≠ 0#32 ∧
                ((2#9 ≤ s.unique ∧ ∃ c, s.code? sym = some c ∧ t = appendBits c.bits s) ∨ (¬2#9 ≤ s.unique ∧ t = s))) ∨
              (¬s.freqAt sym ≠ 0#32 ∧ t = { s with err := .contract }))) ∨
          (¬s.phase = .coded ∧ t = { s with err := .seq }))) ∨
      (s.err ≠ .noFault ∧ t = s) := by
  rw [execPut, unlessFaulted_eq_next_iff, require_eq_next_iff, require_eq_next_iff]
  by_cases h : 2#9 ≤ s.unique
  · simp only [h, if_true, andThen_eq_next_iff, State.readCode_eq_next_iff, Host.Outcome.next.injEq, eq_comm (b := t), true_and,
      not_true_eq_false, false_and, or_false]
  · simp only [h, if_false, Host.Outcome.next.injEq, eq_comm (b := t), false_and, not_false_eq_true, true_and, false_or]

theorem execFlush_eq_next_iff :
    execFlush s = .next t ↔
      (s.err = .noFault ∧
        ((s.phase = .coded ∧ ((s.nbits = 0#3 ∧ t = s) ∨ (s.nbits ≠ 0#3 ∧ t = emitAcc s))) ∨
          (¬s.phase = .coded ∧ t = { s with err := .seq }))) ∨
      (s.err ≠ .noFault ∧ t = s) := by
  rw [execFlush, unlessFaulted_eq_next_iff, require_eq_next_iff]
  by_cases h : s.nbits = 0#3 <;> simp [h, eq_comm (b := t)]

theorem execGet_eq_next_iff {b : Byte} :
    execGet b s = .next t ↔
      (s.err = .noFault ∧
        (((s.phase = .tree ∨ s.phase = .coded) ∧ takeBits (bitsMsbFirst b) s = .next t) ∨
          (¬(s.phase = .tree ∨ s.phase = .coded) ∧ t = { s with err := .seq }))) ∨
      (s.err ≠ .noFault ∧ t = s) := by
  simp only [execGet, unlessFaulted_eq_next_iff, require_eq_next_iff]

theorem execDrep_eq_next_iff :
    execDrep s = .next t ↔
      (s.err = .noFault ∧
        (((s.phase = .tree ∨ s.phase = .coded) ∧
            ((s.unique ≤ 1#9 ∧ ((s.unique = 1#9 ∧ repeatRoot s = .next t) ∨ (s.unique ≠ 1#9 ∧ t = s))) ∨
              (¬s.unique ≤ 1#9 ∧ t = { s with err := .seq }))) ∨
          (¬(s.phase = .tree ∨ s.phase = .coded) ∧ t = { s with err := .seq }))) ∨
      (s.err ≠ .noFault ∧ t = s) := by
  rw [execDrep, unlessFaulted_eq_next_iff, require_eq_next_iff, require_eq_next_iff]
  by_cases h : s.unique = 1#9
  · simp [h]
  · simp [h, eq_comm (b := t)]

end Sys2Proof.Machine
end

