-- ==== Sys2Proof/Laws/PerInstr.lean ====
section
/-! SUPPORT. The family `EncodesWellFormed`: the word the encoder gives a command has the fields of R100 and passes the checks
of R104. One lemma per constructor of `Instr`. -/

namespace Sys2Proof.Laws.EncodesWellFormed

/-- The encoder's word has the command's opcode, clear reserved bits and the command's operand, and is well-formed. -/
def Statement (i : Instr) : Prop :=
  fieldsOf (encode i) = { op := opcodeOf i, rsv := 0#4, imm8 := operandOf i } ∧ (fieldsOf (encode i)).wellFormed = true

/-- The fields of a word put together from fields are those fields (R100). -/
theorem fieldsOf_append (op rsv : BitVec 4) (imm : BitVec 8) :
    fieldsOf (op ++ rsv ++ imm) = { op := op, rsv := rsv, imm8 := imm } := by
  have e1 : (op ++ rsv ++ imm).extractLsb' 12 4 = op := by
    rw [BitVec.extractLsb'_append_eq_of_le (by omega), BitVec.extractLsb'_append_eq_of_le (by omega)]; simp
  have e2 : (op ++ rsv ++ imm).extractLsb' 8 4 = rsv := by
    rw [BitVec.extractLsb'_append_eq_of_le (by omega), BitVec.extractLsb'_append_eq_of_add_le (by omega)]; simp
  have e3 : (op ++ rsv ++ imm).extractLsb' 0 8 = imm := by
    rw [BitVec.extractLsb'_append_eq_of_add_le (by omega)]; simp
  simp only [fieldsOf, e1, e2, e3]

theorem of_operand {i : Instr} (h : ({ op := opcodeOf i, rsv := 0#4, imm8 := operandOf i } : Fields).wellFormed = true) :
    Statement i := by
  unfold Statement encode
  rw [fieldsOf_append]
  exact ⟨rfl, h⟩

theorem nop : Statement .nop := of_operand (by decide)
theorem clr : Statement .clr := of_operand (by decide)
theorem recSym (sym : Symbol) : Statement (.recSym sym) := of_operand (by simp [Fields.wellFormed, Fields.opAssigned, Fields.rsvClear, Fields.operandAllowed, opcodeOf])
theorem hin (b : Byte) : Statement (.hin b) := of_operand (by simp [Fields.wellFormed, Fields.opAssigned, Fields.rsvClear, Fields.operandAllowed, opcodeOf])
theorem seed : Statement .seed := of_operand (by decide)
theorem merge : Statement .merge := of_operand (by decide)
theorem build : Statement .build := of_operand (by decide)
theorem gen : Statement .gen := of_operand (by decide)
theorem hout : Statement .hout := of_operand (by decide)
theorem put (sym : Symbol) : Statement (.put sym) := of_operand (by simp [Fields.wellFormed, Fields.opAssigned, Fields.rsvClear, Fields.operandAllowed, opcodeOf])
theorem flush : Statement .flush := of_operand (by decide)
theorem get (b : Byte) : Statement (.get b) := of_operand (by simp [Fields.wellFormed, Fields.opAssigned, Fields.rsvClear, Fields.operandAllowed, opcodeOf])
theorem drep : Statement .drep := of_operand (by decide)
theorem ioerr : Statement .ioerr := of_operand (by decide)

end Sys2Proof.Laws.EncodesWellFormed
end

