-- ==== Sys2Proof/Tests/Slice0.lean ====
section
/-! SUPPORT. The model's own tests: decoding of words written out from R100 and R102, ill-formed terms for each check, one or two
single-step tests per command with results from the spec's vectors (95_test_vectors.md), and for every statement with hypotheses a
witness that meets them. -/

namespace Sys2Proof.Tests

open Sys2Proof.Machine

/-! ## Helpers -/

/-- The next state of a result, if it is one. -/
def nextOf (r : Result State) : Option State :=
  match r with
  | .next t => some t
  | .fault _ => none
  | .refused _ => none

theorem eq_next_of_nextOf {r : Result State} {t : State} (h : nextOf r = some t) : r = .next t := by
  cases r <;> simp_all [nextOf]

/-- The table of "ABB" in phase FREQ: A once, B twice. -/
def tableAB : State := { State.reset with freq := [(0x41, 1#32), (0x42, 2#32)], total := 3#40, unique := 2#9 }

/-- After `SEED`. -/
def seededAB : State :=
  { tableAB with
    nodes := [(0x41, .leaf 0x41#8 1#40), (0x42, .leaf 0x42#8 2#40)]
    pl := [0x41#9, 0x42#9]
    phase := .seeded }

/-- After `MERGE`. -/
def treeAB : State :=
  { seededAB with
    nodes := [(0x41, .leaf 0x41#8 1#40), (0x42, .leaf 0x42#8 2#40), (256, .internal 3#40 0x41#9 0x42#9)]
    next := 257#9
    pl := [256#9]
    phase := .tree
    root := 256#9
    rootv := true
    cur := 256#9 }

/-- After `GEN`. -/
def codedAB : State := { treeAB with phase := .coded, codes := [(0x41, ⟨[false]⟩), (0x42, ⟨[true]⟩)] }

/-- The table of one symbol, Z five times. -/
def tableZ : State := { State.reset with freq := [(0x5A, 5#32)], total := 5#40, unique := 1#9 }

/-- Its tree: the root is the leaf. -/
def treeZ : State :=
  { tableZ with
    nodes := [(0x5A, .leaf 0x5A#8 5#40)]
    pl := [0x5A#9]
    phase := .tree
    root := 0x5A#9
    rootv := true
    cur := 0x5A#9 }

/-- The empty case after `BUILD`. -/
def treeEmpty : State := { State.reset with phase := .tree }

/-- A state of the header parser: entry A received up to its last byte, two entries declared. -/
def headerMid : State := { State.reset with hst := .f0, hcnt := 2#9, hsym := 0x41#8, hfrq := 0x100#32 }

/-! ## Checks on words -/

theorem test_opAssigned_refuses : (⟨0xE#4, 0#4, 0#8⟩ : Fields).opAssigned = false ∧ (⟨0xE#4, 0#4, 0#8⟩ : Fields).wellFormed = false := by
  decide
theorem test_rsvClear_refuses : (⟨0x2#4, 1#4, 0x41#8⟩ : Fields).rsvClear = false ∧ (⟨0x2#4, 1#4, 0x41#8⟩ : Fields).wellFormed = false := by
  decide
theorem test_operandAllowed_refuses :
    (⟨0x5#4, 0#4, 0x80#8⟩ : Fields).operandAllowed = false ∧ (⟨0x5#4, 0#4, 0x80#8⟩ : Fields).wellFormed = false := by decide

/-! ## Decoding (V1, V2): the words as R102 assigns them -/

theorem test_decode_nop : decode 0b0000000000000000#16 = .ok .nop := by decide
theorem test_decode_clr : decode 0b0001000000000000#16 = .ok .clr := by decide
theorem test_decode_rec : decode 0b0010000001000001#16 = .ok (.recSym 0x41#8) := by decide
theorem test_decode_hin : decode 0b0011000011111111#16 = .ok (.hin 0xFF#8) := by decide
theorem test_decode_seed : decode 0b0100000000000000#16 = .ok .seed := by decide
theorem test_decode_merge : decode 0b0101000000000000#16 = .ok .merge := by decide
theorem test_decode_build : decode 0b0110000000000000#16 = .ok .build := by decide
theorem test_decode_gen : decode 0b0111000000000000#16 = .ok .gen := by decide
theorem test_decode_hout : decode 0b1000000000000000#16 = .ok .hout := by decide
theorem test_decode_put : decode 0b1001000001011010#16 = .ok (.put 0x5A#8) := by decide
theorem test_decode_flush : decode 0b1010000000000000#16 = .ok .flush := by decide
theorem test_decode_get : decode 0b1011000000000001#16 = .ok (.get 0x01#8) := by decide
theorem test_decode_drep : decode 0b1100000000000000#16 = .ok .drep := by decide
theorem test_decode_ioerr : decode 0b1101000000000000#16 = .ok .ioerr := by decide
theorem test_decode_illFormed :
    [0xE000#16, 0xFFFF#16, 0x2141#16, 0xB8FF#16, 0x0001#16, 0x1001#16, 0xD0FF#16].map decode =
      [.error .reservedOpcode, .error .reservedOpcode, .error .reservedBits, .error .reservedBits, .error .operandNotZero,
        .error .operandNotZero, .error .operandNotZero] := by decide

/-- No two rows of the opcode map can be selected by one word: they differ on bits both masks keep (R104). -/
theorem test_rows_disjoint :
    opcodeRows.Pairwise fun a b => a.pattern &&& (a.mask &&& b.mask) ≠ b.pattern &&& (a.mask &&& b.mask) := by decide

theorem test_tableWord : decodeTableWord 16 0x9041 = some (.put 0x41#8) ∧ decodeTableWord 16 0xE000 = none := by decide

/-! ## One step each -/

/-- V70. -/
theorem test_nop : nextOf (step (State.reset.withFetchWord 16 0x0000)) = some State.reset := by decide
/-- V75, V73: also from a faulted state. -/
theorem test_clr : nextOf (step ({ codedAB with err := .seq, out := [1#8] }.withFetchWord 16 0x1000)) = some State.reset := by decide
/-- V71. -/
theorem test_ioerr : (nextOf (exec .ioerr tableAB)).map (·.err) = some .io := by decide
/-- V2: an ill-formed word from reset. -/
theorem test_illegal : (nextOf (step (State.reset.withFetchWord 16 0x5080))).map State.sr0 = some 0x60#40 := by decide
/-- V73: an ill-formed word does not even raise ILLEGAL in the faulted state. -/
theorem test_faulted_ignores :
    (nextOf (step ({ State.reset with err := .seq }.withFetchWord 16 0x1001))).map State.sr0 = some 0x50#40 := by decide
/-- V10: the first occurrence counts in `UNIQUE`. -/
theorem test_rec_first : (nextOf (exec (.recSym 0x00#8) tableAB)).map (fun t => (t.freq, t.unique, t.total)) =
    some ([(0x00, 1#32), (0x41, 1#32), (0x42, 2#32)], 3#9, 4#40) := by decide
/-- V12. -/
theorem test_rec_overflow :
    (nextOf (exec (.recSym 0x41#8) { State.reset with freq := [(0x41, 0xFFFFFFFF#32)], total := 0xFFFFFFFF#40, unique := 1#9 })).map
      (fun t => (t.sr0, t.sr2)) = some (0x10070#40, 0xFFFFFFFF#40) := by decide
/-- V45. -/
theorem test_hin_count : (nextOf (exec (.hin 0xFF#8) State.reset)).map (fun t => (t.hcnt, t.sr4)) = some (256#9, 0x0002000000#40) := by decide
/-- V43: the fifth byte of the entry 41 00 00 01 00. -/
theorem test_hin_commit : (nextOf (exec (.hin 0x00#8) headerMid)).map (fun t => (t.freq, t.unique, t.total, t.hst)) =
    some ([(0x41, 256#32)], 1#9, 256#40, .sym) := by decide
/-- V15 on a smaller table, C twice, B once: ascending (count, symbol). -/
theorem test_seed :
    (nextOf (exec .seed { State.reset with freq := [(0x42, 2#32), (0x43, 1#32)], total := 3#40, unique := 2#9 })).map
      (fun t => (t.pl, t.phase)) = some ([0x43#9, 0x42#9], .seeded) := by decide +kernel
/-- V19b: the empty case. -/
theorem test_seed_empty : (nextOf (exec .seed State.reset)).map State.sr0 = some 0x802#40 := by decide +kernel
/-- V23, merge 1, with two tied members: the merged node goes before both. -/
theorem test_merge_before_tied :
    (nextOf (exec .merge { seededAB with
      nodes := [(0x41, .leaf 0x41#8 1#40), (0x42, .leaf 0x42#8 1#40), (0x43, .leaf 0x43#8 2#40), (0x44, .leaf 0x44#8 2#40)]
      pl := [0x41#9, 0x42#9, 0x43#9, 0x44#9] })).map (fun t => (t.pl, t.node? 256#9, t.next)) =
      some ([256#9, 0x43#9, 0x44#9], some (.internal 2#40 0x41#9 0x42#9), 257#9) := by decide
theorem test_merge_last : nextOf (exec .merge seededAB) = some treeAB := by decide
/-- V26: `BUILD` in phase SEEDED, and from the open table. -/
theorem test_build_seeded : nextOf (exec .build seededAB) = some treeAB := by decide
theorem test_build : nextOf (exec .build tableAB) = some treeAB := by decide +kernel
/-- S6, V31: A = 0, B = 1. -/
theorem test_gen : nextOf (exec .gen treeAB) = some codedAB := by decide +kernel
/-- V32: no code in the single-symbol case. -/
theorem test_gen_single : (nextOf (exec .gen treeZ)).map (fun t => (t.codes, t.sr0)) = some ([], 0x1000B#40) := by decide
/-- V54: 00 5A 00 00 00 05. -/
theorem test_hout : (nextOf (exec .hout treeZ)).map (·.out) = some [0x00#8, 0x5A#8, 0#8, 0#8, 0#8, 5#8] := by decide +kernel
theorem test_hout_empty : nextOf (exec .hout treeEmpty) = some treeEmpty := by decide +kernel
/-- V50, first `PUT 'C'` (code 001): the byte 54 goes out after two bits, the third starts the next byte. -/
theorem test_put_crosses_byte :
    (nextOf (exec (.put 0x41#8) { codedAB with codes := [(0x41, ⟨[false, false, true]⟩)], acc := 0x54#8, nbits := 6#3 })).map
      (fun t => (t.acc, t.nbits, t.out)) = some (0x80#8, 1#3, [0x54#8]) := by decide
/-- V53. -/
theorem test_put_absent : (nextOf (exec (.put 0x43#8) codedAB)).map State.sr0 = some 0x2004B#40 := by decide
/-- V50, `FLUSH`. -/
theorem test_flush : (nextOf (exec .flush { codedAB with acc := 0x90#8, nbits := 7#3 })).map (fun t => (t.acc, t.nbits, t.out)) =
    some (0#8, 0#3, [0x90#8]) := by decide
theorem test_flush_nothing : nextOf (exec .flush codedAB) = some codedAB := by decide
/-- V62 with three symbols to decode: bits 0, 1, 0; the rest is not examined. -/
theorem test_get : (nextOf (exec (.get 0x5F#8) treeAB)).map (fun t => (t.out, t.decoded, t.cur)) =
    some ([0x41#8, 0x42#8, 0x41#8], 3#40, 256#9) := by decide
/-- V64. -/
theorem test_get_at_leaf : (nextOf (exec (.get 0x00#8) treeZ)).map (fun t => (t.err, t.decoded, t.cur)) = some (.corrupt, 0#40, 0x5A#9) := by
  decide
/-- V65. -/
theorem test_drep : (nextOf (exec .drep treeZ)).map (fun t => (t.out, t.sr3)) = some (List.replicate 5 0x5A#8, 5#40) := by decide
theorem test_drep_seq : (nextOf (exec .drep treeAB)).map (·.err) = some .seq := by decide

/-! ## Witness states of the invariants -/

theorem freqInv_tableAB : FreqInv tableAB where
  total_eq := by decide +kernel
  unique_eq := by decide +kernel
  header_idle := by decide
  header_count := by decide
  header_progress := by decide
  header_closed := by decide

/-- A state with the table of "ABB" and no header. -/
theorem freqInv_of_tableAB {s : State} (hf : s.freq = tableAB.freq) (ht : s.total = tableAB.total) (hu : s.unique = tableAB.unique)
    (hh : s.hst = .idle) (hc : s.hcnt = 0#9) : FreqInv s where
  total_eq := by simpa [countSum, State.freqAt, hf, ht] using freqInv_tableAB.total_eq
  unique_eq := by simpa [presentSymbols, State.freqAt, hf, hu] using freqInv_tableAB.unique_eq
  header_idle := fun _ => hc
  header_count := fun h => absurd hh h
  header_progress := fun h => absurd hh h
  header_closed := fun _ => .inl hh

theorem inv_tableAB : Inv tableAB where
  wf := by decide
  freqInv := freqInv_tableAB
  treeInv :=
    { open_empty := by decide
      leaf_entries := fun h => absurd rfl h
      internal_allocated := by decide +kernel
      internal_entries := by intro e he; cases he
      owned_once := by decide
      next_ge := by decide
      pl_sorted := by decide
      pl_total := by decide
      pl_leaves := fun h => absurd rfl h
      pl_count := by decide
      seeded_two := by decide
      complete_root := by decide
      complete_empty := by decide
      no_root := by decide }
  workInv :=
    { acc_low := by decide
      acc_idle := by decide
      decoded_le := by decide
      decoded_zero := by decide
      rootv_phase := by decide
      cur_inside := fun h => by cases h
      cur_internal := fun h => by cases h }
  codeInv :=
    { closed := by decide
      few := by decide
      present := fun h => by cases h
      is_path := fun sym c h => by cases h
      prefix_free := fun a b ca cb h => by cases h }

/-- An open table (phase FREQ) with nothing but its counts meets the invariants. -/
theorem inv_of_open {s : State} (hw : Memory.wf s) (hf : FreqInv s) (hp : s.phase = .freq) (hn : s.nodes = []) (hl : s.pl = [])
    (hx : s.next = 256#9) (hr : s.root = 0#9) (hv : s.rootv = false) (hu : s.cur = 0#9) (ha : s.acc = 0#8) (hb : s.nbits = 0#3)
    (hd : s.decoded = 0#40) (hc : s.codes = []) : Inv s where
  wf := hw
  freqInv := hf
  treeInv :=
    { open_empty := fun _ => ⟨hn, hl, hx⟩
      leaf_entries := fun h => absurd hp h
      internal_allocated := by
        intro i hi
        simp only [State.node?, hn, Table.get?_nil, hx, Option.isSome_none, Bool.false_eq_true, false_iff]
        exact BitVec.not_lt.mpr hi
      internal_entries := by rw [hn]; intro e he; cases he
      owned_once := by simp [childRefs, hn, hl]
      next_ge := by rw [hx]; decide
      pl_sorted := by rw [hl]; exact List.Pairwise.nil
      pl_total := fun h => absurd hp h
      pl_leaves := fun h => absurd hp h
      pl_count := fun h => absurd hp h
      seeded_two := fun h => by rw [hp] at h; cases h
      complete_root := fun h => by rw [hp] at h; simp at h
      complete_empty := fun h => by rw [hp] at h; simp at h
      no_root := fun _ => ⟨hr, hu⟩ }
  workInv :=
    { acc_low := by rw [AccLowClear, ha, hb]; decide
      acc_idle := fun _ => ⟨ha, hb⟩
      decoded_le := by rw [hd]; simp [BitVec.le_def]
      decoded_zero := fun _ => hd
      rootv_phase := fun h => by rw [hv] at h; cases h
      cur_inside := fun h => by rw [hv] at h; cases h
      cur_internal := fun h => by rw [hv] at h; cases h }
  codeInv :=
    { closed := fun _ => hc
      few := fun _ => hc
      present := fun h => by rw [hp] at h; cases h
      is_path := fun sym c h => by simp [State.code?, hc] at h
      prefix_free := fun a b ca cb h => by simp [State.code?, hc] at h }

theorem freqInv_tableZ : FreqInv tableZ where
  total_eq := by decide +kernel
  unique_eq := by decide +kernel
  header_idle := by decide
  header_count := by decide
  header_progress := by decide
  header_closed := by decide

theorem inv_tableZ : Inv tableZ :=
  inv_of_open (by decide) freqInv_tableZ rfl rfl rfl rfl rfl rfl rfl rfl rfl rfl rfl

/-- An open, empty table; the host is about to reset the block. -/
def emptyTable : State := { State.reset with host := [.reset] }

theorem inv_emptyTable : Inv emptyTable :=
  inv_of_open (by decide) ⟨by decide +kernel, by decide +kernel, by decide, by decide, by decide, by decide⟩
    rfl rfl rfl rfl rfl rfl rfl rfl rfl rfl rfl

theorem inv_seededAB : Inv seededAB where
  wf := by decide
  freqInv := freqInv_of_tableAB rfl rfl rfl rfl rfl
  treeInv :=
    { open_empty := by decide
      leaf_entries := fun _ => by decide +kernel
      internal_allocated := by decide +kernel
      internal_entries := by
        intro e he hge
        simp only [seededAB, List.mem_cons, List.not_mem_nil, or_false] at he
        rcases he with rfl | rfl <;> simp at hge
      owned_once := by decide
      next_ge := by decide
      pl_sorted := by decide
      pl_total := by decide
      pl_leaves := fun _ => by decide +kernel
      pl_count := by decide
      seeded_two := by decide
      complete_root := by decide
      complete_empty := by decide
      no_root := by decide }
  workInv :=
    { acc_low := by decide
      acc_idle := by decide
      decoded_le := by decide
      decoded_zero := by decide
      rootv_phase := by decide
      cur_inside := fun h => by cases h
      cur_internal := fun h => by cases h }
  codeInv :=
    { closed := by decide
      few := by decide
      present := fun h => by cases h
      is_path := fun sym c h => by cases h
      prefix_free := fun a b ca cb h => by cases h }

theorem treeInv_of_treeAB {s : State} (hn : s.nodes = treeAB.nodes) (hf : s.freq = treeAB.freq) (hp : s.pl = [256#9]) (hx : s.next = 257#9)
    (hr : s.root = 256#9) (hv : s.rootv = true) (ht : s.total = 3#40) (hu : s.unique = 2#9) (hph : s.phase = .tree ∨ s.phase = .coded) :
    TreeInv s := by
  have hnode : ∀ i, s.node? i = treeAB.node? i := fun i => State.node?_congr hn i
  have hfreq : ∀ x, s.freqAt x = treeAB.freqAt x := fun x => State.freqAt_congr hf x
  have hw : weightAt s = weightAt treeAB := by funext i; simp [weightAt, hnode]
  have htree : ∀ d i, treeWithin s d i = treeWithin treeAB d i := by
    intro d
    induction d with
    | zero => intro i; rfl
    | succ d ih => intro i; simp only [treeWithin, hnode, ih]
  have hl : leavesAt s = leavesAt treeAB := by funext i; simp [leavesAt, treeAt, htree]
  have hps : presentSymbols s = presentSymbols treeAB := by simp [presentSymbols, hfreq]
  exact
    { open_empty := fun h => by rcases hph with h' | h' <;> rw [h] at h' <;> cases h'
      leaf_entries := fun _ sym => by
        rw [hnode, hfreq]
        have : ∀ sym : Symbol, treeAB.node? (leafIdx sym) = if treeAB.freqAt sym = 0#32 then none else some (leafOf sym treeAB) := by
          decide +kernel
        rw [this sym]; simp [leafOf, hfreq]
      internal_allocated := by
        have : ∀ i : NodeIdx, Config.firstInternal ≤ i → ((treeAB.node? i).isSome = true ↔ i < 257#9) := by decide +kernel
        intro i hi; rw [hnode, hx]; exact this i hi
      internal_entries := by
        intro e he hge
        rw [hn] at he
        simp only [hnode, hw]
        simp only [treeAB, List.mem_cons, List.not_mem_nil, or_false] at he
        rcases he with rfl | rfl | rfl <;> first | (simp at hge; done) | exact ⟨3#40, 0x41#9, 0x42#9, rfl, by decide, by decide, by decide, by decide, by decide, by decide⟩
      owned_once := by simp only [childRefs, hn, hp]; decide
      next_ge := by rw [hx]; decide
      pl_sorted := by rw [hp]; simp
      pl_total := fun _ => by rw [hp, ht, hw]; decide
      pl_leaves := fun _ => by rw [hp, hl, hps]; decide +kernel
      pl_count := fun _ => by rw [hp, hx, hu]; decide
      seeded_two := fun h => by rcases hph with h' | h' <;> rw [h] at h' <;> cases h'
      complete_root := fun _ _ => ⟨by rw [hp, hr], hv⟩
      complete_empty := fun _ h => by rw [hu] at h; cases h
      no_root := fun h => by rw [hv] at h; cases h }

theorem inv_treeAB : Inv treeAB where
  wf := by decide
  freqInv := freqInv_of_tableAB rfl rfl rfl rfl rfl
  treeInv := treeInv_of_treeAB rfl rfl rfl rfl rfl rfl rfl rfl (.inl rfl)
  workInv :=
    { acc_low := by decide
      acc_idle := by decide
      decoded_le := by decide
      decoded_zero := by decide
      rootv_phase := by decide
      cur_inside := fun _ => ⟨by decide, [], rfl⟩
      cur_internal := fun _ _ => ⟨3#40, 0x41#9, 0x42#9, rfl⟩ }
  codeInv :=
    { closed := by decide
      few := by decide
      present := fun h => by cases h
      is_path := fun sym c h => by cases h
      prefix_free := fun a b ca cb h => by cases h }

theorem inv_treeZ : Inv treeZ where
  wf := by decide
  freqInv :=
    { total_eq := freqInv_tableZ.total_eq
      unique_eq := freqInv_tableZ.unique_eq
      header_idle := by decide
      header_count := by decide
      header_progress := by decide
      header_closed := by decide }
  treeInv :=
    { open_empty := by decide
      leaf_entries := fun _ => by decide +kernel
      internal_allocated := by decide +kernel
      internal_entries := by
        intro e he hge
        simp only [treeZ, List.mem_cons, List.not_mem_nil, or_false] at he
        rw [he] at hge
        simp at hge
      owned_once := by decide
      next_ge := by decide
      pl_sorted := by decide
      pl_total := by decide
      pl_leaves := fun _ => by decide +kernel
      pl_count := by decide
      seeded_two := by decide
      complete_root := by decide
      complete_empty := by decide
      no_root := by decide }
  workInv :=
    { acc_low := by decide
      acc_idle := by decide
      decoded_le := by decide
      decoded_zero := by decide
      rootv_phase := by decide
      cur_inside := fun _ => ⟨by decide, [], rfl⟩
      cur_internal := fun _ h => absurd h (by decide) }
  codeInv :=
    { closed := by decide
      few := by decide
      present := fun h => by cases h
      is_path := fun sym c h => by cases h
      prefix_free := fun a b ca cb h => by cases h }

theorem code_of_codedAB {sym : Symbol} {c : Code} (h : codedAB.code? sym = some c) :
    (sym = 0x41#8 ∧ c = ⟨[false]⟩) ∨ (sym = 0x42#8 ∧ c = ⟨[true]⟩) := by
  have hm := Table.mem_of_get? h
  simp only [codedAB, List.mem_cons, Prod.mk.injEq, List.not_mem_nil, or_false] at hm
  rcases hm with ⟨h1, h2⟩ | ⟨h1, h2⟩
  · exact .inl ⟨BitVec.eq_of_toNat_eq h1, h2⟩
  · exact .inr ⟨BitVec.eq_of_toNat_eq h1, h2⟩

theorem inv_codedAB : Inv codedAB where
  wf := by decide
  freqInv := freqInv_of_tableAB rfl rfl rfl rfl rfl
  treeInv := treeInv_of_treeAB rfl rfl rfl rfl rfl rfl rfl rfl (.inr rfl)
  workInv :=
    { acc_low := by decide
      acc_idle := by decide
      decoded_le := by decide
      decoded_zero := by decide
      rootv_phase := by decide
      cur_inside := fun _ => ⟨by decide, [], rfl⟩
      cur_internal := fun _ _ => ⟨3#40, 0x41#9, 0x42#9, rfl⟩ }
  codeInv :=
    { closed := by decide
      few := by decide
      present := fun _ _ => by decide +kernel
      is_path := fun sym c h => by
        rcases code_of_codedAB h with ⟨rfl, rfl⟩ | ⟨rfl, rfl⟩ <;> decide
      prefix_free := fun a b ca cb ha hb hp => by
        rcases code_of_codedAB ha with ⟨rfl, rfl⟩ | ⟨rfl, rfl⟩ <;> rcases code_of_codedAB hb with ⟨rfl, rfl⟩ | ⟨rfl, rfl⟩ <;>
          first | rfl | (exfalso; revert hp; decide) }

theorem exec_seed_tableAB : exec .seed tableAB = .next seededAB := eq_next_of_nextOf (by decide +kernel)
theorem exec_build_tableAB : exec .build tableAB = .next treeAB := eq_next_of_nextOf test_build
theorem exec_gen_treeAB : exec .gen treeAB = .next codedAB := eq_next_of_nextOf test_gen

/-! ## Witnesses of the statements' hypotheses, one theorem per statement, each clause at a state that meets it -/

theorem witness_StepRunsDecodedCommand :
    (State.reset.withFetchWord 16 0x2041).host = .command 0x2041#16 :: [] ∧ decode 0x2041#16 = .ok (.recSym 0x41#8) := by decide
theorem witness_IllFormedWordRaisesIllegal :
    (State.reset.withFetchWord 16 0xE000).host = .command 0xE000#16 :: [] ∧ (fieldsOf 0xE000#16).wellFormed = false ∧
      (State.reset.withFetchWord 16 0xE000).err = .noFault := by decide
theorem witness_FaultedBlockIgnoresAllButClr :
    ({ State.reset with err := .io }.withFetchWord 16 0x1001).host = .command 0x1001#16 :: [] ∧ (0x1001#16 : Word) ≠ 0x1000#16 ∧
      ({ State.reset with err := .io }.withFetchWord 16 0x1000).host = .command 0x1000#16 :: [] ∧
      ({ State.reset with err := .io }).err ≠ .noFault := by decide
theorem witness_WaitAndResetSteps :
    State.reset.host = [] ∧ ({ codedAB with host := [.reset] }).host = .reset :: [] := by decide
theorem witness_PhaseTableDecidesSeq :
    tableAB.err = .noFault ∧ legal .merge tableAB = false ∧ legal .merge seededAB = true ∧ seededAB.err = .noFault ∧
      exec .merge seededAB = .next treeAB := ⟨rfl, by decide, by decide, rfl, eq_next_of_nextOf test_merge_last⟩
theorem witness_FaultChangesOnlyErr :
    tableAB.err = .noFault ∧ Inv tableAB ∧ exec (.get 0#8) tableAB = .next { tableAB with err := .seq } ∧
      exec .merge tableAB = .next { tableAB with err := .seq } ∧ (∀ b, Instr.merge ≠ .get b) :=
  ⟨rfl, inv_tableAB, eq_next_of_nextOf (by decide), eq_next_of_nextOf (by decide), by simp⟩
theorem witness_FaultCodesByCommand :
    tableAB.err = .noFault ∧ exec .ioerr tableAB = .next { tableAB with err := .io } ∧
      exec (.put 0x43#8) codedAB = .next { codedAB with err := .contract } ∧
      exec (.get 0#8) treeZ = .next { treeZ with err := .corrupt } :=
  ⟨rfl, eq_next_of_nextOf (by decide), eq_next_of_nextOf (by decide), eq_next_of_nextOf (by decide)⟩
theorem witness_PhaseMovesOnlyForward :
    exec .seed tableAB = .next seededAB ∧ Instr.seed ≠ .clr ∧ seededAB.phase ≠ tableAB.phase ∧ Inv tableAB ∧
      exec .merge seededAB = .next treeAB ∧ treeAB.phase ≠ seededAB.phase ∧ exec .clr codedAB = .next State.reset :=
  ⟨exec_seed_tableAB, by decide, by decide, inv_tableAB, eq_next_of_nextOf test_merge_last, by decide, eq_next_of_nextOf (by decide)⟩
theorem witness_StateWriters :
    exec .gen treeAB = .next codedAB ∧ Instr.gen ≠ .clr ∧ codedAB.codes ≠ treeAB.codes ∧
      exec .build tableAB = .next treeAB ∧ treeAB.nodes ≠ tableAB.nodes ∧
      exec (.recSym 0x41#8) State.reset = .next { State.reset with freq := [(0x41, 1#32)], total := 1#40, unique := 1#9 } :=
  ⟨exec_gen_treeAB, by decide, by decide, exec_build_tableAB, by decide, eq_next_of_nextOf (by decide)⟩
theorem witness_OutOnlyGrowsAndIsNotRead :
    exec .hout treeZ = .next { treeZ with out := [0x00#8, 0x5A#8, 0#8, 0#8, 0#8, 5#8] } ∧ Instr.hout ≠ .clr :=
  ⟨eq_next_of_nextOf (by decide +kernel), by decide⟩
/-- The clauses on `CLR` and on reset. -/
theorem witness_OutOnlyGrowsAndIsNotRead_cleared :
    exec .clr codedAB = .next State.reset ∧ emptyTable.host = .reset :: [] ∧ step emptyTable = .next State.reset :=
  ⟨eq_next_of_nextOf (by decide), rfl, eq_next_of_nextOf (by decide)⟩
theorem witness_IoerrRecordsIo : tableAB.err = .noFault ∧ ({ tableAB with err := .seq }).err ≠ .noFault := by decide
theorem witness_RecCountsOneOccurrence :
    tableAB.err = .noFault ∧ tableAB.phase = .freq ∧ tableAB.hst = .idle ∧ tableAB.freqAt 0x41#8 ≠ 0xFFFFFFFF#32 ∧
      tableAB.freqAt 0x00#8 = 0#32 ∧ FreqInv tableAB := ⟨rfl, rfl, rfl, by decide, by decide, freqInv_tableAB⟩
theorem witness_RecAtMaximumOverflows :
    ({ State.reset with freq := [(0x41, 0xFFFFFFFF#32)] }).freqAt 0x41#8 = 0xFFFFFFFF#32 ∧ State.reset.err = .noFault ∧
      State.reset.phase = .freq ∧ State.reset.hst = .idle := by decide
theorem witness_RecOrderIrrelevant :
    Memory.wf State.reset ∧ State.reset.err = .noFault ∧ [0x41#8, 0x42#8].Perm [0x42#8, 0x41#8] ∧
      execAll ([0x41#8, 0x42#8].map .recSym) State.reset =
        .next { State.reset with freq := [(0x41, 1#32), (0x42, 1#32)], total := 2#40, unique := 2#9 } :=
  ⟨by decide, rfl, by decide, eq_next_of_nextOf (by decide)⟩
theorem witness_HinAdvancesParser :
    State.reset.err = .noFault ∧ State.reset.phase = .freq ∧ State.reset.hst = .idle ∧ State.reset.total = 0#40 ∧
      ({ headerMid with hst := .sym }).hst = .sym ∧ ({ headerMid with hst := .f3 }).hst = .f3 ∧
      ({ headerMid with hst := .f2 }).hst = .f2 ∧ ({ headerMid with hst := .f1 }).hst = .f1 := by decide
theorem witness_HinCommitsEntry :
    headerMid.err = .noFault ∧ headerMid.phase = .freq ∧ headerMid.hst = .f0 ∧
      (0x100#32 : Count) = headerMid.hfrq.extractLsb' 8 24 ++ 0#8 ∧ (0x100#32 : Count) ≠ 0#32 ∧ headerMid.freqAt headerMid.hsym = 0#32 := by
  decide
theorem freqInv_headerMid : FreqInv headerMid where
  total_eq := by decide +kernel
  unique_eq := by decide +kernel
  header_idle := by decide
  header_count := by decide
  header_progress := by decide
  header_closed := by decide
theorem witness_HinCommitsEntry_inv : FreqInv headerMid := freqInv_headerMid
theorem witness_HeaderEntryIsBigEndian :
    ({ headerMid with hst := .sym }).err = .noFault ∧ ({ headerMid with hst := .sym }).phase = .freq ∧
      ({ headerMid with hst := .sym }).hst = .sym ∧ ({ headerMid with hst := .sym }).freqAt 0x42#8 = 0#32 ∧
      0 < (0#8 : Byte).toNat * 2 ^ 24 + (0#8 : Byte).toNat * 2 ^ 16 + (1#8 : Byte).toNat * 2 ^ 8 + (0#8 : Byte).toNat := by decide
theorem witness_HinRejectsInconsistentEntry :
    headerMid.err = .noFault ∧ headerMid.phase = .freq ∧ headerMid.hst = .f0 ∧
      ({ headerMid with hfrq := 0#32 }).hfrq.extractLsb' 8 24 ++ 0#8 = 0#32 ∧
      ({ headerMid with freq := [(0x41, 1#32)] }).freqAt 0x41#8 ≠ 0#32 ∧
      headerMid.hfrq.extractLsb' 8 24 ++ 1#8 ≠ 0#32 ∧ headerMid.freqAt headerMid.hsym = 0#32 := by decide
/-- The clauses on earlier bytes and on a header that ends early: the parser waits for a symbol. -/
theorem witness_HinRejectsInconsistentEntry_early :
    ({ headerMid with hst := .sym }).err = .noFault ∧ ({ headerMid with hst := .sym }).phase = .freq ∧
      ({ headerMid with hst := .sym }).hst ≠ .f0 ∧ ({ headerMid with hst := .sym }).hst ≠ .done ∧
      ({ headerMid with hst := .sym }).hst ≠ .idle ∧ State.reset.hst = .idle ∧ State.reset.total = 0#40 := by decide
/-- The clause on a complete header: one entry, Z five times. -/
theorem witness_HinRejectsInconsistentEntry_complete :
    FreqInv { tableZ with hst := .done, hcnt := 1#9 } ∧ ({ tableZ with hst := .done, hcnt := 1#9 }).hst = .done :=
  ⟨⟨by decide +kernel, by decide +kernel, by decide, by decide, by decide, by decide⟩, rfl⟩
theorem freqInv_treeEmpty : FreqInv treeEmpty where
  total_eq := by decide +kernel
  unique_eq := by decide +kernel
  header_idle := by decide
  header_count := by decide
  header_progress := by decide
  header_closed := by decide
theorem witness_HoutEmitsHeader :
    treeAB.err = .noFault ∧ treeAB.phase = .tree ∧ Memory.wf treeAB ∧ FreqInv treeAB ∧ treeAB.unique ≠ 0#9 ∧
      treeEmpty.err = .noFault ∧ treeEmpty.phase = .tree ∧ Memory.wf treeEmpty ∧ FreqInv treeEmpty ∧ treeEmpty.unique = 0#9 :=
  ⟨rfl, rfl, by decide, inv_treeAB.freqInv, by decide, rfl, rfl, by decide, freqInv_treeEmpty, rfl⟩
theorem witness_HeaderRoundTrip :
    treeAB.err = .noFault ∧ treeAB.phase = .tree ∧ Memory.wf treeAB ∧ FreqInv treeAB ∧ treeAB.unique ≠ 0#9 ∧
      exec .hout treeAB = .next { treeAB with out := [1#8, 0x41#8, 0#8, 0#8, 0#8, 1#8, 0x42#8, 0#8, 0#8, 0#8, 2#8] } :=
  ⟨rfl, rfl, by decide, inv_treeAB.freqInv, by decide, eq_next_of_nextOf (by decide +kernel)⟩
theorem witness_SeedMakesLeaves : tableAB.err = .noFault ∧ tableAB.phase = .freq ∧ tableAB.hst = .idle ∧ Inv tableAB :=
  ⟨rfl, rfl, rfl, inv_tableAB⟩
/-- The clauses of one and of no present symbol. -/
theorem witness_SeedMakesLeaves_few :
    Inv tableZ ∧ tableZ.err = .noFault ∧ tableZ.phase = .freq ∧ tableZ.hst = .idle ∧ tableZ.unique = 1#9 ∧
      Inv emptyTable ∧ emptyTable.err = .noFault ∧ emptyTable.phase = .freq ∧ emptyTable.hst = .idle ∧ emptyTable.unique = 0#9 :=
  ⟨inv_tableZ, rfl, rfl, rfl, rfl, inv_emptyTable, rfl, rfl, rfl, rfl⟩
theorem witness_SeedOrderIsCountThenSymbol :
    tableAB.err = .noFault ∧ tableAB.phase = .freq ∧ Inv tableAB ∧ exec .seed tableAB = .next seededAB ∧ seededAB.err = .noFault ∧
      allSymbols.Perm allSymbols := ⟨rfl, rfl, inv_tableAB, exec_seed_tableAB, rfl, List.Perm.refl _⟩
theorem witness_MergeBuildsParent :
    seededAB.err = .noFault ∧ seededAB.phase = .seeded ∧ seededAB.pl = 0x41#9 :: 0x42#9 :: [] ∧
      seededAB.node? 0x41#9 = some (.leaf 0x41#8 1#40) ∧ seededAB.node? 0x42#9 = some (.leaf 0x42#8 2#40) ∧
      (∀ k ∈ ([] : List NodeIdx), (seededAB.node? k).isSome = true) ∧ seededAB.next.toNat < 511 := by decide
theorem witness_MergeBuildsParent_inv :
    Inv seededAB ∧ ([] : List NodeIdx).Pairwise (fun a b => weightAt treeAB a ≤ weightAt treeAB b) := ⟨inv_seededAB, List.Pairwise.nil⟩
/-- The clause with a rest: three members. -/
theorem witness_MergeBuildsParent_rest :
    ({ seededAB with pl := [0x41#9, 0x42#9, 0x42#9] }).pl = 0x41#9 :: 0x42#9 :: [0x42#9] ∧
      (∀ k ∈ [0x42#9], (({ seededAB with pl := [0x41#9, 0x42#9, 0x42#9] }).node? k).isSome = true) := by decide
theorem witness_BuildIsSeedThenMerges :
    tableAB.err = .noFault ∧ tableAB.phase = .freq ∧ exec .seed tableAB = .next seededAB ∧ seededAB.err = .noFault ∧
      seededAB.phase = .seeded ∧ 2 ≤ seededAB.pl.length := ⟨rfl, rfl, exec_seed_tableAB, rfl, rfl, by decide⟩
theorem witness_BuildCompletesTree :
    Inv tableAB ∧ tableAB.err = .noFault ∧ tableAB.phase = .freq ∧ tableAB.hst = .idle ∧ Inv seededAB ∧ seededAB.phase = .seeded ∧
      2 ≤ tableAB.unique.toNat := ⟨inv_tableAB, rfl, rfl, rfl, inv_seededAB, rfl, by decide⟩
/-- The clauses of one and of no present symbol. -/
theorem witness_BuildCompletesTree_few :
    Inv tableZ ∧ tableZ.err = .noFault ∧ tableZ.phase = .freq ∧ tableZ.hst = .idle ∧ tableZ.unique = 1#9 ∧
      Inv emptyTable ∧ emptyTable.err = .noFault ∧ emptyTable.phase = .freq ∧ emptyTable.hst = .idle ∧ emptyTable.unique = 0#9 :=
  ⟨inv_tableZ, rfl, rfl, rfl, rfl, inv_emptyTable, rfl, rfl, rfl, rfl⟩
theorem witness_TreeDependsOnTableAlone :
    Inv tableAB ∧ tableAB.phase = .freq ∧ exec .build tableAB = .next treeAB ∧ tableAB.err = .noFault ∧ treeAB.err = .noFault :=
  ⟨inv_tableAB, rfl, exec_build_tableAB, rfl, rfl⟩
theorem witness_NodeWeightIsLeafSum :
    Inv treeAB ∧ treeAB.node? 256#9 = some (.internal 3#40 0x41#9 0x42#9) ∧ treeAB.rootv = true := ⟨inv_treeAB, rfl, rfl⟩
theorem witness_GenAssignsRootPaths :
    Inv treeAB ∧ treeAB.err = .noFault ∧ treeAB.phase = .tree ∧ 2#9 ≤ treeAB.unique ∧ treeAB.freqAt 0x41#8 ≠ 0#32 ∧
      treeAB.freqAt 0x43#8 = 0#32 := ⟨inv_treeAB, rfl, rfl, by decide, by decide, by decide⟩
theorem witness_GenBypassesSingleAndEmpty :
    treeZ.err = .noFault ∧ treeZ.phase = .tree ∧ treeZ.unique ≤ 1#9 ∧ treeEmpty.phase = .tree ∧ treeEmpty.unique ≤ 1#9 := by decide
theorem witness_CodesArePrefixFreeAndComplete :
    Inv treeAB ∧ treeAB.err = .noFault ∧ treeAB.phase = .tree ∧ 2#9 ≤ treeAB.unique ∧ exec .gen treeAB = .next codedAB ∧
      codedAB.code? 0x41#8 = some ⟨[false]⟩ ∧ (List.replicate 255 true).length = 255 :=
  ⟨inv_treeAB, rfl, rfl, by decide, exec_gen_treeAB, rfl, List.length_replicate⟩
theorem witness_AppendBitFillsFromTheTop : codedAB.nbits ≠ 7#3 ∧ ({ codedAB with nbits := 7#3 }).nbits = 7#3 := by decide
theorem witness_PutAppendsCode :
    codedAB.err = .noFault ∧ codedAB.phase = .coded ∧ codedAB.freqAt 0x42#8 ≠ 0#32 ∧ 2#9 ≤ codedAB.unique ∧
      codedAB.code? 0x42#8 = some ⟨[true]⟩ ∧ AccLowClear codedAB := by decide
theorem witness_PutOfAbsentSymbolIsContract :
    codedAB.err = .noFault ∧ codedAB.phase = .coded ∧ codedAB.freqAt 0x43#8 = 0#32 := by decide
theorem witness_PutOfAbsentSymbolIsContract_empty :
    ({ treeEmpty with phase := .coded }).phase = .coded ∧ ({ treeEmpty with phase := .coded }).unique = 0#9 ∧
      FreqInv { treeEmpty with phase := .coded } :=
  ⟨rfl, rfl, ⟨freqInv_treeEmpty.total_eq, freqInv_treeEmpty.unique_eq, by decide, by decide, by decide, by decide⟩⟩
theorem witness_SingleSymbolHasNoBody :
    ({ treeZ with phase := .coded }).err = .noFault ∧ ({ treeZ with phase := .coded }).phase = .coded ∧
      ({ treeZ with phase := .coded }).unique = 1#9 ∧ ({ treeZ with phase := .coded }).freqAt 0x5A#8 ≠ 0#32 ∧
      ({ treeZ with phase := .coded }).freqAt 0x41#8 = 0#32 ∧ ({ treeZ with phase := .coded }).nbits = 0#3 := by decide
theorem witness_FlushPadsWithZeros :
    codedAB.err = .noFault ∧ codedAB.phase = .coded ∧ AccLowClear codedAB ∧ codedAB.nbits = 0#3 ∧
      AccLowClear { codedAB with acc := 0x90#8, nbits := 7#3 } ∧ ({ codedAB with acc := 0x90#8, nbits := 7#3 }).nbits ≠ 0#3 := by decide
theorem witness_BodyIsCodesThenPadding :
    Inv codedAB ∧ codedAB.err = .noFault ∧ codedAB.phase = .coded ∧ 2#9 ≤ codedAB.unique ∧ codedAB.acc = 0#8 ∧ codedAB.nbits = 0#3 ∧
      ∀ x ∈ [0x41#8, 0x42#8, 0x42#8], codedAB.freqAt x ≠ 0#32 := ⟨inv_codedAB, rfl, rfl, by decide, rfl, rfl, by decide⟩
theorem witness_GetAfterDoneIsIgnored : treeEmpty.err = .noFault ∧ treeEmpty.flagDone = true := by decide
theorem witness_GetWalksTree :
    Inv treeAB ∧ treeAB.err = .noFault ∧ treeAB.phase = .tree ∧ 2#9 ≤ treeAB.unique ∧ descend treeAB treeAB.root [] = some treeAB.cur ∧
      treeAB.decoded ≠ treeAB.total := ⟨inv_treeAB, rfl, rfl, by decide, rfl, by decide⟩
theorem witness_GetAtLeafIsCorrupt :
    treeZ.err = .noFault ∧ treeZ.phase = .tree ∧ treeZ.decoded ≠ treeZ.total ∧ treeZ.node? treeZ.cur = some (.leaf 0x5A#8 5#40) := by decide
theorem witness_GetAtLeafIsCorrupt_never :
    Inv treeAB ∧ treeAB.err = .noFault ∧ treeAB.phase = .tree ∧
      exec (.get 0x5F#8) treeAB = .next { treeAB with out := [0x41#8, 0x42#8, 0x41#8], decoded := 3#40 } :=
  ⟨inv_treeAB, rfl, rfl, eq_next_of_nextOf (by decide)⟩
/-- The clause on the single-symbol case, a bit taken with `DECODED < TOTAL`. -/
theorem witness_GetAtLeafIsCorrupt_single :
    Inv treeZ ∧ treeZ.err = .noFault ∧ treeZ.phase = .tree ∧ exec (.get 0x00#8) treeZ = .next { treeZ with err := .corrupt } ∧
      treeZ.unique = 1#9 ∧ treeZ.decoded < treeZ.total :=
  ⟨inv_treeZ, rfl, rfl, eq_next_of_nextOf (by decide), rfl, by decide⟩
theorem witness_DrepRepeatsSingleSymbol :
    treeZ.err = .noFault ∧ treeZ.phase = .tree ∧ treeZ.unique = 1#9 ∧ treeZ.node? treeZ.root = some (.leaf 0x5A#8 5#40) ∧
      treeEmpty.unique = 0#9 ∧ treeEmpty.phase = .tree ∧ 2#9 ≤ treeAB.unique ∧ treeAB.phase = .tree := by decide
theorem witness_StepKeepsTablesCanonical :
    Memory.wf (State.reset.withFetchWord 16 0x2041) ∧
      step (State.reset.withFetchWord 16 0x2041) = .next { State.reset with freq := [(0x41, 1#32)], total := 1#40, unique := 1#9 } :=
  ⟨by decide, eq_next_of_nextOf (by decide)⟩
theorem witness_StepKeepsFrequencyInvariants :
    FreqInv (tableAB.withFetchWord 16 0x4000) ∧ step (tableAB.withFetchWord 16 0x4000) = .next seededAB :=
  ⟨freqInv_of_tableAB rfl rfl rfl rfl rfl, eq_next_of_nextOf (by decide +kernel)⟩
theorem witness_StepNeverStopsAndKeepsInvariants : Inv codedAB := inv_codedAB
theorem witness_DecodeOfEncodeIsIdentity : ∀ b, [0x41#8, 0x42#8, 0x42#8].count b < 2 ^ 32 := by
  intro b
  exact Nat.lt_of_le_of_lt List.count_le_length (by decide)

end Sys2Proof.Tests
end

section
/-! PROOF. Scope: a step of the block runs the command that the host's next word decodes to (R9, R302). -/

namespace Sys2Proof.Machine

/-- What the command port does with a word that decodes (R100); the state has no say in the decoding. -/
theorem presentWord_of_decode_ok {w : Word} {i : Instr} (h : decode w = .ok i) (s : State) : presentWord w s = exec i s := by
  simp only [presentWord, h]

/-- A step with a command word first in the queue is that word's presentation to the block. -/
theorem step_command {s : State} {w : Word} {rest : List HostAction} (h : s.host = .command w :: rest) :
    step s = presentWord w { s with host := rest } :=
  step_cons h

/-- Settles O4: the step presents the word, and a decoded word is executed. -/
theorem stepRunsDecodedCommand : Obligations.StepRunsDecodedCommand := by
  intro s w rest i hhost hdecode
  calc step s = presentWord w { s with host := rest } := step_command hhost
    _ = exec i { s with host := rest } := presentWord_of_decode_ok hdecode _

end Sys2Proof.Machine
end

section
/-! PROOF. What a step and each command can write: the frame of every command, said once. -/

namespace Sys2Proof.Machine

variable {s t : State}

/-- Everything a step can be: the block waits, or it executes a command on the state without the host's action (a reset does what
`CLR` does, R290, R242), or it meets an ill-formed word (R9). -/
theorem step_cases (s : State) :
    step s = .next s ∨ (∃ i rest, step s = exec i { s with host := rest }) ∨ ∃ rest, step s = execIllFormed { s with host := rest } := by
  cases hh : s.host with
  | nil => exact .inl (step_nil hh)
  | cons a rest =>
    right
    cases a with
    | reset => exact .inl ⟨.clr, rest, step_cons hh⟩
    | command w =>
      cases hd : decode w with
      | ok i => exact .inl ⟨i, rest, by rw [step_command hh, presentWord_of_decode_ok hd]⟩
      | error r => exact .inr ⟨rest, by rw [step_command hh, presentWord, hd]⟩

/-- A faulted block ignores every command but `CLR` (R263). -/
theorem exec_of_faulted {i : Instr} (hi : i ≠ .clr) (he : s.err ≠ .noFault) : exec i s = .next s := by
  cases i with
  | clr => exact absurd rfl hi
  | nop => rfl
  | recSym _ | hin _ | seed | merge | build | gen | hout | put _ | flush | get _ | drep | ioerr => exact unlessFaulted_faulted he _

/-- What a header byte can do to a block (R194 to R198), the conditions that each effect rests on with it. -/
inductive HinEffect (b : Byte) (s : State) : State → Prop
  /-- the byte is ignored or takes a fault -/
  | stays (c : ErrCode) : HinEffect b s { s with err := c }
  /-- the count byte -/
  | opens (hp : s.phase = .freq) (hh : s.hst = .idle) (ht : s.total = 0#40) :
      HinEffect b s { s with hcnt := declaredCount b, hst := .sym }
  /-- one of the first four bytes of an entry -/
  | advances (hp : s.phase = .freq) (hi : s.hst ≠ .idle) (hd : s.hst ≠ .done) (sym : Symbol) (f : Count) (h : HeaderState)
      (hi' : h ≠ .idle) (hd' : h ≠ .done) : HinEffect b s { s with hsym := sym, hfrq := f, hst := h }
  /-- the fifth byte of an entry -/
  | commits (hp : s.phase = .freq) (hh : s.hst = .f0) (hf : withByte0 s.hfrq b ≠ 0#32) (hs : s.freqAt s.hsym = 0#32) :
      HinEffect b s (commitEntry (withByte0 s.hfrq b) s)

/-- `HIN` always answers a next state, by one of these effects. -/
theorem execHin_effect (b : Byte) (s : State) : ∃ t, execHin b s = .next t ∧ HinEffect b s t := by
  by_cases he : s.err = .noFault
  swap
  · exact ⟨_, execHin_faulted he, .stays s.err⟩
  by_cases hl : s.phase = .freq ∧ s.hst ≠ .done
  swap
  · exact ⟨_, execHin_seq he hl, .stays _⟩
  obtain ⟨hp, hd⟩ := hl
  cases hh : s.hst with
  | idle =>
    rw [execHin_idle he hp hh]
    by_cases ht : s.total = 0#40
    · exact ⟨_, if_pos ht, .opens hp hh ht⟩
    · exact ⟨_, if_neg ht, .stays _⟩
  | sym => exact ⟨_, execHin_sym he hp hh, .advances hp (by simp [hh]) hd _ _ _ (by simp) (by simp)⟩
  | f3 => exact ⟨_, execHin_f3 he hp hh, .advances hp (by simp [hh]) hd s.hsym _ _ (by simp) (by simp)⟩
  | f2 => exact ⟨_, execHin_f2 he hp hh, .advances hp (by simp [hh]) hd s.hsym _ _ (by simp) (by simp)⟩
  | f1 => exact ⟨_, execHin_f1 he hp hh, .advances hp (by simp [hh]) hd s.hsym _ _ (by simp) (by simp)⟩
  | f0 =>
    rw [execHin_f0 he hp hh]
    by_cases hc : withByte0 s.hfrq b ≠ 0#32 ∧ s.freqAt s.hsym = 0#32
    · exact ⟨_, if_pos hc, .commits hp hh hc.1 hc.2⟩
    · exact ⟨_, if_neg hc, .stays _⟩
  | done => exact absurd hh hd

theorem hinEffect_of_execHin {b : Byte} (h : execHin b s = .next t) : HinEffect b s t := by
  obtain ⟨u, hu, heff⟩ := execHin_effect b s
  cases hu.symm.trans h
  exact heff

/-! ## Frames: the fields a command can write -/

theorem execRec_frame {sym : Symbol} (h : execRec sym s = .next t) :
    ∃ f n u e, t = { s with freq := f, total := n, unique := u, err := e } := by
  rcases execRec_eq_next_iff.1 h with ⟨-, ⟨-, ⟨-, rfl⟩ | ⟨-, rfl⟩⟩ | ⟨-, rfl⟩⟩ | ⟨-, rfl⟩ <;> exact ⟨_, _, _, _, rfl⟩

theorem execHin_frame {b : Byte} (h : execHin b s = .next t) :
    ∃ f n u hs hc hy hf e,
      t = { s with freq := f, total := n, unique := u, hst := hs, hcnt := hc, hsym := hy, hfrq := hf, err := e } := by
  cases hinEffect_of_execHin h <;> exact ⟨_, _, _, _, _, _, _, _, rfl⟩

/-- The fields the Tree Builder writes: `t` is `s` but for them. -/
def BuilderFrame (s t : State) : Prop :=
  ∃ ns nx l p r v c, t = { s with nodes := ns, next := nx, pl := l, phase := p, root := r, rootv := v, cur := c }

theorem BuilderFrame.refl (s : State) : BuilderFrame s s := ⟨_, _, _, _, _, _, _, rfl⟩

theorem BuilderFrame.trans {u : State} (h : BuilderFrame s t) (h' : BuilderFrame t u) : BuilderFrame s u := by
  obtain ⟨_, _, _, _, _, _, _, rfl⟩ := h
  obtain ⟨_, _, _, _, _, _, _, rfl⟩ := h'
  exact ⟨_, _, _, _, _, _, _, rfl⟩

theorem treeComplete_builderFrame (s : State) : BuilderFrame s (treeComplete s) := by
  unfold treeComplete
  split <;> exact ⟨_, _, _, _, _, _, _, rfl⟩

theorem finishSeeding_builderFrame (s : State) : BuilderFrame s (finishSeeding s) := by
  unfold finishSeeding
  split
  · exact ⟨_, _, _, _, _, _, _, rfl⟩
  · exact treeComplete_builderFrame s

theorem seedBody_builderFrame (h : seedBody s = .next t) : BuilderFrame s t := by
  obtain ⟨u, hu, rfl⟩ := seedBody_eq_next_iff.1 h
  exact .trans ⟨_, _, _, _, _, _, _, seedLoop_frame hu⟩ (finishSeeding_builderFrame u)

theorem mergeStep_builderFrame (h : mergeStep s = .next t) : BuilderFrame s t := ⟨_, _, _, _, _, _, _, mergeStep_frame h⟩

theorem mergeLoop_of_ne_seeded (turns : Nat) (h : s.phase ≠ .seeded) : mergeLoop turns s = .next s := by
  cases turns <;> exact if_neg h

theorem mergeLoop_succ_of_seeded (turns : Nat) (h : s.phase = .seeded) :
    mergeLoop (turns + 1) s = andThen (mergeStep s) (mergeLoop turns) := if_pos h

/-- What every merge step keeps, the merge loop keeps. -/
theorem mergeLoop_induction {P : State → Prop} (hstep : ∀ u v, P u → mergeStep u = .next v → P v) {turns : Nat}
    (h : mergeLoop turns s = .next t) (hs : P s) : P t := by
  induction turns generalizing s with
  | zero =>
    by_cases hp : s.phase = .seeded
    · simp [mergeLoop, hp] at h
    · rw [mergeLoop_of_ne_seeded _ hp] at h; cases h; exact hs
  | succ n ih =>
    by_cases hp : s.phase = .seeded
    · rw [mergeLoop_succ_of_seeded _ hp, andThen_eq_next_iff] at h
      obtain ⟨u, hu, ht⟩ := h
      exact ih ht (hstep s u hs hu)
    · rw [mergeLoop_of_ne_seeded _ hp] at h; cases h; exact hs

theorem mergeAll_builderFrame (h : mergeAll s = .next t) : BuilderFrame s t :=
  mergeLoop_induction (fun _ _ hu hv => hu.trans (mergeStep_builderFrame hv)) h (.refl s)

/-- `SEED`, `MERGE` and `BUILD` write the builder's fields, or `ERR` alone. -/
def BuilderOrErr (s t : State) : Prop := BuilderFrame s t ∨ ∃ c, t = { s with err := c }

theorem execSeed_frame (h : execSeed s = .next t) : BuilderOrErr s t := by
  rcases execSeed_eq_next_iff.1 h with ⟨-, ⟨-, ⟨-, h⟩ | ⟨-, rfl⟩⟩ | ⟨-, rfl⟩⟩ | ⟨-, rfl⟩
  · exact .inl (seedBody_builderFrame h)
  · exact .inr ⟨_, rfl⟩
  · exact .inr ⟨_, rfl⟩
  · exact .inl (.refl _)

theorem execMerge_frame (h : execMerge s = .next t) : BuilderOrErr s t := by
  rcases execMerge_eq_next_iff.1 h with ⟨-, ⟨-, h⟩ | ⟨-, rfl⟩⟩ | ⟨-, rfl⟩
  · exact .inl (mergeStep_builderFrame h)
  · exact .inr ⟨_, rfl⟩
  · exact .inl (.refl _)

theorem execBuild_frame (h : execBuild s = .next t) : BuilderOrErr s t := by
  rcases execBuild_eq_next_iff.1 h with
    ⟨-, ⟨-, ⟨-, u, hu, h⟩ | ⟨-, rfl⟩⟩ | ⟨-, ⟨-, h⟩ | ⟨-, rfl⟩⟩⟩ | ⟨-, rfl⟩
  · exact .inl ((seedBody_builderFrame hu).trans (mergeAll_builderFrame h))
  · exact .inr ⟨_, rfl⟩
  · exact .inl (mergeAll_builderFrame h)
  · exact .inr ⟨_, rfl⟩
  · exact .inl (.refl _)

theorem execGen_frame (h : execGen s = .next t) : ∃ cs p e, t = { s with codes := cs, phase := p, err := e } := by
  rcases execGen_eq_next_iff.1 h with ⟨-, ⟨-, ⟨-, _, -, rfl⟩ | ⟨-, rfl⟩⟩ | ⟨-, rfl⟩⟩ | ⟨-, rfl⟩ <;> exact ⟨_, _, _, rfl⟩

theorem execHout_frame (h : execHout s = .next t) : ∃ o e, t = { s with out := o, err := e } := by
  rcases execHout_eq_next_iff.1 h with ⟨-, ⟨-, rfl⟩ | ⟨-, rfl⟩⟩ | ⟨-, rfl⟩ <;> exact ⟨_, _, rfl⟩

theorem execPut_frame {sym : Symbol} (h : execPut sym s = .next t) :
    ∃ a n o e, t = { s with acc := a, nbits := n, out := o, err := e } := by
  rcases execPut_eq_next_iff.1 h with ⟨-, ⟨-, ⟨-, ⟨-, c, -, rfl⟩ | ⟨-, rfl⟩⟩ | ⟨-, rfl⟩⟩ | ⟨-, rfl⟩⟩ | ⟨-, rfl⟩
  · exact ⟨_, _, _, _, appendBits_frame c.bits s⟩
  all_goals exact ⟨_, _, _, _, rfl⟩

theorem execFlush_frame (h : execFlush s = .next t) : ∃ a n o e, t = { s with acc := a, nbits := n, out := o, err := e } := by
  rcases execFlush_eq_next_iff.1 h with ⟨-, ⟨-, ⟨-, rfl⟩ | ⟨-, rfl⟩⟩ | ⟨-, rfl⟩⟩ | ⟨-, rfl⟩ <;> exact ⟨_, _, _, _, rfl⟩

theorem execGet_frame {b : Byte} (h : execGet b s = .next t) :
    ∃ o d c e, t = { s with out := o, decoded := d, cur := c, err := e } := by
  rcases execGet_eq_next_iff.1 h with ⟨-, ⟨-, h⟩ | ⟨-, rfl⟩⟩ | ⟨-, rfl⟩
  · exact ⟨_, _, _, _, takeBits_frame h⟩
  all_goals exact ⟨_, _, _, _, rfl⟩

theorem execDrep_frame (h : execDrep s = .next t) : ∃ o d e, t = { s with out := o, decoded := d, err := e } := by
  rcases execDrep_eq_next_iff.1 h with ⟨-, ⟨-, ⟨-, ⟨-, h⟩ | ⟨-, rfl⟩⟩ | ⟨-, rfl⟩⟩ | ⟨-, rfl⟩⟩ | ⟨-, rfl⟩
  · obtain ⟨sym, w, -, rfl⟩ := repeatRoot_eq_next_iff.1 h
    exact ⟨_, _, _, rfl⟩
  all_goals exact ⟨_, _, _, rfl⟩

theorem execIoerr_frame (h : execIoerr s = .next t) : ∃ e, t = { s with err := e } := by
  rcases execIoerr_eq_next_iff.1 h with ⟨-, rfl⟩ | ⟨-, rfl⟩ <;> exact ⟨_, rfl⟩

theorem execIllFormed_frame (h : execIllFormed s = .next t) : ∃ e, t = { s with err := e } := by
  rcases execIllFormed_eq_next_iff.1 h with ⟨-, rfl⟩ | ⟨-, rfl⟩ <;> exact ⟨_, rfl⟩

/-- Settles O14, by the frame of each command. -/
theorem stateWriters : Obligations.StateWriters := by
  intro i s t h hi
  have hf : s.err ≠ .noFault → t = s := fun he => by
    rw [exec_of_faulted hi he] at h; cases h; rfl
  cases i with
  | clr => exact absurd rfl hi
  | nop => cases h; simp
  | recSym sym => obtain ⟨_, _, _, _, rfl⟩ := execRec_frame h; simpa using hf
  | hin b => obtain ⟨_, _, _, _, _, _, _, _, rfl⟩ := execHin_frame h; simpa using hf
  | seed => obtain ⟨_, _, _, _, _, _, _, rfl⟩ | ⟨_, rfl⟩ := execSeed_frame h <;> simpa using hf
  | merge => obtain ⟨_, _, _, _, _, _, _, rfl⟩ | ⟨_, rfl⟩ := execMerge_frame h <;> simpa using hf
  | build => obtain ⟨_, _, _, _, _, _, _, rfl⟩ | ⟨_, rfl⟩ := execBuild_frame h <;> simpa using hf
  | gen => obtain ⟨_, _, _, rfl⟩ := execGen_frame h; simpa using hf
  | hout => obtain ⟨_, _, rfl⟩ := execHout_frame h; simpa using hf
  | put sym => obtain ⟨_, _, _, _, rfl⟩ := execPut_frame h; simpa using hf
  | flush => obtain ⟨_, _, _, _, rfl⟩ := execFlush_frame h; simpa using hf
  | get b => obtain ⟨_, _, _, _, rfl⟩ := execGet_frame h; simpa using hf
  | drep => obtain ⟨_, _, _, rfl⟩ := execDrep_frame h; simpa using hf
  | ioerr => obtain ⟨_, rfl⟩ := execIoerr_frame h; simpa using hf

end Sys2Proof.Machine
end

section
/-! PROOF. Reset values, the status registers (R40 to R43), the phase table (R31), and the output record (R44). -/

namespace Sys2Proof.Machine

variable {s t : State}

/-! ## Reset and status -/

/-- Settles O8: `CLR` gives the reset state with the host's queue, and every value of R50 is read from it. -/
theorem resetAndClrValues : Obligations.ResetAndClrValues := by
  intro s
  refine ⟨clearBlock s, rfl, rfl, ?_⟩
  rintro u (rfl | rfl) <;> exact ⟨fun _ => rfl, rfl, rfl, fun _ => rfl, rfl, rfl, rfl, rfl, fun _ => rfl, rfl, rfl, rfl, rfl, rfl, rfl,
    rfl, rfl, rfl, rfl, rfl⟩

theorem flagDone_iff : s.flagDone = true ↔ (s.phase = .tree ∨ s.phase = .coded) ∧ s.decoded = s.total := by
  simp [State.flagDone]

/-- The lowest field of a concatenation. -/
theorem extractLsb'_append_low {v w : Nat} (x : BitVec v) (y : BitVec w) : (x ++ y).extractLsb' 0 w = y := by
  rw [BitVec.extractLsb'_append_eq_of_add_le (by omega), BitVec.extractLsb'_eq_self]

/-- A field above the lowest one is a field of the upper part. -/
theorem extractLsb'_append_above {v w : Nat} (x : BitVec v) (y : BitVec w) {i : Nat} (n : Nat) (h : w ≤ i) :
    (x ++ y).extractLsb' i n = x.extractLsb' (i - w) n := BitVec.extractLsb'_append_eq_of_le h

/-- A bit above the lowest field is a bit of the upper part. -/
theorem getLsbD_append_above {v w : Nat} (x : BitVec v) (y : BitVec w) {i : Nat} (h : w ≤ i) :
    (x ++ y).getLsbD i = x.getLsbD (i - w) := by
  rw [BitVec.getLsbD_append, if_neg (by omega)]

/-- The lowest bit of a concatenation that ends in one bit. -/
theorem getLsbD_append_ofBool {v : Nat} (x : BitVec v) (c : Bool) : (x ++ BitVec.ofBool c).getLsbD 0 = c := by
  rw [BitVec.getLsbD_append, if_pos (by omega)]
  simp

/-- The fields of `STATUS`, from bit 0 up (R41). -/
theorem sr0_fields (s : State) :
    s.sr0.extractLsb' 0 3 = s.phase.code ∧ s.sr0.getLsbD 3 = s.rootv ∧ s.sr0.extractLsb' 4 4 = s.err.code ∧
    s.sr0.extractLsb' 8 3 = s.hst.code ∧ s.sr0.getLsbD 11 = s.flagDone ∧ s.sr0.extractLsb' 12 3 = s.nbits ∧
    s.sr0.getLsbD 15 = false ∧ s.sr0.extractLsb' 16 9 = s.unique ∧ s.sr0.extractLsb' 25 15 = 0#15 := by
  rw [State.sr0]
  refine ⟨extractLsb'_append_low _ _, ?_, ?_, ?_, ?_, ?_, ?_, ?_, ?_⟩
  · rw [getLsbD_append_above _ _ (by decide)]
    exact getLsbD_append_ofBool _ _
  · iterate 2 rw [extractLsb'_append_above _ _ _ (by decide)]
    exact extractLsb'_append_low _ _
  · iterate 3 rw [extractLsb'_append_above _ _ _ (by decide)]
    exact extractLsb'_append_low _ _
  · iterate 4 rw [getLsbD_append_above _ _ (by decide)]
    exact getLsbD_append_ofBool _ _
  · iterate 5 rw [extractLsb'_append_above _ _ _ (by decide)]
    exact extractLsb'_append_low _ _
  · iterate 6 rw [getLsbD_append_above _ _ (by decide)]
    exact getLsbD_append_ofBool _ false
  · iterate 7 rw [extractLsb'_append_above _ _ _ (by decide)]
    exact extractLsb'_append_low _ _
  · iterate 8 rw [extractLsb'_append_above _ _ _ (by decide)]
    exact BitVec.extractLsb'_eq_self

/-- The fields of `LIST`, from bit 0 up (R42). -/
theorem sr1_fields (s : State) :
    s.sr1.extractLsb' 0 9 = s.pllen ∧ s.sr1.extractLsb' 9 9 = s.root ∧ s.sr1.extractLsb' 18 9 = s.next ∧
    s.sr1.extractLsb' 27 13 = 0#13 := by
  rw [State.sr1]
  refine ⟨extractLsb'_append_low _ _, ?_, ?_, ?_⟩
  · rw [extractLsb'_append_above _ _ _ (by decide)]
    exact extractLsb'_append_low _ _
  · iterate 2 rw [extractLsb'_append_above _ _ _ (by decide)]
    exact extractLsb'_append_low _ _
  · iterate 3 rw [extractLsb'_append_above _ _ _ (by decide)]
    exact BitVec.extractLsb'_eq_self

/-- The fields of `WORK`, from bit 0 up (R43). -/
theorem sr4_fields (s : State) :
    s.sr4.extractLsb' 0 9 = s.cur ∧ s.sr4.extractLsb' 9 8 = s.acc ∧ s.sr4.extractLsb' 17 9 = s.hcnt ∧
    s.sr4.extractLsb' 26 14 = 0#14 := by
  rw [State.sr4]
  refine ⟨extractLsb'_append_low _ _, ?_, ?_, ?_⟩
  · rw [extractLsb'_append_above _ _ _ (by decide)]
    exact extractLsb'_append_low _ _
  · iterate 2 rw [extractLsb'_append_above _ _ _ (by decide)]
    exact extractLsb'_append_low _ _
  · iterate 3 rw [extractLsb'_append_above _ _ _ (by decide)]
    exact BitVec.extractLsb'_eq_self

/-- The status registers of the reset state (R41 to R43). -/
theorem stdata_reset :
    State.reset.stdata 0#3 = 0#40 ∧ State.reset.stdata 1#3 = 0x0004000000#40 ∧ State.reset.stdata 2#3 = 0#40 ∧
      State.reset.stdata 3#3 = 0#40 ∧ State.reset.stdata 4#3 = 0#40 := by decide

/-- Settles O9, by the fields of the registers that hold more than one. -/
theorem statusRegisterFields : Obligations.StatusRegisterFields := by
  intro s
  obtain ⟨hphase, hrootv, herr, hhst, hdone, hnbits, h15, hunique, h25⟩ := sr0_fields s
  exact ⟨⟨hphase, hrootv, herr, hhst, (Bool.eq_iff_iff.1 hdone).trans flagDone_iff, hnbits, h15, hunique, h25⟩, sr1_fields s, rfl, rfl,
    sr4_fields s, rfl, rfl, rfl, stdata_reset⟩

/-! ## The phase table -/

/-- A command the phase table does not allow raises SEQ (R31). -/
theorem exec_eq_seq_of_not_legal {i : Instr} (he : s.err = .noFault) (h : legal i s = false) :
    exec i s = .next { s with err := .seq } := by
  cases i with
  | nop | clr | ioerr => cases h
  | recSym sym => exact execRec_eq_next_iff.2 (.inl ⟨he, .inr ⟨by simpa [legal] using h, rfl⟩⟩)
  | hin b =>
    by_cases hp : s.phase = .freq ∧ s.hst ≠ .done
    · obtain ⟨hi, ht⟩ : s.hst = .idle ∧ ¬s.total = 0#40 := by simpa [legal, hp.1, hp.2] using h
      exact (execHin_idle he hp.1 hi).trans (if_neg ht)
    · exact execHin_seq he hp
  | seed =>
    by_cases hp : s.phase = .freq
    · exact execSeed_eq_next_iff.2 (.inl ⟨he, .inl ⟨hp, .inr ⟨by simpa [legal, hp] using h, rfl⟩⟩⟩)
    · exact execSeed_eq_next_iff.2 (.inl ⟨he, .inr ⟨hp, rfl⟩⟩)
  | merge => exact execMerge_eq_next_iff.2 (.inl ⟨he, .inr ⟨by simpa [legal] using h, rfl⟩⟩)
  | build =>
    by_cases hp : s.phase = .freq
    · exact execBuild_eq_next_iff.2 (.inl ⟨he, .inl ⟨hp, .inr ⟨by simpa [legal, hp] using h, rfl⟩⟩⟩)
    · exact execBuild_eq_next_iff.2 (.inl ⟨he, .inr ⟨hp, .inr ⟨by simpa [legal, hp] using h, rfl⟩⟩⟩)
  | gen => exact execGen_eq_next_iff.2 (.inl ⟨he, .inr ⟨by simpa [legal] using h, rfl⟩⟩)
  | hout => exact execHout_eq_next_iff.2 (.inl ⟨he, .inr ⟨by simpa [legal] using h, rfl⟩⟩)
  | put sym => exact execPut_eq_next_iff.2 (.inl ⟨he, .inr ⟨by simpa [legal] using h, rfl⟩⟩)
  | flush => exact execFlush_eq_next_iff.2 (.inl ⟨he, .inr ⟨by simpa [legal] using h, rfl⟩⟩)
  | get b => exact execGet_eq_next_iff.2 (.inl ⟨he, .inr ⟨by simpa [legal] using h, rfl⟩⟩)
  | drep =>
    by_cases hp : s.phase = .tree ∨ s.phase = .coded
    · exact execDrep_eq_next_iff.2 (.inl ⟨he, .inl ⟨hp, .inr ⟨by simpa [legal, hp] using h, rfl⟩⟩⟩)
    · exact execDrep_eq_next_iff.2 (.inl ⟨he, .inr ⟨hp, rfl⟩⟩)

theorem BuilderFrame.err_eq (h : BuilderFrame s t) : t.err = s.err := by
  obtain ⟨_, _, _, _, _, _, _, rfl⟩ := h; rfl

/-- The loop of `GET` raises CORRUPT or nothing (R228). -/
theorem takeBits_err {bits : List Bool} (h : takeBits bits s = .next t) : t.err = s.err ∨ t.err = .corrupt := by
  induction bits generalizing s with
  | nil => cases h; exact .inl rfl
  | cons c rest ih =>
    by_cases hd : s.decoded = s.total
    · rw [takeBits_done hd] at h; cases h; exact .inl rfl
    · simp only [takeBits, if_neg hd, andThen_eq_next_iff, State.readNode_eq_next_iff] at h
      obtain ⟨n, -, h⟩ := h
      cases n with
      | leaf sym w => cases h; exact .inr rfl
      | internal w l r =>
        obtain ⟨u, hu, ht⟩ := andThen_eq_next_iff.1 h
        have hue : u.err = s.err := by rw [moveTo_frame hu]
        exact hue ▸ ih ht

/-- A header byte the phase table allows is taken, or is CORRUPT (R194, R198). -/
theorem execHin_err_ne_seq {b : Byte} (he : s.err = .noFault) (hl : legal (.hin b) s = true) (h : execHin b s = .next t) :
    t.err ≠ .seq := by
  have hlive : s.err ≠ .seq := by simp [he]
  obtain ⟨⟨hp, hd⟩, ht⟩ : (s.phase = .freq ∧ s.hst ≠ .done) ∧ (s.hst ≠ .idle ∨ s.total = 0#40) := by simpa [legal] using hl
  cases hh : s.hst with
  | idle => rw [execHin_idle he hp hh, if_pos (by simpa [hh] using ht)] at h; cases h; exact hlive
  | sym => rw [execHin_sym he hp hh] at h; cases h; exact hlive
  | f3 => rw [execHin_f3 he hp hh] at h; cases h; exact hlive
  | f2 => rw [execHin_f2 he hp hh] at h; cases h; exact hlive
  | f1 => rw [execHin_f1 he hp hh] at h; cases h; exact hlive
  | f0 =>
    rw [execHin_f0 he hp hh] at h
    split at h
    · cases h; exact hlive
    · cases h; simp
  | done => exact absurd hh hd

/-- A command the phase table allows does not raise SEQ (R31). -/
theorem err_ne_seq_of_legal {i : Instr} (he : s.err = .noFault) (hl : legal i s = true) (h : exec i s = .next t) : t.err ≠ .seq := by
  have hlive : s.err ≠ .seq := by simp [he]
  cases i with
  | nop => cases h; exact hlive
  | clr => cases h; simp [State.reset]
  | recSym sym =>
    have hp : s.phase = .freq ∧ s.hst = .idle := by simpa [legal] using hl
    rcases execRec_eq_next_iff.1 h with ⟨-, ⟨-, ⟨-, rfl⟩ | ⟨-, rfl⟩⟩ | ⟨hn, -⟩⟩ | ⟨hn, -⟩
    · exact hlive
    · simp
    · exact absurd hp hn
    · exact absurd he hn
  | hin b => exact execHin_err_ne_seq he hl h
  | seed =>
    have hp : s.phase = .freq ∧ (s.hst = .idle ∨ s.hst = .done) := by simpa [legal] using hl
    have hb : seedBody s = .next t := by simpa [he, hp] using execSeed_eq_next_iff.1 h
    rwa [(seedBody_builderFrame hb).err_eq]
  | merge =>
    have hp : s.phase = .seeded := by simpa [legal] using hl
    have hb : mergeStep s = .next t := by simpa [he, hp] using execMerge_eq_next_iff.1 h
    rwa [(mergeStep_builderFrame hb).err_eq]
  | build =>
    have hp : (s.phase = .freq ∧ (s.hst = .idle ∨ s.hst = .done)) ∨ s.phase = .seeded := by simpa [legal] using hl
    rcases hp with hp | hp
    · obtain ⟨u, hu, ht⟩ : ∃ u, seedBody s = .next u ∧ mergeAll u = .next t := by simpa [he, hp] using execBuild_eq_next_iff.1 h
      rwa [(mergeAll_builderFrame ht).err_eq, (seedBody_builderFrame hu).err_eq]
    · have hb : mergeAll s = .next t := by simpa [he, hp] using execBuild_eq_next_iff.1 h
      rwa [(mergeAll_builderFrame hb).err_eq]
  | gen =>
    have hp : s.phase = .tree := by simpa [legal] using hl
    rcases execGen_eq_next_iff.1 h with ⟨-, ⟨-, ⟨-, _, -, rfl⟩ | ⟨-, rfl⟩⟩ | ⟨hn, -⟩⟩ | ⟨-, rfl⟩
    · exact hlive
    · exact hlive
    · exact absurd hp hn
    · exact hlive
  | hout =>
    have hp : s.phase = .tree ∨ s.phase = .coded := by simpa [legal] using hl
    have hb : t = s.emit (headerBytes s) := by simpa [he, hp] using execHout_eq_next_iff.1 h
    rwa [hb]
  | put sym =>
    have hp : s.phase = .coded := by simpa [legal] using hl
    rcases execPut_eq_next_iff.1 h with ⟨-, ⟨-, ⟨-, ⟨-, c, -, rfl⟩ | ⟨-, rfl⟩⟩ | ⟨-, rfl⟩⟩ | ⟨hn, -⟩⟩ | ⟨-, rfl⟩
    · rwa [appendBits_frame]
    · exact hlive
    · simp
    · exact absurd hp hn
    · exact hlive
  | flush =>
    have hp : s.phase = .coded := by simpa [legal] using hl
    rcases execFlush_eq_next_iff.1 h with ⟨-, ⟨-, ⟨-, rfl⟩ | ⟨-, rfl⟩⟩ | ⟨hn, -⟩⟩ | ⟨-, rfl⟩
    · exact hlive
    · exact hlive
    · exact absurd hp hn
    · exact hlive
  | get b =>
    have hp : s.phase = .tree ∨ s.phase = .coded := by simpa [legal] using hl
    have hb : takeBits (bitsMsbFirst b) s = .next t := by simpa [he, hp] using execGet_eq_next_iff.1 h
    rcases takeBits_err hb with h' | h' <;> simp [h', he]
  | drep =>
    have hp : (s.phase = .tree ∨ s.phase = .coded) ∧ s.unique ≤ 1#9 := by simpa [legal] using hl
    rcases execDrep_eq_next_iff.1 h with ⟨-, ⟨-, ⟨-, ⟨-, h⟩ | ⟨-, rfl⟩⟩ | ⟨hn, -⟩⟩ | ⟨hn, -⟩⟩ | ⟨-, rfl⟩
    · obtain ⟨sym, w, -, rfl⟩ := repeatRoot_eq_next_iff.1 h
      exact hlive
    · exact hlive
    · exact absurd hp.2 hn
    · exact absurd hp.1 hn
    · exact hlive
  | ioerr =>
    rcases execIoerr_eq_next_iff.1 h with ⟨-, rfl⟩ | ⟨-, rfl⟩
    · simp
    · exact hlive

/-- Settles O10: a command that is not allowed raises SEQ, one that is allowed does not. -/
theorem phaseTableDecidesSeq : Obligations.PhaseTableDecidesSeq :=
  fun _ _ he => ⟨exec_eq_seq_of_not_legal he, fun hl _ h => err_ne_seq_of_legal he hl h⟩

end Sys2Proof.Machine
end

section
/-! PROOF. `OUT` only grows and no command reads it (R44). -/

namespace Sys2Proof.Machine

variable {s t : State}

/-- The state with another record in place of `OUT`. -/
def State.withOut (s : State) (record : List Byte) : State := { s with out := record }

/-- A computation that appends to `OUT` and does not read it: with any other record in its place the same bytes are appended and
everything else is the same (R44). -/
def OutBlind (f : State → Result State) : Prop :=
  ∀ s t, f s = .next t → ∃ appended, t.out = s.out ++ appended ∧
    ∀ record, f (s.withOut record) = .next (t.withOut (record ++ appended))

/-- A condition that does not read `OUT`. -/
def OutFree (p : State → Prop) : Prop := ∀ (s : State) (record : List Byte), p (s.withOut record) ↔ p s

/-! ## Computations made of such computations -/

/-- An update of the state that leaves `OUT` alone and does not read it. -/
theorem OutBlind.update {g : State → State} (hout : ∀ s, (g s).out = s.out := by intros; rfl)
    (hg : ∀ s record, g (s.withOut record) = (g s).withOut record := by intros; rfl) : OutBlind fun s => .next (g s) := by
  rintro s _ ⟨⟩
  exact ⟨[], by rw [hout, List.append_nil], fun record => by simp only [hg, List.append_nil]⟩

/-- What blindness says of one run. -/
theorem OutBlind.apply {f : State → Result State} (hf : OutBlind f) (h : f s = .next t) :
    ∃ appended, t.out = s.out ++ appended ∧ ∀ record, f (s.withOut record) = .next (t.withOut (record ++ appended)) := hf s t h

theorem OutBlind.next : OutBlind .next := .update (g := id) (fun _ => rfl) fun _ _ => rfl

theorem OutBlind.raise (c : ErrCode) : OutBlind (raise c) := .update

/-- In a sequence the second part appends after the first. -/
theorem OutBlind.andThen {f g : State → Result State} (hf : OutBlind f) (hg : OutBlind g) : OutBlind fun s => andThen (f s) g := by
  intro s t h
  obtain ⟨u, hu, ht⟩ := andThen_eq_next_iff.1 h
  obtain ⟨a, ha, hfa⟩ := hf s u hu
  obtain ⟨b, hb, hgb⟩ := hg u t ht
  refine ⟨a ++ b, by rw [hb, ha, List.append_assoc], fun record => ?_⟩
  simp only [hfa, andThen_next, ← List.append_assoc]
  exact hgb (record ++ a)

theorem OutBlind.ite {p : State → Prop} [DecidablePred p] {f g : State → Result State} (hf : OutBlind f) (hg : OutBlind g)
    (hp : OutFree p := by intro _ _; rfl) : OutBlind fun s => if p s then f s else g s := by
  intro s t h
  by_cases hs : p s
  · simp only [hp s, hs, if_true] at h ⊢
    exact hf s t h
  · simp only [hp s, hs, if_false] at h ⊢
    exact hg s t h

theorem OutBlind.require {p : State → Prop} [DecidablePred p] {c : ErrCode} {f : State → Result State} (hf : OutBlind f)
    (hp : OutFree p := by intro _ _; rfl) : OutBlind fun s => require (p s) c s (f s) := .ite hf (.raise c) hp

theorem OutBlind.unlessFaulted {f : State → Result State} (hf : OutBlind f) : OutBlind fun s => unlessFaulted s (f s) :=
  .ite hf .next

/-- A read of the state that does not depend on `OUT`, and what follows on its value. -/
theorem OutBlind.andThen_read {α : Type} {r : State → Result α} {f : α → State → Result State} (hf : ∀ a, OutBlind (f a))
    (hr : ∀ s record, r (s.withOut record) = r s := by intros; rfl) : OutBlind fun s => Machine.andThen (r s) fun a => f a s := by
  intro s t h
  obtain ⟨a, ha, ht⟩ := andThen_eq_next_iff.1 h
  simpa only [hr, ha, andThen_next] using hf a s t ht

/-! ## The commands -/

/-- The parser's position is not read from `OUT`; at each position one effect remains (R194). -/
theorem outBlind_execHin (b : Byte) : OutBlind (execHin b) := by
  refine .unlessFaulted <| .require fun s t h => ?_
  have hr record : (s.withOut record).hst = s.hst := rfl
  cases hh : s.hst with simp only [hr, hh] at h ⊢
  | idle =>
    exact OutBlind.apply (f := fun s => require (s.total = 0#40) .seq s (.next { s with hcnt := declaredCount b, hst := .sym }))
      (.require .update) h
  | sym | f3 | f2 | f1 => exact OutBlind.apply .update h
  | f0 =>
    exact OutBlind.apply (.require (p := fun s => withByte0 s.hfrq b ≠ 0#32) <|
      .require (p := fun s => s.freqAt s.hsym = 0#32) .update) h
  | done => exact OutBlind.apply (.raise _) h

theorem insertAt_withOut (stops : Node → Node → Result Bool) (s : State) (record : List Byte) (n : NodeIdx) (new : Node) (l : List NodeIdx) :
    insertAt stops (s.withOut record) n new l = insertAt stops s n new l := by
  induction l with
  | nil => rfl
  | cons k rest ih => simp only [insertAt, ih]; rfl

theorem walk_withOut (s : State) (record : List Byte) (depth : Nat) (i : NodeIdx) (p : List Bool) (codes : Table Code) :
    walk (s.withOut record) depth i p codes = walk s depth i p codes := by
  induction depth generalizing i p codes with
  | zero => rfl
  | succ d ih => simp only [walk, ih]; rfl

theorem outBlind_insertLeaf (n : NodeIdx) : OutBlind (insertLeaf n) :=
  .andThen_read fun _ => .andThen_read (fun _ => .update) fun s record => insertAt_withOut _ s record _ _ _

theorem outBlind_writeNode (i : NodeIdx) (n : State → Node) (hn : ∀ s record, n (s.withOut record) = n s) :
    OutBlind fun s => s.writeNode i (n s) := by
  intro s t h
  obtain ⟨hi, rfl⟩ := State.writeNode_eq_next_iff.1 h
  exact ⟨[], (List.append_nil _).symm, fun record => by
    rw [List.append_nil]
    exact State.writeNode_eq_next_iff.2 ⟨hi, by rw [hn]; rfl⟩⟩

theorem outBlind_seedSymbol (sym : Symbol) : OutBlind (seedSymbol sym) :=
  .ite .next (.andThen (outBlind_writeNode _ _ fun _ _ => rfl) (outBlind_insertLeaf _))

theorem outBlind_seedLoop (syms : List Symbol) : OutBlind (seedLoop syms) := by
  induction syms with
  | nil => exact .next
  | cons sym rest ih => exact .andThen (outBlind_seedSymbol sym) ih

@[simp] theorem State.withOut_pl (s : State) (record : List Byte) : (s.withOut record).pl = s.pl := rfl

theorem treeComplete_withOut (s : State) (record : List Byte) :
    treeComplete (s.withOut record) = (treeComplete s).withOut record := by
  simp only [treeComplete, State.withOut_pl]
  split <;> rfl

theorem completeIfSingle_withOut (s : State) (record : List Byte) :
    completeIfSingle (s.withOut record) = (completeIfSingle s).withOut record := by
  simp only [completeIfSingle, State.withOut_pl, treeComplete_withOut]
  split <;> rfl

theorem finishSeeding_withOut (s : State) (record : List Byte) :
    finishSeeding (s.withOut record) = (finishSeeding s).withOut record := by
  simp only [finishSeeding, State.withOut_pl, treeComplete_withOut]
  split <;> rfl

theorem outBlind_seedBody : OutBlind seedBody :=
  .andThen (outBlind_seedLoop _) (.update finishSeeding_out finishSeeding_withOut)

theorem outBlind_mergeStep : OutBlind mergeStep := by
  intro s t h
  obtain ⟨l, r, rest, nl, nr, pl, hpl, hl, hr, hlt, hins, rfl⟩ := mergeStep_eq_next_iff.1 h
  refine ⟨[], by rw [completeIfSingle_out, List.append_nil]; rfl, fun record => ?_⟩
  rw [List.append_nil, ← completeIfSingle_withOut]
  exact mergeStep_eq_next_iff.2 ⟨l, r, rest, nl, nr, pl, hpl, hl, hr, hlt, (insertAt_withOut _ _ record _ _ _).trans hins, rfl⟩

theorem outBlind_mergeLoop (turns : Nat) : OutBlind (mergeLoop turns) := by
  induction turns with
  | zero => exact .ite (fun _ _ h => by cases h) .next
  | succ n ih => exact .ite (.andThen outBlind_mergeStep ih) .next

theorem outBlind_mergeAll : OutBlind mergeAll := fun s t h => outBlind_mergeLoop s.pl.length s t h

theorem outBlind_moveTo (child : NodeIdx) : OutBlind (moveTo child) := by
  refine .andThen_read fun n => ?_
  cases n with
  | leaf sym w => intro s t h; cases h; exact ⟨[sym], rfl, fun _ => rfl⟩
  | internal w l r => exact .update

theorem outBlind_takeBits (bits : List Bool) : OutBlind (takeBits bits) := by
  induction bits with
  | nil => exact .next
  | cons c rest ih =>
    refine .ite .next (.andThen_read fun n => ?_)
    cases n with
    | leaf sym w => exact .raise _
    | internal w l r => exact .andThen (outBlind_moveTo _) ih

theorem outBlind_repeatRoot : OutBlind repeatRoot := by
  refine .andThen_read fun n => ?_
  cases n with
  | leaf sym w => intro s t h; cases h; exact ⟨_, rfl, fun _ => rfl⟩
  | internal w l r => intro s t h; cases h

theorem outBlind_appendBit (c : Bool) : OutBlind fun s => .next (appendBit s c) := by
  rintro s _ ⟨⟩
  by_cases hn : s.nbits = 7#3
  · rw [appendBit_full c hn]
    exact ⟨[setBit s.acc 0 c], rfl, fun record => congrArg _ (appendBit_full (s := s.withOut record) c hn)⟩
  · rw [appendBit_room c hn]
    refine ⟨[], (List.append_nil _).symm, fun record => ?_⟩
    rw [List.append_nil]
    exact congrArg _ (appendBit_room (s := s.withOut record) c hn)

theorem outBlind_appendBits (bits : List Bool) : OutBlind fun s => .next (appendBits bits s) := by
  induction bits with
  | nil => exact .next
  | cons c rest ih => exact .andThen (outBlind_appendBit c) ih

/-- No command but `CLR` reads `OUT` or removes from it. -/
theorem outBlind_exec {i : Instr} (hi : i ≠ .clr) : OutBlind (exec i) := by
  cases i with
  | clr => exact absurd rfl hi
  | nop => exact .next
  | recSym sym => exact .unlessFaulted <| .require <| .require <| .update
  | hin b => exact outBlind_execHin b
  | seed => exact .unlessFaulted <| .require <| .require outBlind_seedBody
  | merge => exact .unlessFaulted <| .require outBlind_mergeStep
  | build =>
    exact .unlessFaulted <| .ite (.require (.andThen outBlind_seedBody outBlind_mergeAll)) (.require outBlind_mergeAll)
  | gen =>
    exact .unlessFaulted <| .require <| 
      .ite (.andThen_read (fun _ => .update) fun s record => walk_withOut s record _ _ _ _) .update
  | hout => exact .unlessFaulted <| .require fun s t h => by cases h; exact ⟨headerBytes s, rfl, fun _ => rfl⟩
  | put sym => exact .unlessFaulted <| .require <| .require <| .ite (.andThen_read fun c => outBlind_appendBits c.bits) .next
  | flush => exact .unlessFaulted <| .require <| .ite .next fun s t h => by cases h; exact ⟨[s.acc], rfl, fun _ => rfl⟩
  | get b => exact .unlessFaulted <| .require <| outBlind_takeBits _
  | drep => exact .unlessFaulted <| .require <| .require <| .ite outBlind_repeatRoot .next
  | ioerr => exact .unlessFaulted (.raise _)

/-- Only the five emitting commands change `OUT` (R44). -/
theorem emitter_of_out_ne {i : Instr} (hi : i ≠ .clr) (h : exec i s = .next t) (ho : t.out ≠ s.out) :
    i = .hout ∨ (∃ sym, i = .put sym) ∨ i = .flush ∨ (∃ b, i = .get b) ∨ i = .drep := by
  cases i with
  | clr => exact absurd rfl hi
  | nop => cases h; exact absurd rfl ho
  | recSym sym => obtain ⟨_, _, _, _, rfl⟩ := execRec_frame h; exact absurd rfl ho
  | hin b => obtain ⟨_, _, _, _, _, _, _, _, rfl⟩ := execHin_frame h; exact absurd rfl ho
  | seed => obtain ⟨_, _, _, _, _, _, _, rfl⟩ | ⟨_, rfl⟩ := execSeed_frame h <;> exact absurd rfl ho
  | merge => obtain ⟨_, _, _, _, _, _, _, rfl⟩ | ⟨_, rfl⟩ := execMerge_frame h <;> exact absurd rfl ho
  | build => obtain ⟨_, _, _, _, _, _, _, rfl⟩ | ⟨_, rfl⟩ := execBuild_frame h <;> exact absurd rfl ho
  | gen => obtain ⟨_, _, _, rfl⟩ := execGen_frame h; exact absurd rfl ho
  | ioerr => obtain ⟨_, rfl⟩ := execIoerr_frame h; exact absurd rfl ho
  | hout => exact .inl rfl
  | put sym => exact .inr (.inl ⟨sym, rfl⟩)
  | flush => exact .inr (.inr (.inl rfl))
  | get b => exact .inr (.inr (.inr (.inl ⟨b, rfl⟩)))
  | drep => exact .inr (.inr (.inr (.inr rfl)))

/-- Settles O15: every command but `CLR` appends to `OUT` blindly, and its frame says when it appends. -/
theorem outOnlyGrowsAndIsNotRead : Obligations.OutOnlyGrowsAndIsNotRead := by
  refine ⟨fun s t h => ?_, fun s t rest hh h => ?_, fun i s t h hi => ⟨emitter_of_out_ne hi h, outBlind_exec hi s t h⟩⟩
  · cases h; rfl
  · rw [step_cons hh] at h; cases h; rfl

end Sys2Proof.Machine
end

section
/-! PROOF. Every step keeps the tables canonical (log 4) and the frequency invariants (R51). -/

namespace Sys2Proof.Machine

variable {s t : State}

/-- What waiting, every command, and a fault keep, whatever is left of the host's queue, every step keeps. -/
theorem step_preserves {P : State → Prop} (hhost : ∀ s rest, P s → P { s with host := rest })
    (herr : ∀ s c, P s → P { s with err := c }) (hexec : ∀ i s t, P s → exec i s = .next t → P t) (hs : P s)
    (h : step s = .next t) : P t := by
  rcases step_cases s with hw | ⟨i, rest, hx⟩ | ⟨rest, hx⟩
  · rw [hw] at h; cases h; exact hs
  · exact hexec i _ t (hhost s rest hs) (hx ▸ h)
  · obtain ⟨c, rfl⟩ := execIllFormed_frame (hx ▸ h)
    exact herr _ c (hhost s rest hs)

/-! ## The canonical form -/

/-- A header byte keeps the canonical form. -/
theorem HinEffect.wf {b : Byte} (h : HinEffect b s t) (hw : Memory.wf s) : Memory.wf t := by
  cases h with
  | stays | opens | advances => exact hw
  | commits => exact Memory.wf_commitEntry hw _

theorem seedSymbol_wf {sym : Symbol} (hw : Memory.wf s) (h : seedSymbol sym s = .next t) : Memory.wf t := by
  by_cases hs : s.freqAt sym = 0#32
  · rw [seedSymbol_absent hs] at h; cases h; exact hw
  · rw [seedSymbol, if_neg hs, andThen_eq_next_iff] at h
    obtain ⟨u, hu, ht⟩ := h
    obtain ⟨_, _, -, -, rfl⟩ := insertLeaf_eq_next_iff.1 ht
    have hwu : Memory.wf u := Memory.wf_writeNode hw hu
    exact hwu

theorem seedLoop_wf {syms : List Symbol} (hw : Memory.wf s) (h : seedLoop syms s = .next t) : Memory.wf t := by
  induction syms generalizing s with
  | nil => cases h; exact hw
  | cons sym rest ih =>
    obtain ⟨u, hu, ht⟩ := andThen_eq_next_iff.1 h
    exact ih (seedSymbol_wf hw hu) ht

theorem seedBody_wf (hw : Memory.wf s) (h : seedBody s = .next t) : Memory.wf t := by
  obtain ⟨u, hu, rfl⟩ := seedBody_eq_next_iff.1 h
  exact Memory.wf_congr (seedLoop_wf hw hu) (by simp) (by simp) (by simp)

theorem mergeStep_wf (hw : Memory.wf s) (h : mergeStep s = .next t) : Memory.wf t := by
  obtain ⟨l, r, rest, nl, nr, pl, -, -, -, hlt, -, rfl⟩ := mergeStep_eq_next_iff.1 h
  have hm : Memory.wf (mergedState s l r nl nr rest) := ⟨hw.1, Table.set_canonical hw.2.1 hlt rfl, hw.2.2⟩
  exact Memory.wf_congr hm (by simp) (by simp) (by simp)

theorem mergeAll_wf (hw : Memory.wf s) (h : mergeAll s = .next t) : Memory.wf t :=
  mergeLoop_induction (fun _ _ => mergeStep_wf) h hw

/-- Every command keeps the canonical form of the tables. -/
theorem exec_wf {i : Instr} (hw : Memory.wf s) (h : exec i s = .next t) : Memory.wf t := by
  cases i with
  | nop => cases h; exact hw
  | clr => cases h; exact Memory.wf_clearBlock s
  | recSym sym =>
    rcases execRec_eq_next_iff.1 h with ⟨-, ⟨-, ⟨-, rfl⟩ | ⟨-, rfl⟩⟩ | ⟨-, rfl⟩⟩ | ⟨-, rfl⟩
    · exact Memory.wf_countSymbol hw sym
    all_goals exact hw
  | hin b => exact (hinEffect_of_execHin h).wf hw
  | seed =>
    rcases execSeed_eq_next_iff.1 h with ⟨-, ⟨-, ⟨-, h⟩ | ⟨-, rfl⟩⟩ | ⟨-, rfl⟩⟩ | ⟨-, rfl⟩
    · exact seedBody_wf hw h
    all_goals exact hw
  | merge =>
    rcases execMerge_eq_next_iff.1 h with ⟨-, ⟨-, h⟩ | ⟨-, rfl⟩⟩ | ⟨-, rfl⟩
    · exact mergeStep_wf hw h
    all_goals exact hw
  | build =>
    rcases execBuild_eq_next_iff.1 h with
      ⟨-, ⟨-, ⟨-, u, hu, h⟩ | ⟨-, rfl⟩⟩ | ⟨-, ⟨-, h⟩ | ⟨-, rfl⟩⟩⟩ | ⟨-, rfl⟩
    · exact mergeAll_wf (seedBody_wf hw hu) h
    · exact hw
    · exact mergeAll_wf hw h
    all_goals exact hw
  | gen =>
    rcases execGen_eq_next_iff.1 h with ⟨-, ⟨-, ⟨-, codes, hc, rfl⟩ | ⟨-, rfl⟩⟩ | ⟨-, rfl⟩⟩ | ⟨-, rfl⟩
    · exact ⟨hw.1, hw.2.1, walk_canonical hw.2.2 hc⟩
    all_goals exact hw
  | hout => obtain ⟨_, _, rfl⟩ := execHout_frame h; exact hw
  | put sym => obtain ⟨_, _, _, _, rfl⟩ := execPut_frame h; exact hw
  | flush => obtain ⟨_, _, _, _, rfl⟩ := execFlush_frame h; exact hw
  | get b => obtain ⟨_, _, _, _, rfl⟩ := execGet_frame h; exact hw
  | drep => obtain ⟨_, _, _, rfl⟩ := execDrep_frame h; exact hw
  | ioerr => obtain ⟨_, rfl⟩ := execIoerr_frame h; exact hw

/-- Settles O49: every command keeps the canonical form, and the queue and `ERR` are no tables. -/
theorem stepKeepsTablesCanonical : Obligations.StepKeepsTablesCanonical := fun _ _ hw h =>
  step_preserves (P := Memory.wf) (fun _ _ hs => hs) (fun _ _ hs => hs) (fun _ _ _ => exec_wf) hw h

/-! ## The frequency invariants -/

theorem countSum_congr (h : t.freq = s.freq) : countSum t = countSum s := by
  simp only [countSum, State.freqAt_congr h]

theorem presentSymbols_congr (h : t.freq = s.freq) : presentSymbols t = presentSymbols s := by
  simp only [presentSymbols, State.freqAt_congr h]

/-- The frequency invariants speak of the table, its two registers, the parser and, for an open header, of phase FREQ. -/
theorem FreqInv.congr (h : FreqInv s) (hf : t.freq = s.freq) (ht : t.total = s.total) (hu : t.unique = s.unique)
    (hh : t.hst = s.hst) (hc : t.hcnt = s.hcnt) (hp : t.phase ≠ .freq → s.hst = .idle ∨ s.hst = .done) : FreqInv t where
  total_eq := by rw [countSum_congr hf, ht]; exact h.total_eq
  unique_eq := by rw [presentSymbols_congr hf, hu]; exact h.unique_eq
  header_idle := by rw [hh, hc]; exact h.header_idle
  header_count := by rw [hh, hc]; exact h.header_count
  header_progress := by rw [hh, hc, hu]; exact h.header_progress
  header_closed := by rw [hh]; exact hp

/-- With no count there is no present symbol: `UNIQUE >= 1` whenever `TOTAL >= 1`, and conversely (R51). -/
theorem FreqInv.unique_eq_zero_iff (h : FreqInv s) : s.unique.toNat = 0 ↔ s.total.toNat = 0 := by
  rw [← h.unique_eq, ← h.total_eq, List.length_eq_zero_iff, countSum, List.sum_eq_zero_iff]
  simp [presentSymbols, ← BitVec.toNat_inj]

theorem freqInv_reset : FreqInv State.reset where
  total_eq := by decide +kernel
  unique_eq := by decide +kernel
  header_idle _ := rfl
  header_count h := absurd rfl h
  header_progress h := absurd rfl h
  header_closed h := absurd rfl h

theorem FreqInv.clearBlock (s : State) : FreqInv (clearBlock s) :=
  freqInv_reset.congr rfl rfl rfl rfl rfl fun _ => .inl rfl

/-- A write of a non-zero count to `FREQ` changes the sum by the difference. -/
theorem countSum_of_freq_eq {sym : Symbol} {v : Count} (hv : v ≠ 0#32) (ht : t.freq = (s.setFreq sym v).freq) :
    countSum t + (s.freqAt sym).toNat = countSum s + v.toNat := by
  have hself : t.freqAt sym = v := by rw [State.freqAt_congr ht, State.freqAt_setFreq_self s sym hv]
  rw [← hself]
  exact countSum_update sym fun x hx => by rw [State.freqAt_congr ht, State.freqAt_setFreq_ne s v hx]

/-- A symbol counted for the first time is one more present symbol. -/
theorem presentSymbols_length_of_first {sym : Symbol} {v : Count} (hv : v ≠ 0#32) (h0 : s.freqAt sym = 0#32)
    (ht : t.freq = (s.setFreq sym v).freq) : (presentSymbols t).length = (presentSymbols s).length + 1 := by
  refine length_filter_allSymbols_update _ _ sym (fun x hx => ?_) (by simp [h0]) ?_
  · rw [State.freqAt_congr ht, State.freqAt_setFreq_ne s v hx]
  · rw [State.freqAt_congr ht, State.freqAt_setFreq_self s sym hv]; simpa using hv

/-- A symbol counted again is present as before. -/
theorem presentSymbols_of_again {sym : Symbol} {v : Count} (hv : v ≠ 0#32) (h0 : s.freqAt sym ≠ 0#32)
    (ht : t.freq = (s.setFreq sym v).freq) : presentSymbols t = presentSymbols s := by
  refine List.filter_congr fun x _ => ?_
  rw [State.freqAt_congr ht]
  by_cases hx : x = sym
  · subst hx; rw [State.freqAt_setFreq_self s x hv, bne_iff_ne.2 hv, bne_iff_ne.2 h0]
  · rw [State.freqAt_setFreq_ne s v hx]

/-- `REC` below the largest count keeps the frequency invariants (R131). -/
theorem FreqInv.countSymbol (h : FreqInv s) (hp : s.phase = .freq) (hh : s.hst = .idle) {sym : Symbol}
    (hm : s.freqAt sym ≠ Config.freqMax) : FreqInv (countSymbol sym s) := by
  have hlt : (s.freqAt sym).toNat < 2 ^ 32 - 1 := by
    have := (s.freqAt sym).isLt
    have hne : (s.freqAt sym).toNat ≠ 2 ^ 32 - 1 := fun e => hm (BitVec.eq_of_toNat_eq e)
    omega
  have hadd : (s.freqAt sym + 1#32).toNat = (s.freqAt sym).toNat + 1 := by
    rw [BitVec.toNat_add, BitVec.toNat_ofNat]; omega
  have hv : s.freqAt sym + 1#32 ≠ 0#32 := fun e => by rw [e] at hadd; simp at hadd
  have hsum := countSum_of_freq_eq (t := Machine.countSymbol sym s) hv rfl
  have hle := countSum_le (Machine.countSymbol sym s)
  exact
    { total_eq := by
        rw [countSymbol_total, BitVec.toNat_add, ← h.total_eq, BitVec.toNat_ofNat]
        omega
      unique_eq := by
        rw [countSymbol_unique]
        split
        · next h0 =>
          have hlen := presentSymbols_length_of_first (t := Machine.countSymbol sym s) hv h0 rfl
          have := presentSymbols_length_le (Machine.countSymbol sym s)
          rw [BitVec.toNat_add, ← h.unique_eq, BitVec.toNat_ofNat]
          omega
        · next h0 => rw [presentSymbols_of_again (t := Machine.countSymbol sym s) hv h0 rfl, h.unique_eq]
      header_idle := h.header_idle
      header_count := h.header_count
      header_progress := fun hn => absurd hh hn
      header_closed := fun hn => absurd hp hn }

/-- The fifth byte of an accepted entry keeps the frequency invariants (R197). -/
theorem FreqInv.commitEntry (h : FreqInv s) (hp : s.phase = .freq) (hh : s.hst = .f0) {f : Count} (hf : f ≠ 0#32)
    (h0 : s.freqAt s.hsym = 0#32) : FreqInv (commitEntry f s) := by
  have hni : s.hst ≠ .idle := by simp [hh]
  have hsum := countSum_of_freq_eq (t := Machine.commitEntry f s) hf rfl
  have hle := countSum_le (Machine.commitEntry f s)
  have hlen := presentSymbols_length_of_first (t := Machine.commitEntry f s) hf h0 rfl
  have hcnt := h.header_count hni
  have hlt : s.unique.toNat < s.hcnt.toNat := by
    obtain ⟨hle, hdone⟩ := h.header_progress hni
    have hne : s.unique ≠ s.hcnt := fun e => by simpa [hh] using hdone.1 e
    have : s.unique.toNat ≠ s.hcnt.toNat := fun e => hne (BitVec.eq_of_toNat_eq e)
    rw [BitVec.le_def] at hle
    omega
  have hu : (s.unique + 1#9).toNat = s.unique.toNat + 1 := by
    rw [BitVec.toNat_add, BitVec.toNat_ofNat]; omega
  exact
    { total_eq := by
        rw [h0, h.total_eq] at hsum
        rw [commitEntry_total, BitVec.toNat_add, BitVec.toNat_setWidth]
        have := f.isLt
        simp only [BitVec.toNat_ofNat] at hsum
        omega
      unique_eq := by rw [hlen, commitEntry_unique, hu, h.unique_eq]
      header_idle := by rw [commitEntry_hst]; split <;> simp
      header_count := fun _ => hcnt
      header_progress := fun _ => by
        rw [commitEntry_unique, commitEntry_hcnt, commitEntry_hst, BitVec.le_def, hu]
        refine ⟨hlt, ?_⟩
        split <;> simp_all
      header_closed := fun hn => absurd hp hn }

/-- A header byte keeps the frequency invariants. -/
theorem HinEffect.freqInv {b : Byte} (h : HinEffect b s t) (hs : FreqInv s) : FreqInv t := by
  cases h with
  | stays => exact hs.congr rfl rfl rfl rfl rfl hs.header_closed
  | opens hp hh ht =>
    have hcnt : (declaredCount b).toNat = b.toNat + 1 := by
      have := b.isLt
      simp only [declaredCount, BitVec.toNat_add, BitVec.toNat_setWidth, BitVec.toNat_ofNat]
      omega
    have hu : s.unique.toNat = 0 := hs.unique_eq_zero_iff.2 (by rw [ht]; rfl)
    have := b.isLt
    exact
      { total_eq := hs.total_eq
        unique_eq := hs.unique_eq
        header_idle := fun hn => by cases hn
        header_count := fun _ => by rw [hcnt]; omega
        header_progress := fun _ => by
          have hne : s.unique ≠ declaredCount b := fun e => by rw [e] at hu; omega
          simp only [BitVec.le_def, hu, hne, false_iff]
          exact ⟨Nat.zero_le _, by simp⟩
        header_closed := fun hn => absurd hp hn }
  | advances hp hi hd sym f h hi' hd' =>
    obtain ⟨hle, hdone⟩ := hs.header_progress hi
    exact
      { total_eq := hs.total_eq
        unique_eq := hs.unique_eq
        header_idle := fun hn => absurd hn hi'
        header_count := fun _ => hs.header_count hi
        header_progress := fun _ => ⟨hle, iff_of_false (fun e => hd (hdone.1 e)) hd'⟩
        header_closed := fun hn => absurd hp hn }
  | commits hp hh hf h0 => exact hs.commitEntry hp hh hf h0

/-- The builder's fields are not the frequency invariants'; that the header is closed is the builder's premise. -/
theorem BuilderFrame.freqInv (h : BuilderFrame s t) (hs : FreqInv s) (hh : s.hst = .idle ∨ s.hst = .done) : FreqInv t := by
  obtain ⟨_, _, _, _, _, _, _, rfl⟩ := h
  exact hs.congr rfl rfl rfl rfl rfl fun _ => hh

/-- Every command keeps the frequency invariants. -/
theorem exec_freqInv {i : Instr} (hs : FreqInv s) (h : exec i s = .next t) : FreqInv t := by
  cases i with
  | nop => cases h; exact hs
  | clr => cases h; exact FreqInv.clearBlock s
  | recSym sym =>
    rcases execRec_eq_next_iff.1 h with ⟨-, ⟨⟨hp, hh⟩, ⟨hm, rfl⟩ | ⟨-, rfl⟩⟩ | ⟨-, rfl⟩⟩ | ⟨-, rfl⟩
    · exact hs.countSymbol hp hh hm
    all_goals exact hs.congr rfl rfl rfl rfl rfl hs.header_closed
  | hin b => exact (hinEffect_of_execHin h).freqInv hs
  | seed =>
    rcases execSeed_eq_next_iff.1 h with ⟨-, ⟨-, ⟨hh, h⟩ | ⟨-, rfl⟩⟩ | ⟨-, rfl⟩⟩ | ⟨-, rfl⟩
    · exact (seedBody_builderFrame h).freqInv hs hh
    all_goals exact hs.congr rfl rfl rfl rfl rfl hs.header_closed
  | merge =>
    rcases execMerge_eq_next_iff.1 h with ⟨-, ⟨hp, h⟩ | ⟨-, rfl⟩⟩ | ⟨-, rfl⟩
    · exact (mergeStep_builderFrame h).freqInv hs (hs.header_closed (by simp [hp]))
    all_goals exact hs.congr rfl rfl rfl rfl rfl hs.header_closed
  | build =>
    rcases execBuild_eq_next_iff.1 h with
      ⟨-, ⟨-, ⟨hh, u, hu, h⟩ | ⟨-, rfl⟩⟩ | ⟨-, ⟨hp, h⟩ | ⟨-, rfl⟩⟩⟩ | ⟨-, rfl⟩
    · exact ((seedBody_builderFrame hu).trans (mergeAll_builderFrame h)).freqInv hs hh
    · exact hs.congr rfl rfl rfl rfl rfl hs.header_closed
    · exact (mergeAll_builderFrame h).freqInv hs (hs.header_closed (by simp [hp]))
    all_goals exact hs.congr rfl rfl rfl rfl rfl hs.header_closed
  | gen =>
    rcases execGen_eq_next_iff.1 h with ⟨-, ⟨hp, ⟨-, codes, -, rfl⟩ | ⟨-, rfl⟩⟩ | ⟨-, rfl⟩⟩ | ⟨-, rfl⟩
    · exact hs.congr rfl rfl rfl rfl rfl fun _ => hs.header_closed (by simp [hp])
    · exact hs.congr rfl rfl rfl rfl rfl fun _ => hs.header_closed (by simp [hp])
    all_goals exact hs.congr rfl rfl rfl rfl rfl hs.header_closed
  | hout => obtain ⟨_, _, rfl⟩ := execHout_frame h; exact hs.congr rfl rfl rfl rfl rfl hs.header_closed
  | put sym => obtain ⟨_, _, _, _, rfl⟩ := execPut_frame h; exact hs.congr rfl rfl rfl rfl rfl hs.header_closed
  | flush => obtain ⟨_, _, _, _, rfl⟩ := execFlush_frame h; exact hs.congr rfl rfl rfl rfl rfl hs.header_closed
  | get b => obtain ⟨_, _, _, _, rfl⟩ := execGet_frame h; exact hs.congr rfl rfl rfl rfl rfl hs.header_closed
  | drep => obtain ⟨_, _, _, rfl⟩ := execDrep_frame h; exact hs.congr rfl rfl rfl rfl rfl hs.header_closed
  | ioerr => obtain ⟨_, rfl⟩ := execIoerr_frame h; exact hs.congr rfl rfl rfl rfl rfl hs.header_closed

/-- Settles O50: every command keeps the frequency invariants, and a table with an occurrence has a present symbol. -/
theorem stepKeepsFrequencyInvariants : Obligations.StepKeepsFrequencyInvariants := by
  intro s t hs h
  have ht : FreqInv t := step_preserves (P := FreqInv) (fun _ _ hs => hs.congr rfl rfl rfl rfl rfl hs.header_closed)
    (fun _ _ hs => hs.congr rfl rfl rfl rfl rfl hs.header_closed) (fun _ _ _ => exec_freqInv) hs h
  have := ht.unique_eq_zero_iff
  exact ⟨ht, by omega⟩

end Sys2Proof.Machine
end

section
/-! PROOF. The views of the node store (R15): what they depend on, how they grow with it, and that a well-formed store has a tree at
every valid node. -/

namespace Sys2Proof.Machine

variable {s t : State}

/-! ## The views read the node store alone -/

theorem weightAt_congr (h : t.nodes = s.nodes) : weightAt t = weightAt s := by
  funext i; simp only [weightAt, State.node?_congr h]

theorem childRefs_congr (h : t.nodes = s.nodes) : childRefs t = childRefs s := by
  simp only [childRefs, h]

theorem treeWithin_congr (h : t.nodes = s.nodes) (depth : Nat) (i : NodeIdx) : treeWithin t depth i = treeWithin s depth i := by
  induction depth generalizing i with
  | zero => rfl
  | succ d ih => simp only [treeWithin, State.node?_congr h, ih]

theorem leavesAt_congr (h : t.nodes = s.nodes) : leavesAt t = leavesAt s := by
  funext i; simp only [leavesAt, treeAt, treeWithin_congr h]

theorem descend_congr (h : t.nodes = s.nodes) (i : NodeIdx) (p : List Bool) : descend t i p = descend s i p := by
  induction p generalizing i with
  | nil => rfl
  | cons c p ih => simp only [descend, State.node?_congr h, ih]

theorem leafReached_congr (h : t.nodes = s.nodes) (r : NodeIdx) (p : List Bool) : leafReached t r p = leafReached s r p := by
  simp only [leafReached, descend_congr h, State.node?_congr h]

theorem leafOf_congr (h : t.freq = s.freq) (sym : Symbol) : leafOf sym t = leafOf sym s := by
  simp only [leafOf, State.freqAt_congr h]

/-! ## Growth of the node store -/

/-- Every valid node of `s` is a node of `t`, unchanged. -/
def Extends (s t : State) : Prop := ∀ i n, s.node? i = some n → t.node? i = some n

theorem Extends.refl (s : State) : Extends s s := fun _ _ h => h

/-- A tree stays when nodes are added and when the depth bound is relaxed. -/
theorem treeWithin_mono (h : Extends s t) {d e : Nat} (hde : d ≤ e) {i : NodeIdx} {T : Tree} (hT : treeWithin s d i = some T) :
    treeWithin t e i = some T := by
  induction d generalizing e i T with
  | zero => cases hT
  | succ d ih =>
    obtain ⟨e, rfl⟩ : ∃ e', e = e' + 1 := ⟨e - 1, by omega⟩
    have hde' : d ≤ e := by omega
    cases hn : s.node? i with
    | none => simp [treeWithin, hn] at hT
    | some n =>
      cases n with
      | leaf sym w => simpa [treeWithin, hn, h i _ hn] using hT
      | internal w l r =>
        simp only [treeWithin, hn] at hT
        cases hl : treeWithin s d l with
        | none => simp [hl] at hT
        | some L =>
          cases hr : treeWithin s d r with
          | none => simp [hl, hr] at hT
          | some R => simpa [treeWithin, h i _ hn, ih hde' hl, ih hde' hr, hl, hr] using hT

theorem Extends.weightAt_eq (h : Extends s t) {i : NodeIdx} (hi : (s.node? i).isSome = true) : weightAt t i = weightAt s i := by
  obtain ⟨n, hn⟩ := Option.isSome_iff_exists.1 hi
  simp only [weightAt, hn, h i n hn]

theorem Extends.isSome (h : Extends s t) {i : NodeIdx} (hi : (s.node? i).isSome = true) : (t.node? i).isSome = true := by
  obtain ⟨n, hn⟩ := Option.isSome_iff_exists.1 hi
  rw [h i n hn]; rfl

/-! ## Trees -/

theorem treeWithin_leaf {i : NodeIdx} {sym : Symbol} {w : Weight} (h : s.node? i = some (.leaf sym w)) (d : Nat) :
    treeWithin s (d + 1) i = some (.leaf sym w) := by
  simp only [treeWithin, h]

theorem treeWithin_internal {i : NodeIdx} {w : Weight} {l r : NodeIdx} (h : s.node? i = some (.internal w l r)) {d : Nat} {L R : Tree}
    (hL : treeWithin s d l = some L) (hR : treeWithin s d r = some R) : treeWithin s (d + 1) i = some (.internal w L R) := by
  simp only [treeWithin, h, hL, hR]

theorem leavesAt_eq_of_treeAt {i : NodeIdx} {T : Tree} (h : treeAt s i = some T) : leavesAt s i = T.leaves := by
  simp only [leavesAt, h]

theorem leavesAt_leaf {i : NodeIdx} {sym : Symbol} {w : Weight} (h : s.node? i = some (.leaf sym w)) : leavesAt s i = [sym] :=
  leavesAt_eq_of_treeAt (treeWithin_leaf h _)

/-- The node store is well-founded: an internal entry lies at 256 or above, its children are valid and below it (R52). -/
def Grounded (s : State) : Prop :=
  ∀ i w l r, s.node? i = some (.internal w l r) →
    256 ≤ i.toNat ∧ l.toNat < i.toNat ∧ r.toNat < i.toNat ∧ (s.node? l).isSome = true ∧ (s.node? r).isSome = true

/-- In a well-founded store every valid node has a tree, whose depth its index bounds. -/
theorem Grounded.exists_treeWithin (h : Grounded s) {d : Nat} {i : NodeIdx} (hi : (s.node? i).isSome = true)
    (hd : i.toNat < d + 255) (h0 : 0 < d) : ∃ T, treeWithin s d i = some T := by
  induction d generalizing i with
  | zero => omega
  | succ d ih =>
    obtain ⟨n, hn⟩ := Option.isSome_iff_exists.1 hi
    cases n with
    | leaf sym w => exact ⟨_, treeWithin_leaf hn d⟩
    | internal w l r =>
      obtain ⟨hge, hl, hr, hlv, hrv⟩ := h i w l r hn
      obtain ⟨L, hL⟩ := ih hlv (by omega) (by omega)
      obtain ⟨R, hR⟩ := ih hrv (by omega) (by omega)
      exact ⟨_, treeWithin_internal hn hL hR⟩

/-- `tree(i)` exists for every valid node below 511 (R15, R24). -/
theorem Grounded.exists_treeAt (h : Grounded s) {i : NodeIdx} (hi : (s.node? i).isSome = true) (hlt : i.toNat < 511) :
    ∃ T, treeAt s i = some T :=
  h.exists_treeWithin hi (by omega) (by omega)

theorem Extends.leavesAt_eq (h : Extends s t) {i : NodeIdx} {T : Tree} (hT : treeAt s i = some T) : leavesAt t i = leavesAt s i := by
  have hT' : treeAt t i = some T := treeWithin_mono h le_rfl hT
  rw [leavesAt_eq_of_treeAt hT, leavesAt_eq_of_treeAt hT']

/-- The leaves of an internal node are those of its children, left to right (R15). -/
theorem leavesAt_internal {i : NodeIdx} {w : Weight} {l r : NodeIdx} (h : s.node? i = some (.internal w l r)) {L R : Tree}
    (hL : treeWithin s Config.maxLen l = some L) (hR : treeWithin s Config.maxLen r = some R) :
    leavesAt s i = leavesAt s l ++ leavesAt s r := by
  have hi : treeAt s i = some (.internal w L R) := treeWithin_internal h hL hR
  have hl : treeAt s l = some L := treeWithin_mono (.refl s) (Nat.le_succ _) hL
  have hr : treeAt s r = some R := treeWithin_mono (.refl s) (Nat.le_succ _) hR
  rw [leavesAt_eq_of_treeAt hi, leavesAt_eq_of_treeAt hl, leavesAt_eq_of_treeAt hr, Tree.leaves]

theorem leafReached_cons {i : NodeIdx} {w : Weight} {l r : NodeIdx} (h : s.node? i = some (.internal w l r)) (c : Bool)
    (p : List Bool) : leafReached s i (c :: p) = leafReached s (if c then r else l) p := by
  simp only [leafReached, descend_internal h]

theorem leafReached_nil_of_leaf {i : NodeIdx} {sym : Symbol} {w : Weight} (h : s.node? i = some (.leaf sym w)) :
    leafReached s i [] = some sym := by
  simp [leafReached, h]

/-- A path to a leaf ends there: a path to a leaf that another path to a leaf begins with is that path (R183). -/
theorem eq_of_leafReached_prefix {i : NodeIdx} {p q : List Bool} {a b : Symbol} (hp : leafReached s i p = some a)
    (hq : leafReached s i q = some b) (h : p <+: q) : a = b := by
  induction p generalizing i q with
  | nil =>
    cases q with
    | nil => exact Option.some_inj.1 (hp.symm.trans hq)
    | cons c q =>
      cases hn : s.node? i with
      | none => simp [leafReached, hn] at hp
      | some n =>
        cases n with
        | leaf sym w => simp [leafReached, descend_leaf hn] at hq
        | internal w l r => simp [leafReached, hn] at hp
  | cons c p ih =>
    obtain ⟨q', rfl⟩ := h
    cases hn : s.node? i with
    | none => simp [leafReached, descend, hn] at hp
    | some n =>
      cases n with
      | leaf sym w => simp [leafReached, descend_leaf hn] at hp
      | internal w l r =>
        rw [leafReached_cons hn] at hp
        rw [List.cons_append, leafReached_cons hn] at hq
        exact ih hp hq ⟨q', rfl⟩

end Sys2Proof.Machine
end

section
/-! PROOF. The node store and the Priority List as a forest (R52, R53), apart from the phase, and what the invariants say with it. -/

namespace Sys2Proof.Machine

variable {s t : State}

/-- R52 and R53 as they hold from the moment the leaves are made, whatever the phase: the clauses of `TreeInv` on the table, the node
store, the list and `NEXT`. -/
structure Forest (s : State) : Prop where
  leaf_entries : ∀ sym : Symbol, s.node? (leafIdx sym) = if s.freqAt sym = 0#32 then none else some (leafOf sym s)
  internal_allocated : ∀ i : NodeIdx, Config.firstInternal ≤ i → ((s.node? i).isSome = true ↔ i < s.next)
  internal_entries : ∀ e ∈ s.nodes, 256 ≤ e.1 → ∃ w l r, e.2 = .internal w l r ∧ l.toNat < e.1 ∧ r.toNat < e.1 ∧ l ≠ r ∧
    (s.node? l).isSome = true ∧ (s.node? r).isSome = true ∧ w.toNat = weightAt s l + weightAt s r
  owned_once : ((s.pl ++ childRefs s).map BitVec.toNat).Perm (s.nodes.map Prod.fst)
  next_ge : Config.firstInternal ≤ s.next
  pl_sorted : s.pl.Pairwise fun a b => weightAt s a ≤ weightAt s b
  pl_total : (s.pl.map (weightAt s)).sum = s.total.toNat
  pl_leaves : (s.pl.flatMap (leavesAt s)).Perm (presentSymbols s)
  pl_count : s.pl.length + s.next.toNat = s.unique.toNat + 256

theorem TreeInv.forest (h : TreeInv s) (hp : s.phase ≠ .freq) : Forest s where
  leaf_entries := h.leaf_entries hp
  internal_allocated := h.internal_allocated
  internal_entries := h.internal_entries
  owned_once := h.owned_once
  next_ge := h.next_ge
  pl_sorted := h.pl_sorted
  pl_total := h.pl_total hp
  pl_leaves := h.pl_leaves hp
  pl_count := h.pl_count hp

theorem Forest.congr (h : Forest s) (hf : t.freq = s.freq) (ht : t.total = s.total) (hu : t.unique = s.unique)
    (hn : t.nodes = s.nodes) (hx : t.next = s.next) (hl : t.pl = s.pl) : Forest t where
  leaf_entries sym := by
    rw [State.node?_congr hn, State.freqAt_congr hf, leafOf_congr hf]; exact h.leaf_entries sym
  internal_allocated := by simp only [State.node?_congr hn, hx]; exact h.internal_allocated
  internal_entries := by simp only [State.node?_congr hn, hn, weightAt_congr hn]; exact h.internal_entries
  owned_once := by rw [hl, hn, childRefs_congr hn]; exact h.owned_once
  next_ge := by rw [hx]; exact h.next_ge
  pl_sorted := by rw [hl, weightAt_congr hn]; exact h.pl_sorted
  pl_total := by rw [hl, ht, weightAt_congr hn]; exact h.pl_total
  pl_leaves := by rw [hl, leavesAt_congr hn, presentSymbols_congr hf]; exact h.pl_leaves
  pl_count := by rw [hl, hx, hu]; exact h.pl_count

/-- After phase FREQ, the tree invariant is the forest and what the phase says of the list and the root. -/
theorem Forest.treeInv (h : Forest s) (hp : s.phase ≠ .freq) (h2 : s.phase = .seeded → 2 ≤ s.pl.length)
    (hroot : s.phase = .tree ∨ s.phase = .coded → s.unique ≠ 0#9 → s.pl = [s.root] ∧ s.rootv = true)
    (hempty : s.phase = .tree ∨ s.phase = .coded → s.unique = 0#9 → s.pl = [] ∧ s.rootv = false)
    (hno : s.rootv = false → s.root = 0#9 ∧ s.cur = 0#9) : TreeInv s where
  open_empty hn := absurd hn hp
  leaf_entries _ := h.leaf_entries
  internal_allocated := h.internal_allocated
  internal_entries := h.internal_entries
  owned_once := h.owned_once
  next_ge := h.next_ge
  pl_sorted := h.pl_sorted
  pl_total _ := h.pl_total
  pl_leaves _ := h.pl_leaves
  pl_count _ := h.pl_count
  seeded_two := h2
  complete_root := hroot
  complete_empty := hempty
  no_root := hno

/-! ## The nodes of a forest -/

/-- An index below 256 is a symbol's leaf index (R25). -/
theorem exists_leafIdx_eq {i : NodeIdx} (h : i.toNat < 256) : ∃ sym, i = leafIdx sym := by
  refine ⟨i.setWidth 8, BitVec.eq_of_toNat_eq ?_⟩
  simp only [leafIdx, BitVec.toNat_setWidth]
  omega

@[simp] theorem leafIdx_toNat (sym : Symbol) : (leafIdx sym).toNat = sym.toNat := by
  have := sym.isLt
  simp only [leafIdx, BitVec.toNat_setWidth]
  omega

theorem leafIdx_injective : Function.Injective leafIdx := fun a b h => by
  have := congrArg BitVec.toNat h
  rw [leafIdx_toNat, leafIdx_toNat] at this
  exact BitVec.eq_of_toNat_eq this

theorem firstInternal_le_iff {i : NodeIdx} : Config.firstInternal ≤ i ↔ 256 ≤ i.toNat := by
  simp [BitVec.le_def]

/-- A valid leaf is the leaf of a present symbol, at its index and with its count as weight. -/
theorem Forest.leaf (h : Forest s) {i : NodeIdx} {sym : Symbol} {w : Weight} (hn : s.node? i = some (.leaf sym w)) :
    i = leafIdx sym ∧ s.freqAt sym ≠ 0#32 ∧ w = (s.freqAt sym).setWidth 40 := by
  by_cases hi : i.toNat < 256
  · obtain ⟨x, rfl⟩ := exists_leafIdx_eq hi
    rw [h.leaf_entries x] at hn
    split at hn
    · cases hn
    · next hx => cases hn; exact ⟨rfl, hx, rfl⟩
  · obtain ⟨_, _, _, he, -⟩ := h.internal_entries _ (Table.mem_of_get? hn) (Nat.le_of_not_lt hi)
    cases he

/-- A valid internal node lies at 256 or above, on two different valid nodes below it whose weights it sums. -/
theorem Forest.internal (h : Forest s) {i : NodeIdx} {w : Weight} {l r : NodeIdx} (hn : s.node? i = some (.internal w l r)) :
    256 ≤ i.toNat ∧ l.toNat < i.toNat ∧ r.toNat < i.toNat ∧ l ≠ r ∧ (s.node? l).isSome = true ∧ (s.node? r).isSome = true ∧
      w.toNat = weightAt s l + weightAt s r := by
  by_cases hi : i.toNat < 256
  · obtain ⟨x, rfl⟩ := exists_leafIdx_eq hi
    rw [h.leaf_entries x] at hn
    split at hn <;> cases hn
  · obtain ⟨_, _, _, he, hrest⟩ := h.internal_entries _ (Table.mem_of_get? hn) (Nat.le_of_not_lt hi)
    cases he
    exact ⟨Nat.le_of_not_lt hi, hrest⟩

theorem Forest.grounded (h : Forest s) : Grounded s := fun _ _ _ _ hn => by
  obtain ⟨hi, hl, hr, -, hlv, hrv, -⟩ := h.internal hn
  exact ⟨hi, hl, hr, hlv, hrv⟩

/-- A listed index is a valid node. -/
theorem node?_isSome_iff {i : NodeIdx} : (s.node? i).isSome = true ↔ i.toNat ∈ s.nodes.map Prod.fst := Table.get?_isSome_iff

/-- A member of `PL` is a valid node (R52). -/
theorem Forest.isSome_of_mem_pl (h : Forest s) {k : NodeIdx} (hk : k ∈ s.pl) : (s.node? k).isSome = true :=
  node?_isSome_iff.2 <| h.owned_once.subset <| List.mem_map_of_mem (List.mem_append_left _ hk)

/-- A valid node is below `NEXT` (R25). -/
theorem Forest.lt_next (h : Forest s) {i : NodeIdx} (hi : (s.node? i).isSome = true) : i.toNat < s.next.toNat := by
  have hge := firstInternal_le_iff.1 h.next_ge
  by_cases hlt : i.toNat < 256
  · omega
  · exact BitVec.lt_def.1 ((h.internal_allocated i (firstInternal_le_iff.2 (Nat.le_of_not_lt hlt))).1 hi)

/-- Every valid node has a tree. -/
theorem Forest.exists_treeAt (h : Forest s) {i : NodeIdx} (hi : (s.node? i).isSome = true) : ∃ T, treeAt s i = some T := by
  have := h.lt_next hi
  have := s.next.isLt
  exact h.grounded.exists_treeAt hi (by omega)

/-- The entry at `NEXT` is free. -/
theorem Forest.node?_next (h : Forest s) : s.node? s.next = none := by
  rw [← Option.not_isSome_iff_eq_none, h.internal_allocated _ h.next_ge]
  exact BitVec.lt_irrefl _

/-- In a canonical store every listed index is below `NEXT`. -/
theorem Forest.index_lt_next (h : Forest s) (hw : Memory.wf s) {e : Nat × Node} (he : e ∈ s.nodes) : e.1 < s.next.toNat := by
  have hlt : e.1 < 511 := (hw.2.1.2 e he).1
  have hidx : (BitVec.ofNat 9 e.1).toNat = e.1 := by rw [BitVec.toNat_ofNat]; omega
  have hv := node?_isSome_iff (s := s) (i := BitVec.ofNat 9 e.1)
  rw [hidx] at hv
  simpa only [hidx] using h.lt_next (hv.2 (List.mem_map_of_mem he))

/-- The members of `PL` are pairwise different. -/
theorem Forest.pl_nodup (h : Forest s) (hw : Memory.wf s) : s.pl.Nodup := by
  have hnd : (s.nodes.map Prod.fst).Nodup := List.pairwise_map.2 (hw.2.1.1.imp fun hlt => Nat.ne_of_lt hlt)
  exact (List.nodup_append.1 (h.owned_once.nodup_iff.2 hnd).of_map).1

/-- With one tree in the list, its leaves are the present symbols. -/
theorem Forest.leavesAt_root (h : Forest s) {r : NodeIdx} (hr : s.pl = [r]) : (leavesAt s r).Perm (presentSymbols s) := by
  simpa [hr] using h.pl_leaves

/-- With two or more present symbols a single tree is no leaf. -/
theorem Forest.root_internal (h : Forest s) (hf : FreqInv s) {r : NodeIdx} (hr : s.pl = [r]) (hu : 2#9 ≤ s.unique) :
    ∃ w a b, s.node? r = some (.internal w a b) := by
  obtain ⟨n, hn⟩ := Option.isSome_iff_exists.1 (h.isSome_of_mem_pl (k := r) (by simp [hr]))
  cases n with
  | internal w a b => exact ⟨w, a, b, hn⟩
  | leaf sym w =>
    have hlen := (h.leavesAt_root hr).length_eq
    have hu' : 2 ≤ s.unique.toNat := hu
    rw [leavesAt_leaf hn, hf.unique_eq, List.length_singleton] at hlen
    omega

/-- With one present symbol the tree is its leaf. -/
theorem Forest.root_leaf (h : Forest s) {r : NodeIdx} (hr : s.pl = [r]) (hu : s.unique = 1#9) :
    ∃ sym w, s.node? r = some (.leaf sym w) := by
  have hv := h.isSome_of_mem_pl (k := r) (by simp [hr])
  have hcount : 1 + s.next.toNat = 1 + 256 := by simpa [hr, hu] using h.pl_count
  have hlt := h.lt_next hv
  obtain ⟨sym, rfl⟩ := exists_leafIdx_eq (i := r) (by omega)
  rw [h.leaf_entries] at hv ⊢
  split at hv
  · cases hv
  · next hs => rw [if_neg hs]; exact ⟨sym, _, rfl⟩

end Sys2Proof.Machine
end

section
/-! PROOF. A merge step keeps the forest (R161): it completes, and the new tree stands in the list for the two it joins. -/

namespace Sys2Proof.Machine

variable {s t : State}

section
variable {l r : NodeIdx} {nl nr : Node} {rest pl q : List NodeIdx}

theorem node?_mergedState_next : (mergedState s l r nl nr q).node? s.next = some (mergedNode l r nl nr) :=
  State.node?_set_self s _ _

theorem node?_mergedState_ne {i : NodeIdx} (h : i ≠ s.next) : (mergedState s l r nl nr q).node? i = s.node? i :=
  State.node?_set_ne s _ h

/-- A merge adds a node and changes none. -/
theorem Forest.extends_merged (h : Forest s) : Extends s (mergedState s l r nl nr q) := fun i n hn => by
  rw [node?_mergedState_ne, hn]
  rintro rfl
  rw [h.node?_next] at hn
  cases hn

/-- Merging writes past all listed entries. -/
theorem Forest.nodes_merged (h : Forest s) (hw : Memory.wf s) :
    (mergedState s l r nl nr q).nodes = s.nodes ++ [(s.next.toNat, mergedNode l r nl nr)] :=
  Table.set_of_gt fun _ he => h.index_lt_next hw he

/-- Under the invariants there is an index for the merged node (R25). -/
theorem Forest.next_lt (h : Forest s) (hf : FreqInv s) (hpl : s.pl = l :: r :: rest) : s.next.toNat < 511 := by
  have hcount := h.pl_count
  have hu := presentSymbols_length_le s
  rw [hf.unique_eq] at hu
  rw [hpl, List.length_cons, List.length_cons] at hcount
  omega

theorem weightAt_of_node? {i : NodeIdx} {n : Node} (h : s.node? i = some n) : weightAt s i = n.weight.toNat := by
  simp only [weightAt, h]

/-- The sum of the two front weights fits, since all weights of the list sum to `TOTAL` (R8). -/
theorem Forest.merged_weight (h : Forest s) (hpl : s.pl = l :: r :: rest) (hl : s.node? l = some nl) (hr : s.node? r = some nr) :
    (mergedNode l r nl nr).weight.toNat = weightAt s l + weightAt s r := by
  have hsum := h.pl_total
  have hlt := s.total.isLt
  rw [hpl, List.map_cons, List.map_cons, List.sum_cons, List.sum_cons] at hsum
  have hwl := weightAt_of_node? hl
  have hwr := weightAt_of_node? hr
  have hw : (mergedNode l r nl nr).weight = nl.weight + nr.weight := rfl
  rw [hw, BitVec.toNat_add]
  omega

/-- The insertion of a merge completes: every member of the rest is valid. -/
theorem Forest.merge_completes (h : Forest s) (hpl : s.pl = l :: r :: rest) :
    ∃ pl, insertAt mergedStops (mergedState s l r nl nr rest) s.next (mergedNode l r nl nr) rest = .next pl := by
  refine insertAt_completes fun k hk => ?_
  obtain ⟨n, hn⟩ := Option.isSome_iff_exists.1 (h.isSome_of_mem_pl (k := k) (by simp [hpl, hk]))
  exact ⟨n, _, h.extends_merged k n hn, rfl⟩

/-- An insertion by weight keeps a list sorted by weight (R143). -/
theorem insertMerged_sorted {u : State} {n : NodeIdx} {new : Node} (hn : u.node? n = some new)
    (hs : rest.Pairwise fun a b => weightAt u a ≤ weightAt u b) (h : insertAt mergedStops u n new rest = .next pl) :
    pl.Pairwise fun a b => weightAt u a ≤ weightAt u b := by
  obtain ⟨pre, post, rfl, rfl, hpre, hpost⟩ := insertAt_next_spec h
  obtain ⟨hspre, hspost, hcross⟩ := List.pairwise_append.1 hs
  have hlow : ∀ k ∈ pre, weightAt u k ≤ weightAt u n := fun k hk => by
    obtain ⟨old, hold, hstop⟩ := hpre k hk
    rw [weightAt_of_node? hold, weightAt_of_node? hn]
    exact (mergedStops_false_iff.1 hstop).le
  have hhigh : ∀ k ∈ post, weightAt u n ≤ weightAt u k := by
    cases post with
    | nil => simp
    | cons j post =>
      obtain ⟨old, hold, hstop⟩ := hpost j rfl
      have hj : weightAt u n ≤ weightAt u j := by
        rw [weightAt_of_node? hold, weightAt_of_node? hn]; exact mergedStops_true_iff.1 hstop
      intro k hk
      rcases List.mem_cons.1 hk with rfl | hk
      · exact hj
      · exact hj.trans ((List.pairwise_cons.1 hspost).1 k hk)
  refine List.pairwise_append.2 ⟨hspre, List.pairwise_cons.2 ⟨hhigh, hspost⟩, fun a ha b hb => ?_⟩
  rcases List.mem_cons.1 hb with rfl | hb
  · exact hlow a ha
  · exact hcross a ha b hb

/-- The entries at 256 and above are those below the next `NEXT`. -/
theorem Forest.merged_allocated (h : Forest s) (hnext : s.next.toNat < 511) {i : NodeIdx} (hi : Config.firstInternal ≤ i) :
    ((mergedState s l r nl nr q).node? i).isSome = true ↔ i < s.next + 1#9 := by
  have hsucc : (s.next + 1#9).toNat = s.next.toNat + 1 := by rw [BitVec.toNat_add, BitVec.toNat_ofNat]; omega
  rw [BitVec.lt_def, hsucc]
  by_cases hin : i = s.next
  · subst hin
    rw [node?_mergedState_next]
    simp
  · have hne : i.toNat ≠ s.next.toNat := fun e => hin (BitVec.eq_of_toNat_eq e)
    rw [node?_mergedState_ne hin, h.internal_allocated i hi, BitVec.lt_def]
    omega

/-- The two front members differ. -/
theorem Forest.front_ne (h : Forest s) (hw : Memory.wf s) (hpl : s.pl = l :: r :: rest) : l ≠ r := by
  have hnd := h.pl_nodup hw
  rw [hpl] at hnd
  rintro rfl
  exact (List.nodup_cons.1 hnd).1 List.mem_cons_self

/-- Every entry at 256 and above, the new one included, sums the weights of two different valid nodes below it. -/
theorem Forest.merged_entries (h : Forest s) (hw : Memory.wf s) (hpl : s.pl = l :: r :: rest) (hl : s.node? l = some nl)
    (hr : s.node? r = some nr) {e : Nat × Node} (he : e ∈ (mergedState s l r nl nr q).nodes) (hge : 256 ≤ e.1) :
    ∃ w a b, e.2 = .internal w a b ∧ a.toNat < e.1 ∧ b.toNat < e.1 ∧ a ≠ b ∧
      ((mergedState s l r nl nr q).node? a).isSome = true ∧ ((mergedState s l r nl nr q).node? b).isSome = true ∧
      w.toNat = weightAt (mergedState s l r nl nr q) a + weightAt (mergedState s l r nl nr q) b := by
  have hext := h.extends_merged (l := l) (r := r) (nl := nl) (nr := nr) (q := q)
  rw [h.nodes_merged hw, List.mem_append, List.mem_singleton] at he
  rcases he with he | rfl
  · obtain ⟨w, a, b, heq, ha, hb, hab, hva, hvb, hwt⟩ := h.internal_entries e he hge
    exact ⟨w, a, b, heq, ha, hb, hab, hext.isSome hva, hext.isSome hvb, by rw [hext.weightAt_eq hva, hext.weightAt_eq hvb, hwt]⟩
  · have hvl : (s.node? l).isSome = true := by rw [hl]; rfl
    have hvr : (s.node? r).isSome = true := by rw [hr]; rfl
    refine ⟨_, l, r, rfl, h.lt_next hvl, h.lt_next hvr, h.front_ne hw hpl, hext.isSome hvl, hext.isSome hvr, ?_⟩
    rw [hext.weightAt_eq hvl, hext.weightAt_eq hvr]
    exact h.merged_weight hpl hl hr

/-- The two popped members become children, and the new node stands in the list: every valid node is still owned once. -/
theorem Forest.merged_owned (h : Forest s) (hw : Memory.wf s) (hpl : s.pl = l :: r :: rest) (hperm : pl.Perm (s.next :: rest)) :
    ((pl ++ childRefs (mergedState s l r nl nr q)).map BitVec.toNat).Perm
      ((mergedState s l r nl nr q).nodes.map Prod.fst) := by
  have hrefs : childRefs (mergedState s l r nl nr q) = childRefs s ++ [l, r] := by
    simp [childRefs, h.nodes_merged hw, mergedNode, Node.children]
  have hmove : (pl ++ (childRefs s ++ [l, r])).Perm ((s.pl ++ childRefs s) ++ [s.next]) := by
    refine (hperm.append_right _).trans (List.perm_iff_count.2 fun a => ?_)
    simp only [hpl, List.count_append, List.count_cons, List.count_nil]
    omega
  rw [hrefs, h.nodes_merged hw, List.map_append (l₁ := s.nodes)]
  refine (hmove.map _).trans ?_
  rw [List.map_append]
  exact h.owned_once.append_right _

/-- The leaves under the list are the same: those of the two joined trees stand under the new node. -/
theorem Forest.merged_leaves (h : Forest s) (hnext : s.next.toNat < 511) (hpl : s.pl = l :: r :: rest) (hl : s.node? l = some nl)
    (hr : s.node? r = some nr) (hperm : pl.Perm (s.next :: rest)) :
    (pl.flatMap (leavesAt (mergedState s l r nl nr q))).Perm (presentSymbols s) := by
  have hext := h.extends_merged (l := l) (r := r) (nl := nl) (nr := nr) (q := q)
  have hkept : ∀ k, (s.node? k).isSome = true → leavesAt (mergedState s l r nl nr q) k = leavesAt s k := fun k hk => by
    obtain ⟨T, hT⟩ := h.exists_treeAt hk
    exact hext.leavesAt_eq hT
  have hvl : (s.node? l).isSome = true := by rw [hl]; rfl
  have hvr : (s.node? r).isSome = true := by rw [hr]; rfl
  have hjoined : leavesAt (mergedState s l r nl nr q) s.next = leavesAt s l ++ leavesAt s r := by
    have hll := h.lt_next hvl
    have hrl := h.lt_next hvr
    obtain ⟨L, hL⟩ := h.grounded.exists_treeWithin (d := 255) hvl (by omega) (by omega)
    obtain ⟨R, hR⟩ := h.grounded.exists_treeWithin (d := 255) hvr (by omega) (by omega)
    rw [leavesAt_internal node?_mergedState_next (treeWithin_mono hext le_rfl hL) (treeWithin_mono hext le_rfl hR), hkept l hvl,
      hkept r hvr]
  have hrest : rest.flatMap (leavesAt (mergedState s l r nl nr q)) = rest.flatMap (leavesAt s) :=
    List.flatMap_congr fun k hk => hkept k (h.isSome_of_mem_pl (by simp [hpl, hk]))
  have hleaves := h.pl_leaves
  rw [hpl, List.flatMap_cons, List.flatMap_cons, ← List.append_assoc] at hleaves
  refine (hperm.flatMap_right _).trans ?_
  rwa [List.flatMap_cons, hjoined, hrest]

/-- The forest with the two front trees joined. -/
theorem Forest.merge (h : Forest s) (hw : Memory.wf s) (hf : FreqInv s) (hpl : s.pl = l :: r :: rest) (hl : s.node? l = some nl)
    (hr : s.node? r = some nr)
    (hins : insertAt mergedStops (mergedState s l r nl nr rest) s.next (mergedNode l r nl nr) rest = .next pl) :
    Forest (mergedState s l r nl nr pl) := by
  have hext := h.extends_merged (l := l) (r := r) (nl := nl) (nr := nr) (q := pl)
  have hsame : weightAt (mergedState s l r nl nr rest) = weightAt (mergedState s l r nl nr pl) := weightAt_congr rfl
  have hnext := h.next_lt hf hpl
  have hge := firstInternal_le_iff.1 h.next_ge
  have hsucc : (s.next + 1#9).toNat = s.next.toNat + 1 := by rw [BitVec.toNat_add, BitVec.toNat_ofNat]; omega
  have hperm := insertAt_perm hins
  have hkept : ∀ k ∈ rest, weightAt (mergedState s l r nl nr pl) k = weightAt s k :=
    fun k hk => hext.weightAt_eq (h.isSome_of_mem_pl (by simp [hpl, hk]))
  have hsorted := h.pl_sorted
  have htotal := h.pl_total
  have hcount := h.pl_count
  rw [hpl] at hsorted htotal hcount
  exact
    { leaf_entries := fun sym => by
        have hne : leafIdx sym ≠ s.next := fun e => by
          have := sym.isLt
          rw [← e, leafIdx_toNat] at hge
          omega
        exact (node?_mergedState_ne hne).trans (h.leaf_entries sym)
      internal_allocated := fun i hi => h.merged_allocated hnext hi
      internal_entries := fun e he => h.merged_entries hw hpl hl hr he
      owned_once := h.merged_owned hw hpl hperm
      next_ge := firstInternal_le_iff.2 (hge.trans (hsucc ▸ Nat.le_succ _))
      pl_sorted := by
        have hs := (List.pairwise_cons.1 (List.pairwise_cons.1 hsorted).2).2
        rw [← hsame] at hkept ⊢
        refine insertMerged_sorted node?_mergedState_next (hs.imp_of_mem fun ha hb hab => ?_) hins
        rwa [hkept _ ha, hkept _ hb]
      pl_total := by
        have hnew : weightAt (mergedState s l r nl nr pl) s.next = weightAt s l + weightAt s r := by
          rw [weightAt_of_node? node?_mergedState_next, h.merged_weight hpl hl hr]
        have hsum := (hperm.map (weightAt (mergedState s l r nl nr pl))).sum_eq
        rw [List.map_cons, List.sum_cons, hnew, List.map_congr_left hkept] at hsum
        rw [List.map_cons, List.map_cons, List.sum_cons, List.sum_cons] at htotal
        exact hsum.trans (by rw [Nat.add_assoc]; exact htotal)
      pl_leaves := h.merged_leaves hnext hpl hl hr hperm
      pl_count := by
        have hlen := hperm.length_eq
        simp only [List.length_cons] at hlen hcount
        change pl.length + (s.next + 1#9).toNat = s.unique.toNat + 256
        omega }

end

end Sys2Proof.Machine
end

section
/-! PROOF. The stages of the builder meet the invariants (R52 to R55); merging from phase SEEDED completes and keeps them. -/

namespace Sys2Proof.Machine

variable {s t : State}

/-- What the builder's stages share: canonical tables, a closed header, a forest, and the registers and codes of the streams at their
reset values (R54, R55). -/
structure Built (s : State) : Prop where
  wf : Memory.wf s
  freqInv : FreqInv s
  header : s.hst = .idle ∨ s.hst = .done
  forest : Forest s
  acc : s.acc = 0#8
  nbits : s.nbits = 0#3
  decoded : s.decoded = 0#40
  codes : s.codes = []

/-- There is no root: `ROOT`, `ROOTV` and `CUR` have their reset values. -/
def Unrooted (s : State) : Prop := s.root = 0#9 ∧ s.rootv = false ∧ s.cur = 0#9

/-- Where the builder stands (R30, R165): two or more trees to merge, no tree at all, or one tree with its root. -/
inductive BuilderStage (s : State) : Prop
  | seeded (hp : s.phase = .seeded) (hl : 2 ≤ s.pl.length) (hu : Unrooted s)
  | empty (hp : s.phase = .tree) (hl : s.pl = []) (hu : Unrooted s)
  | rooted (hp : s.phase = .tree) (hl : s.pl = [s.root]) (hv : s.rootv = true) (hc : s.cur = s.root)

/-- The phase, the root and the pointer are not part of what the stages share. -/
theorem Built.move (h : Built s) (p : Phase) (r : NodeIdx) (v : Bool) (c : NodeIdx) :
    Built { s with phase := p, root := r, rootv := v, cur := c } where
  wf := h.wf
  freqInv := h.freqInv.congr rfl rfl rfl rfl rfl fun _ => h.header
  header := h.header
  forest := h.forest.congr rfl rfl rfl rfl rfl rfl
  acc := h.acc
  nbits := h.nbits
  decoded := h.decoded
  codes := h.codes

/-- An empty list means an empty table. -/
theorem Forest.unique_eq_zero_iff (h : Forest s) (hf : FreqInv s) : s.unique = 0#9 ↔ s.pl = [] := by
  have hu : s.unique = 0#9 ↔ s.unique.toNat = 0 := by rw [← BitVec.toNat_inj]; rfl
  have hge := firstInternal_le_iff.1 h.next_ge
  have hcount := h.pl_count
  rw [hu]
  constructor
  · intro h0
    exact List.length_eq_zero_iff.1 (by omega)
  · intro hl
    have hleaves := h.pl_leaves
    rw [hl, List.flatMap_nil] at hleaves
    rw [← hf.unique_eq, ← hleaves.length_eq, List.length_nil]

theorem acc_low_of_zero (ha : s.acc = 0#8) (hn : s.nbits = 0#3) : AccLowClear s := by
  rw [AccLowClear, ha, hn]; decide

/-- No entry of the Code Table is valid, and none has to be. -/
theorem codeInv_of_empty (hc : s.codes = []) (hp : s.phase ≠ .coded ∨ s.unique ≤ 1#9) : CodeInv s where
  closed _ := hc
  few _ := hc
  present hcoded h2 := by
    rcases hp with hp | hp
    · exact absurd hcoded hp
    · rw [BitVec.le_def] at hp h2
      exact absurd (h2.trans hp) (by decide)
  is_path sym c h := by simp [State.code?, hc] at h
  prefix_free a b ca cb h := by simp [State.code?, hc] at h

/-- Each stage of the builder meets the invariants. -/
theorem Built.inv (h : Built s) (hs : BuilderStage s) : Inv s := by
  have hzero := h.forest.unique_eq_zero_iff h.freqInv
  have hle : s.decoded ≤ s.total := by rw [h.decoded]; simp [BitVec.le_def]
  have hlow := acc_low_of_zero h.acc h.nbits
  cases hs with
  | seeded hp hl hu =>
    obtain ⟨hr, hv, hc⟩ := hu
    exact
      { wf := h.wf
        freqInv := h.freqInv
        treeInv := h.forest.treeInv (by simp [hp]) (fun _ => hl) (by simp [hp]) (by simp [hp]) fun _ => ⟨hr, hc⟩
        workInv := ⟨hlow, fun _ => ⟨h.acc, h.nbits⟩, hle, fun _ => h.decoded, by simp [hv], by simp [hv], by simp [hv]⟩
        codeInv := codeInv_of_empty h.codes (.inl (by simp [hp])) }
  | empty hp hl hu =>
    obtain ⟨hr, hv, hc⟩ := hu
    exact
      { wf := h.wf
        freqInv := h.freqInv
        treeInv := h.forest.treeInv (by simp [hp]) (by simp [hp]) (fun _ hne => absurd (hzero.2 hl) hne) (fun _ _ => ⟨hl, hv⟩)
          fun _ => ⟨hr, hc⟩
        workInv := ⟨hlow, fun _ => ⟨h.acc, h.nbits⟩, hle, fun _ => h.decoded, by simp [hv], by simp [hv], by simp [hv]⟩
        codeInv := codeInv_of_empty h.codes (.inl (by simp [hp])) }
  | rooted hp hl hv hc =>
    exact
      { wf := h.wf
        freqInv := h.freqInv
        treeInv := h.forest.treeInv (by simp [hp]) (by simp [hp]) (fun _ _ => ⟨hl, hv⟩) (fun _ h0 => by simp [hzero.1 h0] at hl)
          fun hf => by simp [hv] at hf
        workInv :=
          { acc_low := hlow
            acc_idle := fun _ => ⟨h.acc, h.nbits⟩
            decoded_le := hle
            decoded_zero := fun _ => h.decoded
            rootv_phase := fun _ => .inl hp
            cur_inside := fun _ => by
              rw [hc]
              exact ⟨h.forest.isSome_of_mem_pl (by rw [hl]; exact List.mem_singleton_self _), [], rfl⟩
            cur_internal := fun _ h2 => by rw [hc]; exact h.forest.root_internal h.freqInv hl h2 }
        codeInv := codeInv_of_empty h.codes (.inl (by simp [hp])) }

/-- Before the tree is complete there is no root. -/
theorem Inv.unrooted (h : Inv s) (hp : s.phase = .freq ∨ s.phase = .seeded) : Unrooted s := by
  have hv : s.rootv = false := by
    by_contra hv
    rcases h.workInv.rootv_phase (by simpa using hv) with h' | h' <;> rcases hp with hp | hp <;> simp [hp] at h'
  obtain ⟨hr, hc⟩ := h.treeInv.no_root hv
  exact ⟨hr, hv, hc⟩

/-- In phase SEEDED the invariants are those of the builder. -/
theorem Inv.built (h : Inv s) (hp : s.phase = .seeded) : Built s where
  wf := h.wf
  freqInv := h.freqInv
  header := h.freqInv.header_closed (by simp [hp])
  forest := h.treeInv.forest (by simp [hp])
  acc := (h.workInv.acc_idle (by simp [hp])).1
  nbits := (h.workInv.acc_idle (by simp [hp])).2
  decoded := h.workInv.decoded_zero (.inr hp)
  codes := h.codeInv.closed (by simp [hp])

/-- Seeding ends in one of the builder's stages (R145). -/
theorem Built.inv_finishSeeding (h : Built s) (hu : Unrooted s) : Inv (finishSeeding s) := by
  match hl : s.pl with
  | [] => rw [finishSeeding_empty s hl]; exact (h.move .tree s.root s.rootv s.cur).inv (.empty rfl hl hu)
  | [i] => rw [finishSeeding_single s i hl]; exact (h.move .tree i true i).inv (.rooted rfl hl rfl rfl)
  | a :: b :: rest =>
    have h2 : 2 ≤ s.pl.length := by simp [hl]
    rw [finishSeeding_two s h2]
    exact (h.move .seeded s.root s.rootv s.cur).inv (.seeded rfl h2 hu)

/-- A merge ends in one of the builder's stages (R161). -/
theorem Built.inv_completeIfSingle (h : Built s) (hp : s.phase = .seeded) (hu : Unrooted s) (hl : s.pl ≠ []) :
    Inv (completeIfSingle s) := by
  match hl' : s.pl with
  | [] => exact absurd hl' hl
  | [i] => rw [completeIfSingle_single s i hl']; exact (h.move .tree i true i).inv (.rooted rfl hl' rfl rfl)
  | a :: b :: rest =>
    rw [completeIfSingle_of_length_ne_one s (by simp [hl'])]
    exact h.inv (.seeded hp (by simp [hl']) hu)

/-- A merge step in phase SEEDED completes and keeps the invariants (R161). -/
theorem Inv.mergeStep (h : Inv s) (hp : s.phase = .seeded) : ∃ t, mergeStep s = .next t ∧ Inv t := by
  have hb := h.built hp
  have h2 := h.treeInv.seeded_two hp
  match hpl : s.pl with
  | [] | [_] => simp [hpl] at h2
  | l :: r :: rest =>
    obtain ⟨nl, hl⟩ := Option.isSome_iff_exists.1 (hb.forest.isSome_of_mem_pl (k := l) (by simp [hpl]))
    obtain ⟨nr, hr⟩ := Option.isSome_iff_exists.1 (hb.forest.isSome_of_mem_pl (k := r) (by simp [hpl]))
    obtain ⟨pl, hins⟩ := hb.forest.merge_completes (nl := nl) (nr := nr) hpl
    have hnext := hb.forest.next_lt hb.freqInv hpl
    have hmade : Built (mergedState s l r nl nr pl) :=
      { wf := ⟨hb.wf.1, Table.set_canonical hb.wf.2.1 hnext rfl, hb.wf.2.2⟩
        freqInv := hb.freqInv.congr rfl rfl rfl rfl rfl hb.freqInv.header_closed
        header := hb.header
        forest := hb.forest.merge hb.wf hb.freqInv hpl hl hr hins
        acc := hb.acc
        nbits := hb.nbits
        decoded := hb.decoded
        codes := hb.codes }
    refine ⟨_, mergeStep_eq_next_iff.2 ⟨l, r, rest, nl, nr, pl, hpl, hl, hr, hnext, hins, rfl⟩, ?_⟩
    refine hmade.inv_completeIfSingle hp (h.unrooted (.inr hp)) fun he => ?_
    have hlen := (insertAt_perm hins).length_eq
    rw [show pl = [] from he] at hlen
    simp at hlen

/-- The merge loop with as many turns as `PL` has members completes and keeps the invariants (R164, R168). -/
theorem Inv.mergeLoop (h : Inv s) {turns : Nat} (ht : s.pl.length ≤ turns) : ∃ t, mergeLoop turns s = .next t ∧ Inv t := by
  induction turns generalizing s with
  | zero =>
    refine ⟨s, mergeLoop_of_ne_seeded 0 fun hp => ?_, h⟩
    have := h.treeInv.seeded_two hp
    omega
  | succ n ih =>
    by_cases hp : s.phase = .seeded
    · obtain ⟨u, hu, hui⟩ := h.mergeStep hp
      have := mergeStep_length hu
      obtain ⟨t, ht, hti⟩ := ih hui (by omega)
      exact ⟨t, by rw [mergeLoop_succ_of_seeded n hp, hu, andThen_next, ht], hti⟩
    · exact ⟨s, mergeLoop_of_ne_seeded _ hp, h⟩

theorem Inv.mergeAll (h : Inv s) : ∃ t, mergeAll s = .next t ∧ Inv t := h.mergeLoop le_rfl

end Sys2Proof.Machine
end

section
/-! PROOF. Seeding makes the leaves of the present symbols and lists them by the pair (count, symbol) (R145, R147, R142). -/

namespace Sys2Proof.Machine

variable {s t u : State}

/-- The order of the pair (count, symbol) (R142). -/
def SeedBefore (s : State) (a b : Symbol) : Prop := s.freqAt a < s.freqAt b ∨ (s.freqAt a = s.freqAt b ∧ a < b)

theorem SeedBefore.trans {a b c : Symbol} (h : SeedBefore s a b) (h' : SeedBefore s b c) : SeedBefore s a c := by
  simp only [SeedBefore, BitVec.lt_def, ← BitVec.toNat_inj] at *
  omega

theorem weight_leafOf (sym : Symbol) (s : State) : (leafOf sym s).weight.toNat = (s.freqAt sym).toNat := by
  have hw : (leafOf sym s).weight = (s.freqAt sym).setWidth 40 := rfl
  have := (s.freqAt sym).isLt
  rw [hw, BitVec.toNat_setWidth]
  omega

/-- The stop test between two leaves is the order of the pair. -/
theorem leafStops_leafOf (new old : Symbol) :
    ∃ b, leafStops (leafOf new s) (leafOf old s) = .next b ∧ (b = true ↔ SeedBefore s new old) := by
  refine ⟨_, leafStops_leaf new old _ _, ?_⟩
  have hnew := weight_leafOf new s
  have hold := weight_leafOf old s
  simp only [leafOf, Node.weight] at hnew hold
  simp only [SeedBefore, BitVec.lt_def, ← BitVec.toNat_inj, hnew, hold, decide_eq_true_eq]
  omega

theorem seedBefore_iff_of_leafStops {new old : Symbol} {b : Bool} (h : leafStops (leafOf new s) (leafOf old s) = .next b) :
    b = true ↔ SeedBefore s new old := by
  obtain ⟨c, hc, hiff⟩ := leafStops_leafOf (s := s) new old
  cases hc.symm.trans h
  exact hiff

/-- The state of the seeding loop after the symbols `done` (R145): their leaves and no other node, and the present ones among them in
the list by (count, symbol). -/
structure SeededFrom (s : State) (done : List Symbol) (u : State) : Prop where
  frame : u = { s with nodes := u.nodes, pl := u.pl }
  leaf_node : ∀ sym, u.node? (leafIdx sym) = if sym ∈ done ∧ s.freqAt sym ≠ 0#32 then some (leafOf sym s) else none
  high_node : ∀ i, 256 ≤ i.toNat → u.node? i = none
  listed : ∃ syms : List Symbol, u.pl = syms.map leafIdx ∧ syms.Perm (done.filter fun x => s.freqAt x != 0#32) ∧
    syms.Pairwise (SeedBefore s)

/-- Before the first symbol. -/
theorem SeededFrom.start (hn : s.nodes = []) (hl : s.pl = []) : SeededFrom s [] s where
  frame := rfl
  leaf_node sym := by simp [State.node?, hn]
  high_node i _ := by simp [State.node?, hn]
  listed := ⟨[], hl, List.Perm.nil, List.Pairwise.nil⟩

theorem SeededFrom.freqAt_eq {done : List Symbol} (h : SeededFrom s done u) (sym : Symbol) : u.freqAt sym = s.freqAt sym :=
  State.freqAt_congr (by rw [h.frame]) sym

/-- A symbol without occurrences is passed over. -/
theorem SeededFrom.skip {done : List Symbol} {sym : Symbol} (h : SeededFrom s done u) (h0 : s.freqAt sym = 0#32) :
    SeededFrom s (sym :: done) u where
  frame := h.frame
  leaf_node x := by
    rw [h.leaf_node x]
    have : x = sym → s.freqAt x = 0#32 := fun e => e ▸ h0
    congr 1
    simp only [List.mem_cons, eq_iff_iff]
    tauto
  high_node := h.high_node
  listed := by simpa [h0] using h.listed

/-- A new symbol that goes after those it does not precede and before one it precedes keeps the list sorted. -/
theorem seedBefore_pairwise_insert {pre post : List Symbol} {sym : Symbol} (h : (pre ++ post).Pairwise (SeedBefore s))
    (hne : sym ∉ pre) (hpre : ∀ k ∈ pre, ¬SeedBefore s sym k) (hpost : ∀ k, post.head? = some k → SeedBefore s sym k) :
    (pre ++ sym :: post).Pairwise (SeedBefore s) := by
  obtain ⟨hspre, hspost, hcross⟩ := List.pairwise_append.1 h
  have hlow : ∀ k ∈ pre, SeedBefore s k sym := fun k hk => by
    have hks : k.toNat ≠ sym.toNat := fun e => hne (BitVec.eq_of_toNat_eq e ▸ hk)
    have := hpre k hk
    simp only [SeedBefore, BitVec.lt_def, ← BitVec.toNat_inj] at *
    omega
  have hhigh : ∀ k ∈ post, SeedBefore s sym k := by
    cases post with
    | nil => simp
    | cons j post =>
      have hj := hpost j rfl
      intro k hk
      rcases List.mem_cons.1 hk with rfl | hk
      · exact hj
      · exact hj.trans ((List.pairwise_cons.1 hspost).1 k hk)
  refine List.pairwise_append.2 ⟨hspre, List.pairwise_cons.2 ⟨hhigh, hspost⟩, fun a ha b hb => ?_⟩
  rcases List.mem_cons.1 hb with rfl | hb
  · exact hlow a ha
  · exact hcross a ha b hb

/-- A present symbol gets its leaf and its place in the list. -/
theorem SeededFrom.insert {done : List Symbol} {sym : Symbol} (h : SeededFrom s done u) (hs : s.freqAt sym ≠ 0#32)
    (hsym : sym ∉ done) : ∃ v, seedSymbol sym u = .next v ∧ SeededFrom s (sym :: done) v := by
  have hleaf : leafOf sym u = leafOf sym s := by simp only [leafOf, h.freqAt_eq]
  obtain ⟨syms, hpl, hperm, hsorted⟩ := h.listed
  set w : State := { u with nodes := Table.set u.nodes (leafIdx sym).toNat (leafOf sym u) } with hw
  have hself : w.node? (leafIdx sym) = some (leafOf sym s) := hleaf ▸ State.node?_set_self u _ _
  have hother : ∀ i, i ≠ leafIdx sym → w.node? i = u.node? i := fun i hi => State.node?_set_ne u _ hi
  have hmem : ∀ x ∈ syms, x ∈ done ∧ s.freqAt x ≠ 0#32 := fun x hx => by simpa using hperm.subset hx
  have hlisted : ∀ x ∈ syms, w.node? (leafIdx x) = some (leafOf x s) := fun x hx => by
    rw [hother _ fun e => hsym (leafIdx_injective e ▸ (hmem x hx).1), h.leaf_node x, if_pos (hmem x hx)]
  have hstops : ∀ k ∈ u.pl, ∃ old b, w.node? k = some old ∧ leafStops (leafOf sym u) old = .next b := fun k hk => by
    rw [hpl] at hk
    obtain ⟨x, hx, rfl⟩ := List.mem_map.1 hk
    obtain ⟨b, hb, -⟩ := leafStops_leafOf (s := s) sym x
    exact ⟨_, b, hlisted x hx, hleaf ▸ hb⟩
  obtain ⟨pl, hins⟩ := insertAt_completes (n := leafIdx sym) hstops
  refine ⟨{ w with pl := pl }, (seedSymbol_present_iff (by rwa [h.freqAt_eq])).2 ⟨pl, hins, rfl⟩, ?_⟩
  exact
    { frame := by rw [hw, h.frame]
      leaf_node := fun x => by
        change w.node? (leafIdx x) = _
        by_cases hx : x = sym
        · subst hx; rw [hself, if_pos ⟨List.mem_cons_self, hs⟩]
        · rw [hother _ fun e => hx (leafIdx_injective e), h.leaf_node x]
          simp [hx]
      high_node := fun i hi => by
        change w.node? i = none
        rw [hother i fun e => ?_, h.high_node i hi]
        have := sym.isLt
        rw [e, leafIdx_toNat] at hi
        omega
      listed := by
        obtain ⟨pre, post, hsplit, rfl, hpre, hpost⟩ := insertAt_next_spec hins
        rw [hpl] at hsplit
        obtain ⟨a, b, rfl, rfl, rfl⟩ := List.map_eq_append_iff.1 hsplit
        refine ⟨a ++ sym :: b, by simp, ?_, ?_⟩
        · rw [List.filter_cons_of_pos (by simpa using hs)]
          exact List.perm_middle.trans (hperm.cons sym)
        · refine seedBefore_pairwise_insert hsorted (fun hm => hsym (hmem sym (by simp [hm])).1) (fun k hk hb => ?_) fun k hk => ?_
          · obtain ⟨old, hold, hstop⟩ := hpre (leafIdx k) (List.mem_map_of_mem hk)
            cases (hlisted k (by simp [hk])).symm.trans hold
            rw [hleaf] at hstop
            exact absurd (seedBefore_iff_of_leafStops hstop |>.2 hb) (by simp)
          · obtain ⟨old, hold, hstop⟩ := hpost (leafIdx k) (by simp [hk])
            cases (hlisted k (List.mem_append_right _ (List.mem_of_head? hk))).symm.trans hold
            rw [hleaf] at hstop
            exact (seedBefore_iff_of_leafStops hstop).1 rfl }

/-- Seeding over different symbols completes, whatever their order. -/
theorem SeededFrom.seedLoop {done order : List Symbol} (h : SeededFrom s done u) (hnd : order.Nodup) (hdis : ∀ x ∈ order, x ∉ done) :
    ∃ v, seedLoop order u = .next v ∧ SeededFrom s (order.reverse ++ done) v := by
  induction order generalizing done u with
  | nil => exact ⟨u, rfl, h⟩
  | cons sym rest ih =>
    obtain ⟨hsym, hrest⟩ := List.nodup_cons.1 hnd
    obtain ⟨v, hv, hvs⟩ : ∃ v, seedSymbol sym u = .next v ∧ SeededFrom s (sym :: done) v := by
      by_cases h0 : s.freqAt sym = 0#32
      · exact ⟨u, seedSymbol_absent (by rwa [h.freqAt_eq]), h.skip h0⟩
      · exact h.insert h0 (hdis sym List.mem_cons_self)
    obtain ⟨w, hw, hws⟩ := ih hvs hrest fun x hx hm => by
      rcases List.mem_cons.1 hm with rfl | hm
      · exact hsym hx
      · exact hdis x (List.mem_cons_of_mem _ hx) hm
    refine ⟨w, ?_, by simpa using hws⟩
    change andThen (seedSymbol sym u) (Machine.seedLoop rest) = _
    rw [hv, andThen_next, hw]

/-- The whole loop over an open, empty block, in any order of the symbols (R147). -/
theorem seedLoop_seededFrom {order : List Symbol} (ho : order.Perm allSymbols) (hn : s.nodes = []) (hl : s.pl = []) :
    ∃ u, seedLoop order s = .next u ∧ SeededFrom s allSymbols u := by
  obtain ⟨u, hu, h⟩ := (SeededFrom.start hn hl).seedLoop (ho.nodup_iff.2 allSymbols_nodup) (by simp)
  rw [List.append_nil] at h
  have hperm : order.reverse.Perm allSymbols := (List.reverse_perm order).trans ho
  obtain ⟨syms, hpl, hsyms, hsorted⟩ := h.listed
  exact ⟨u, hu, h.frame, fun sym => by rw [h.leaf_node]; simp only [hperm.mem_iff], h.high_node,
    syms, hpl, hsyms.trans (hperm.filter _), hsorted⟩

/-! ## The seeded forest -/

/-- The symbols in the list are the present ones. -/
theorem SeededFrom.exists_syms (h : SeededFrom s allSymbols u) :
    ∃ syms : List Symbol, u.pl = syms.map leafIdx ∧ syms.Perm (presentSymbols s) ∧ syms.Pairwise (SeedBefore s) := h.listed

theorem SeededFrom.node?_leafIdx (h : SeededFrom s allSymbols u) (sym : Symbol) :
    u.node? (leafIdx sym) = if s.freqAt sym = 0#32 then none else some (leafOf sym s) := by
  rw [h.leaf_node sym]
  by_cases h0 : s.freqAt sym = 0#32 <;> simp [h0, mem_allSymbols]

theorem SeededFrom.weightAt_leafIdx (h : SeededFrom s allSymbols u) (sym : Symbol) :
    weightAt u (leafIdx sym) = (s.freqAt sym).toNat := by
  rw [weightAt, h.node?_leafIdx]
  by_cases h0 : s.freqAt sym = 0#32
  · simp [h0]
  · simp only [if_neg h0, weight_leafOf]

/-- Seeding makes no internal node. -/
theorem SeededFrom.index_lt (h : SeededFrom s allSymbols u) (hw : Memory.wf u) {e : Nat × Node} (he : e ∈ u.nodes) : e.1 < 256 := by
  by_contra hge
  have hlt : e.1 < 511 := (hw.2.1.2 e he).1
  have hidx : (BitVec.ofNat 9 e.1).toNat = e.1 := by rw [BitVec.toNat_ofNat]; omega
  have hnone := h.high_node (BitVec.ofNat 9 e.1) (by omega)
  rw [State.node?, hidx, Table.get?_of_mem hw.2.1.1 he] at hnone
  cases hnone

/-- After seeding there are no references to children. -/
theorem SeededFrom.childRefs_eq (h : SeededFrom s allSymbols u) (hw : Memory.wf u) : childRefs u = [] := by
  refine List.flatMap_eq_nil_iff.2 fun e he => ?_
  have hlt := h.index_lt hw he
  have hidx : (BitVec.ofNat 9 e.1).toNat = e.1 := by rw [BitVec.toNat_ofNat]; omega
  obtain ⟨sym, hsym⟩ := exists_leafIdx_eq (i := BitVec.ofNat 9 e.1) (by omega)
  have hn := h.node?_leafIdx sym
  rw [← hsym, State.node?, hidx, Table.get?_of_mem hw.2.1.1 he] at hn
  split at hn
  · cases hn
  · rw [Option.some.inj hn]; rfl

/-- The list holds exactly the valid nodes, once each. -/
theorem SeededFrom.owned (h : SeededFrom s allSymbols u) (hw : Memory.wf u) :
    (u.pl.map BitVec.toNat).Perm (u.nodes.map Prod.fst) := by
  obtain ⟨syms, hpl, hperm, -⟩ := h.exists_syms
  have hidx : u.pl.map BitVec.toNat = syms.map BitVec.toNat := by
    rw [hpl, List.map_map]; exact List.map_congr_left fun x _ => leafIdx_toNat x
  have hnd : (syms.map BitVec.toNat).Nodup :=
    (hperm.nodup_iff.2 (allSymbols_nodup.filter _)).map fun _ _ => BitVec.eq_of_toNat_eq
  have hnd' : (u.nodes.map Prod.fst).Nodup := List.pairwise_map.2 (hw.2.1.1.imp fun hlt => Nat.ne_of_lt hlt)
  rw [hidx, List.perm_ext_iff_of_nodup hnd hnd']
  intro k
  have hvalid : ∀ sym : Symbol, sym.toNat ∈ u.nodes.map Prod.fst ↔ sym ∈ syms := fun sym => by
    rw [hperm.mem_iff, mem_presentSymbols, ← leafIdx_toNat, ← node?_isSome_iff, h.node?_leafIdx]
    by_cases h0 : s.freqAt sym = 0#32 <;> simp [h0]
  constructor
  · intro hk
    obtain ⟨sym, hs, rfl⟩ := List.mem_map.1 hk
    exact (hvalid sym).2 hs
  · intro hk
    obtain ⟨e, he, rfl⟩ := List.mem_map.1 hk
    have hlt := h.index_lt hw he
    have hsym : (BitVec.ofNat 8 e.1).toNat = e.1 := by rw [BitVec.toNat_ofNat]; omega
    exact List.mem_map.2 ⟨BitVec.ofNat 8 e.1, (hvalid _).1 (by rw [hsym]; exact hk), hsym⟩

theorem sum_filter_present (s : State) (l : List Symbol) :
    ((l.filter fun x => s.freqAt x != 0#32).map fun x => (s.freqAt x).toNat).sum = (l.map fun x => (s.freqAt x).toNat).sum := by
  induction l with
  | nil => rfl
  | cons x rest ih => by_cases h0 : s.freqAt x = 0#32 <;> simp [h0, ih]

/-- The counts of the present symbols sum to `TOTAL`. -/
theorem FreqInv.sum_present (h : FreqInv s) : ((presentSymbols s).map fun x => (s.freqAt x).toNat).sum = s.total.toNat := by
  rw [← h.total_eq]; exact sum_filter_present s allSymbols

/-- After seeding, every present symbol is a tree of its own (R52, R53). -/
theorem SeededFrom.forest (h : SeededFrom s allSymbols u) (hw : Memory.wf u) (hf : FreqInv s) (hx : s.next = Config.firstInternal) :
    Forest u := by
  obtain ⟨syms, hpl, hperm, hsorted⟩ := h.exists_syms
  have hfreq : u.freq = s.freq := by rw [h.frame]
  have htotal : u.total = s.total := by rw [h.frame]
  have hunique : u.unique = s.unique := by rw [h.frame]
  have hnext : u.next = Config.firstInternal := by rw [h.frame]; exact hx
  exact
    { leaf_entries := fun sym => by rw [h.node?_leafIdx, State.freqAt_congr hfreq, leafOf_congr hfreq]
      internal_allocated := fun i hi => by
        rw [h.high_node i (firstInternal_le_iff.1 hi), hnext]
        simpa using BitVec.not_lt.2 hi
      internal_entries := fun e he hge => absurd (h.index_lt hw he) (by omega)
      owned_once := by rw [h.childRefs_eq hw, List.append_nil]; exact h.owned hw
      next_ge := by rw [hnext]; exact BitVec.le_refl _
      pl_sorted := by
        rw [hpl, List.pairwise_map]
        refine hsorted.imp fun {a b} hab => ?_
        rw [h.weightAt_leafIdx, h.weightAt_leafIdx]
        rcases hab with hab | ⟨hab, -⟩
        · exact Nat.le_of_lt hab
        · rw [hab]
      pl_total := by
        have hweights : syms.map (weightAt u ∘ leafIdx) = syms.map fun x => (s.freqAt x).toNat :=
          List.map_congr_left fun x _ => h.weightAt_leafIdx x
        rw [hpl, List.map_map, hweights, htotal, ← hf.sum_present]
        exact (hperm.map _).sum_eq
      pl_leaves := by
        have hleaf : ∀ x ∈ syms, leavesAt u (leafIdx x) = [x] := fun x hx => by
          have h0 := mem_presentSymbols.1 (hperm.subset hx)
          exact leavesAt_leaf (w := (s.freqAt x).setWidth 40) (by rw [h.node?_leafIdx, if_neg h0]; rfl)
        rw [hpl, List.flatMap_map, List.flatMap_congr hleaf, presentSymbols_congr hfreq]
        simpa using hperm
      pl_count := by
        rw [hpl, List.length_map, hperm.length_eq, hf.unique_eq, hunique, hnext]; rfl }

/-- From an open block with a closed header the seeding loop completes, and what it makes is a builder's state (R145). -/
theorem Inv.seedLoop (h : Inv s) (hp : s.phase = .freq) (hh : s.hst = .idle ∨ s.hst = .done) :
    ∃ u, seedLoop allSymbols s = .next u ∧ Built u ∧ Unrooted u := by
  obtain ⟨hn, hl, hx⟩ := h.treeInv.open_empty hp
  obtain ⟨u, hu, hs⟩ := seedLoop_seededFrom (.refl _) hn hl
  have hw := seedLoop_wf h.wf hu
  have hforest := hs.forest hw h.freqInv hx
  obtain ⟨ha, hb⟩ := h.workInv.acc_idle (by simp [hp])
  obtain ⟨ns, pl, rfl⟩ : ∃ ns pl, u = { s with nodes := ns, pl := pl } := ⟨_, _, hs.frame⟩
  exact ⟨_, hu,
    { wf := hw
      freqInv := h.freqInv.congr rfl rfl rfl rfl rfl h.freqInv.header_closed
      header := hh
      forest := hforest
      acc := ha
      nbits := hb
      decoded := h.workInv.decoded_zero (.inl hp)
      codes := h.codeInv.closed (by simp [hp]) },
    h.unrooted (.inl hp)⟩

/-- The body of `SEED` completes and keeps the invariants (R145). -/
theorem Inv.seedBody (h : Inv s) (hp : s.phase = .freq) (hh : s.hst = .idle ∨ s.hst = .done) :
    ∃ t, seedBody s = .next t ∧ Inv t := by
  obtain ⟨u, hu, hb, hr⟩ := h.seedLoop hp hh
  exact ⟨_, seedBody_eq_next_iff.2 ⟨u, hu, rfl⟩, hb.inv_finishSeeding hr⟩

end Sys2Proof.Machine
end

section
/-! PROOF. What each invariant depends on; the open block of phase FREQ (R50, R131, R194); the code table (R181). -/

namespace Sys2Proof.Machine

variable {s t : State}

/-! ## What the invariants depend on -/

theorem TreeInv.congr (h : TreeInv s) (hf : t.freq = s.freq) (ht : t.total = s.total) (hu : t.unique = s.unique)
    (hn : t.nodes = s.nodes) (hx : t.next = s.next) (hl : t.pl = s.pl) (hp : t.phase = s.phase) (hr : t.root = s.root)
    (hv : t.rootv = s.rootv) (hc : s.rootv = false → t.cur = s.cur) : TreeInv t where
  open_empty := by rw [hp, hn, hl, hx]; exact h.open_empty
  leaf_entries := by
    simp only [hp, State.node?_congr hn, State.freqAt_congr hf, leafOf_congr hf]; exact h.leaf_entries
  internal_allocated := by simp only [State.node?_congr hn, hx]; exact h.internal_allocated
  internal_entries := by simp only [State.node?_congr hn, hn, weightAt_congr hn]; exact h.internal_entries
  owned_once := by rw [hl, hn, childRefs_congr hn]; exact h.owned_once
  next_ge := by rw [hx]; exact h.next_ge
  pl_sorted := by rw [hl, weightAt_congr hn]; exact h.pl_sorted
  pl_total := by rw [hp, hl, ht, weightAt_congr hn]; exact h.pl_total
  pl_leaves := by rw [hp, hl, leavesAt_congr hn, presentSymbols_congr hf]; exact h.pl_leaves
  pl_count := by rw [hp, hl, hx, hu]; exact h.pl_count
  seeded_two := by rw [hp, hl]; exact h.seeded_two
  complete_root := by rw [hp, hu, hl, hr, hv]; exact h.complete_root
  complete_empty := by rw [hp, hu, hl, hv]; exact h.complete_empty
  no_root hf := by
    rw [hv] at hf
    rw [hr, hc hf]
    exact h.no_root hf

theorem CodeInv.congr (h : CodeInv s) (hf : t.freq = s.freq) (hu : t.unique = s.unique) (hn : t.nodes = s.nodes)
    (hp : t.phase = s.phase) (hr : t.root = s.root) (hc : t.codes = s.codes) : CodeInv t where
  closed := by rw [hp, hc]; exact h.closed
  few := by rw [hu, hc]; exact h.few
  present := by simp only [hp, hu, State.code?_congr hc, State.freqAt_congr hf]; exact h.present
  is_path := by simp only [hr, State.code?_congr hc, leafReached_congr hn]; exact h.is_path
  prefix_free := by simp only [State.code?_congr hc]; exact h.prefix_free

/-- That a node is inside a tree is read from the node store. -/
theorem insideTree_congr (hn : t.nodes = s.nodes) {r c : NodeIdx} (h : (s.node? c).isSome = true ∧ ∃ p, descend s r p = some c) :
    (t.node? c).isSome = true ∧ ∃ p, descend t r p = some c := by
  simpa only [State.node?_congr hn, descend_congr hn] using h

theorem WorkInv.congr (h : WorkInv s) (ha : t.acc = s.acc) (hb : t.nbits = s.nbits) (hp : t.phase = s.phase)
    (hd : t.decoded = s.decoded) (ht : t.total = s.total) (hv : t.rootv = s.rootv) (hn : t.nodes = s.nodes) (hc : t.cur = s.cur)
    (hr : t.root = s.root) (hu : t.unique = s.unique) : WorkInv t where
  acc_low := by rw [AccLowClear, ha, hb]; exact h.acc_low
  acc_idle := by rw [hp, ha, hb]; exact h.acc_idle
  decoded_le := by rw [hd, ht]; exact h.decoded_le
  decoded_zero := by rw [hp, hd]; exact h.decoded_zero
  rootv_phase := by rw [hp, hv]; exact h.rootv_phase
  cur_inside := by rw [hv, hc, hr]; exact fun hv => insideTree_congr hn (h.cur_inside hv)
  cur_internal := by rw [hv, hu, hc]; simp only [State.node?_congr hn]; exact h.cur_internal

/-- No invariant speaks of `ERR`, `OUT` or the host's queue. -/
theorem Inv.set_err_out_host (h : Inv s) (c : ErrCode) (o : List Byte) (q : List HostAction) :
    Inv { s with err := c, out := o, host := q } where
  wf := h.wf
  freqInv := h.freqInv.congr rfl rfl rfl rfl rfl h.freqInv.header_closed
  treeInv := h.treeInv.congr rfl rfl rfl rfl rfl rfl rfl rfl rfl fun _ => rfl
  workInv := h.workInv.congr rfl rfl rfl rfl rfl rfl rfl rfl rfl rfl
  codeInv := h.codeInv.congr rfl rfl rfl rfl rfl rfl

theorem Inv.set_err (h : Inv s) (c : ErrCode) : Inv { s with err := c } := h.set_err_out_host c s.out s.host

theorem Inv.set_out (h : Inv s) (o : List Byte) : Inv { s with out := o } := h.set_err_out_host s.err o s.host

theorem Inv.set_host (h : Inv s) (q : List HostAction) : Inv { s with host := q } := h.set_err_out_host s.err s.out q

/-! ## The open block -/

/-- Phase FREQ: the table is open and everything after it has its reset value (R50, R52 to R55). -/
structure OpenBlock (s : State) : Prop where
  phase : s.phase = .freq
  nodes : s.nodes = []
  pl : s.pl = []
  next : s.next = Config.firstInternal
  root : s.root = 0#9
  rootv : s.rootv = false
  cur : s.cur = 0#9
  acc : s.acc = 0#8
  nbits : s.nbits = 0#3
  decoded : s.decoded = 0#40
  codes : s.codes = []

/-- In phase FREQ the invariants leave nothing but the table and the header parser open. -/
theorem Inv.openBlock (h : Inv s) (hp : s.phase = .freq) : OpenBlock s := by
  obtain ⟨hn, hl, hx⟩ := h.treeInv.open_empty hp
  obtain ⟨hr, hv, hc⟩ := h.unrooted (.inl hp)
  obtain ⟨ha, hb⟩ := h.workInv.acc_idle (by simp [hp])
  exact ⟨hp, hn, hl, hx, hr, hv, hc, ha, hb, h.workInv.decoded_zero (.inl hp), h.codeInv.closed (by simp [hp])⟩

/-- An open block with canonical tables and the frequency invariants meets the invariants. -/
theorem OpenBlock.inv (h : OpenBlock s) (hw : Memory.wf s) (hf : FreqInv s) : Inv s where
  wf := hw
  freqInv := hf
  treeInv :=
    { open_empty := fun _ => ⟨h.nodes, h.pl, h.next⟩
      leaf_entries := fun hp => absurd h.phase hp
      internal_allocated := fun i hi => by
        simpa [State.node?, h.nodes, h.next] using BitVec.not_lt.2 hi
      internal_entries := by simp [h.nodes]
      owned_once := by simp [childRefs, h.nodes, h.pl]
      next_ge := by rw [h.next]; exact BitVec.le_refl _
      pl_sorted := by simp [h.pl]
      pl_total := fun hp => absurd h.phase hp
      pl_leaves := fun hp => absurd h.phase hp
      pl_count := fun hp => absurd h.phase hp
      seeded_two := by simp [h.phase]
      complete_root := by simp [h.phase]
      complete_empty := by simp [h.phase]
      no_root := fun _ => ⟨h.root, h.cur⟩ }
  workInv :=
    { acc_low := acc_low_of_zero h.acc h.nbits
      acc_idle := fun _ => ⟨h.acc, h.nbits⟩
      decoded_le := by rw [h.decoded]; simp [BitVec.le_def]
      decoded_zero := fun _ => h.decoded
      rootv_phase := by simp [h.rootv]
      cur_inside := by simp [h.rootv]
      cur_internal := by simp [h.rootv] }
  codeInv := codeInv_of_empty h.codes (.inl (by simp [h.phase]))

theorem openBlock_clearBlock (s : State) : OpenBlock (clearBlock s) := ⟨rfl, rfl, rfl, rfl, rfl, rfl, rfl, rfl, rfl, rfl, rfl⟩

theorem inv_clearBlock (s : State) : Inv (clearBlock s) :=
  (openBlock_clearBlock s).inv (Memory.wf_clearBlock s) (FreqInv.clearBlock s)

/-- Settles O48: the reset state is an open block, empty. -/
theorem resetMeetsInvariants : Obligations.ResetMeetsInvariants := inv_clearBlock State.reset

/-- `REC` below the largest count keeps the invariants. -/
theorem Inv.countSymbol (h : Inv s) (hp : s.phase = .freq) (hh : s.hst = .idle) {sym : Symbol} (hm : s.freqAt sym ≠ Config.freqMax) :
    Inv (countSymbol sym s) :=
  OpenBlock.inv { h.openBlock hp with } (Memory.wf_countSymbol h.wf sym) (h.freqInv.countSymbol hp hh hm)

/-- A header byte keeps the invariants. -/
theorem HinEffect.inv {b : Byte} (h : HinEffect b s t) (hs : Inv s) : Inv t := by
  have hw := h.wf hs.wf
  have hf := h.freqInv hs.freqInv
  cases h with
  | stays c => exact hs.set_err c
  | opens hp | advances hp | commits hp => exact OpenBlock.inv { hs.openBlock hp with } hw hf

/-! ## The Code Table -/

/-- The walk over a tree completes; a leaf's symbol has then as its code the path that led to it, every other symbol the code it had
(R181). -/
theorem walk_spec {depth : Nat} {i : NodeIdx} {T : Tree} (hT : treeWithin s depth i = some T) (p : List Bool) (codes : Table Code) :
    ∃ out, walk s depth i p codes = .next out ∧
      (∀ x : Symbol, x ∉ T.leaves → Table.get? out x.toNat = Table.get? codes x.toNat) ∧
      (∀ x : Symbol, x ∈ T.leaves →
        ∃ q, Table.get? out x.toNat = some ⟨p ++ q⟩ ∧ leafReached s i q = some x ∧ q.length < depth) := by
  induction depth generalizing i T p codes with
  | zero => cases hT
  | succ d ih =>
    cases hn : s.node? i with
    | none => simp [treeWithin, hn] at hT
    | some n =>
      cases n with
      | leaf sym w =>
        cases (treeWithin_leaf hn d).symm.trans hT
        refine ⟨_, walk_leaf hn, fun x hx => ?_, fun x hx => ?_⟩
        · have hne : x ≠ sym := by simpa [Tree.leaves] using hx
          exact Table.get?_set_ne _ _ fun e => hne (BitVec.eq_of_toNat_eq e)
        · obtain rfl : x = sym := by simpa [Tree.leaves] using hx
          exact ⟨[], by simp [writeCode], leafReached_nil_of_leaf hn, Nat.succ_pos d⟩
      | internal w l r =>
        obtain ⟨L, R, hL, hR, rfl⟩ : ∃ L R, treeWithin s d l = some L ∧ treeWithin s d r = some R ∧ T = .internal w L R := by
          simp only [treeWithin, hn] at hT
          cases hL : treeWithin s d l <;> cases hR : treeWithin s d r <;> simp [hL, hR] at hT
          exact ⟨_, _, rfl, rfl, hT.symm⟩
        obtain ⟨mid, hmid, hmid_out, hmid_in⟩ := ih hL (p ++ [false]) codes
        obtain ⟨out, hout, hout_out, hout_in⟩ := ih hR (p ++ [true]) mid
        refine ⟨out, by rw [walk_internal hn, hmid, andThen_next, hout], fun x hx => ?_, fun x hx => ?_⟩
        · rw [Tree.leaves, List.mem_append, not_or] at hx
          rw [hout_out x hx.2, hmid_out x hx.1]
        · by_cases hxr : x ∈ R.leaves
          · obtain ⟨q, hq, hreach, hlen⟩ := hout_in x hxr
            exact ⟨true :: q, by simpa using hq, by rw [leafReached_cons hn]; exact hreach, Nat.succ_lt_succ hlen⟩
          · have hxl : x ∈ L.leaves := (List.mem_append.1 hx).resolve_right hxr
            obtain ⟨q, hq, hreach, hlen⟩ := hmid_in x hxl
            exact ⟨false :: q, by simpa [hout_out x hxr] using hq, by rw [leafReached_cons hn]; exact hreach, Nat.succ_lt_succ hlen⟩

/-- The move to phase CODED leaves the tree as it is (R181, R184). -/
theorem TreeInv.coded (h : TreeInv s) (hp : s.phase = .tree) (codes : Table Code) :
    TreeInv { s with codes := codes, phase := .coded } := by
  have hf := (h.forest (by simp [hp])).congr (t := { s with codes := codes, phase := .coded }) rfl rfl rfl rfl rfl rfl
  exact hf.treeInv (by simp) (by simp) (fun _ => h.complete_root (.inl hp)) (fun _ => h.complete_empty (.inl hp)) h.no_root

theorem WorkInv.coded (h : WorkInv s) (codes : Table Code) : WorkInv { s with codes := codes, phase := .coded } where
  acc_low := h.acc_low
  acc_idle hn := absurd rfl hn
  decoded_le := h.decoded_le
  decoded_zero hp := by simp at hp
  rootv_phase _ := .inr rfl
  cur_inside hv := insideTree_congr (s := s) (by rfl) (h.cur_inside hv)
  cur_internal := h.cur_internal

/-- In phase CODED with two or more present symbols: codes that are paths to the leaves of their symbols, one for each present symbol,
meet R55. -/
theorem codeInv_of_paths (hp : s.phase = .coded) (hu : 2#9 ≤ s.unique) {w : Weight} {l r : NodeIdx}
    (hroot : s.node? s.root = some (.internal w l r)) (hpresent : ∀ x, s.freqAt x ≠ 0#32 → (s.code? x).isSome = true)
    (hpath : ∀ x c, s.code? x = some c →
      s.freqAt x ≠ 0#32 ∧ leafReached s s.root c.bits = some x ∧ c.bits.length ≤ Config.maxLen) : CodeInv s where
  closed hn := absurd hp hn
  few hn := by
    rw [BitVec.le_def] at hn hu
    exact absurd (hu.trans hn) (by decide)
  present _ _ x := by
    refine ⟨fun hs => ?_, hpresent x⟩
    obtain ⟨c, hc⟩ := Option.isSome_iff_exists.1 hs
    exact (hpath x c hc).1
  is_path x c hc := by
    obtain ⟨-, hreach, hlen⟩ := hpath x c hc
    refine ⟨hreach, List.length_pos_iff.2 fun hnil => ?_, hlen⟩
    simp [hnil, leafReached, hroot] at hreach
  prefix_free a b ca cb ha hb hpre := by
    obtain ⟨-, hreachA, -⟩ := hpath a ca ha
    obtain ⟨-, hreachB, -⟩ := hpath b cb hb
    exact eq_of_leafReached_prefix hreachA hreachB hpre

/-- `GEN` with two or more present symbols completes and keeps the invariants: each present symbol's code is its path (R181). -/
theorem Inv.gen (h : Inv s) (hp : s.phase = .tree) (hu : 2#9 ≤ s.unique) :
    ∃ codes, walk s (Config.maxLen + 1) s.root [] s.codes = .next codes ∧ Inv { s with codes := codes, phase := .coded } := by
  have hne : s.unique ≠ 0#9 := fun e => by rw [e] at hu; exact absurd hu (by decide)
  have hf := h.treeInv.forest (by simp [hp])
  obtain ⟨hpl, hv⟩ := h.treeInv.complete_root (.inl hp) hne
  obtain ⟨w, l, r, hroot⟩ := hf.root_internal h.freqInv hpl hu
  obtain ⟨T, hT⟩ := hf.exists_treeAt (hf.isSome_of_mem_pl (k := s.root) (by simp [hpl]))
  obtain ⟨codes, hcodes, habsent, hpresent⟩ := walk_spec hT [] s.codes
  have hleaves : ∀ x, x ∈ T.leaves ↔ s.freqAt x ≠ 0#32 := fun x => by
    rw [← leavesAt_eq_of_treeAt hT, (hf.leavesAt_root hpl).mem_iff, mem_presentSymbols]
  have hcode : CodeInv { s with codes := codes, phase := .coded } := by
    refine codeInv_of_paths rfl hu hroot (fun x hx => ?_) fun x c hc => ?_
    · obtain ⟨q, hq, -⟩ := hpresent x ((hleaves x).2 hx)
      exact Option.isSome_iff_exists.2 ⟨_, hq⟩
    · by_cases hx : x ∈ T.leaves
      · obtain ⟨q, hq, hreach, hlen⟩ := hpresent x hx
        cases hq.symm.trans hc
        exact ⟨(hleaves x).1 hx, (leafReached_congr (s := s) (by rfl) _ _).trans hreach, Nat.le_of_lt_succ hlen⟩
      · have hnone := habsent x hx
        rw [h.codeInv.closed (by simp [hp]), Table.get?_nil] at hnone
        cases hnone.symm.trans hc
  exact ⟨codes, hcodes, ⟨h.wf.1, h.wf.2.1, walk_canonical h.wf.2.2 hcodes⟩,
    h.freqInv.congr rfl rfl rfl rfl rfl fun _ => h.freqInv.header_closed (by simp [hp]), h.treeInv.coded hp codes,
    h.workInv.coded codes, hcode⟩

/-- `GEN` with fewer only moves the phase (R184). -/
theorem Inv.gen_few (h : Inv s) (hp : s.phase = .tree) (hu : ¬2#9 ≤ s.unique) : Inv { s with phase := .coded } where
  wf := h.wf
  freqInv := h.freqInv.congr rfl rfl rfl rfl rfl fun _ => h.freqInv.header_closed (by simp [hp])
  treeInv := h.treeInv.coded hp s.codes
  workInv := h.workInv.coded s.codes
  codeInv := codeInv_of_empty (h.codeInv.closed (by simp [hp])) (.inr (by
    rw [BitVec.le_def] at hu ⊢
    exact Nat.le_of_lt_succ (Nat.lt_of_not_le hu)))

end Sys2Proof.Machine
end

section
/-! PROOF. The packer and the unpacker keep the invariants (R54); every step does, and never stops (R51 to R55). -/

namespace Sys2Proof.Machine

variable {s t : State}

/-! ## The packer -/

/-- A bit written into the accumulator is read there, and no other bit changes (R211). -/
theorem getLsbD_setBit (b : Byte) {i j : Nat} (hi : i < 8) (c : Bool) :
    (setBit b i c).getLsbD j = if j = i then c else b.getLsbD j := by
  have hmask : (1#8 <<< i).getLsbD j = decide (j = i) := by
    rw [BitVec.getLsbD_shiftLeft, BitVec.getLsbD_one, Bool.eq_iff_iff]
    simp only [Bool.and_eq_true, decide_eq_true_eq, Bool.not_eq_true', decide_eq_false_iff_not]
    omega
  cases c with
  | true =>
    rw [setBit, if_pos rfl, BitVec.getLsbD_or, hmask]
    by_cases hj : j = i <;> simp [hj]
  | false =>
    rw [setBit, if_neg Bool.false_ne_true, BitVec.getLsbD_and, BitVec.getLsbD_not, hmask]
    by_cases hj : j = i
    · simp [hj]
    · simpa [hj] using fun h => BitVec.lt_of_getLsbD h

/-- The bits below the pending ones, by number: `ACC[7-NBITS : 0] = 0` (R33). -/
theorem accLowClear_iff : AccLowClear s ↔ ∀ j, j + s.nbits.toNat < 8 → s.acc.getLsbD j = false := by
  have hbit : ∀ k, (bitsMsbFirst s.acc)[k]? = if k < 8 then some (s.acc.getLsbD (7 - k)) else none := fun k => by
    by_cases hk : k < 8
    · rw [if_pos hk]; interval_cases k <;> rfl
    · rw [if_neg hk]; exact List.getElem?_eq_none (Nat.le_of_not_lt hk)
  rw [AccLowClear, List.eq_replicate_iff, and_iff_right (by simp)]
  simp only [List.mem_iff_getElem?, List.getElem?_drop, hbit]
  constructor
  · intro h j hj
    refine h _ ⟨7 - j - s.nbits.toNat, ?_⟩
    rw [if_pos (by omega), show 7 - (s.nbits.toNat + (7 - j - s.nbits.toNat)) = j by omega]
  · rintro h b ⟨k, hk⟩
    split at hk
    · rw [← Option.some.inj hk]; exact h _ (by omega)
    · cases hk

/-- Appending a bit keeps the bits below the pending ones clear (R211). -/
theorem accLowClear_appendBit (h : AccLowClear s) (c : Bool) : AccLowClear (appendBit s c) := by
  by_cases hn : s.nbits = 7#3
  · rw [appendBit_full c hn]; exact acc_low_of_zero rfl rfl
  · have hlt : s.nbits.toNat < 7 := by
      have := s.nbits.isLt
      have hne : s.nbits.toNat ≠ 7 := fun e => hn (BitVec.eq_of_toNat_eq e)
      omega
    have hsucc : (s.nbits + 1#3).toNat = s.nbits.toNat + 1 := by rw [BitVec.toNat_add, BitVec.toNat_ofNat]; omega
    rw [appendBit_room c hn, accLowClear_iff]
    intro j hj
    simp only [hsucc] at hj
    rw [getLsbD_setBit _ (by omega), if_neg (by omega)]
    exact accLowClear_iff.1 h j (by omega)

theorem accLowClear_appendBits (bits : List Bool) (h : AccLowClear s) : AccLowClear (appendBits bits s) := by
  induction bits generalizing s with
  | nil => exact h
  | cons c rest ih => exact ih (accLowClear_appendBit h c)

/-- In phase CODED the packer may hold any pending bits above clear ones. -/
theorem Inv.set_acc (h : Inv s) (hp : s.phase = .coded) {a : Byte} {n : BitVec 3} {o : List Byte}
    (hlow : AccLowClear { s with acc := a, nbits := n, out := o }) : Inv { s with acc := a, nbits := n, out := o } where
  wf := h.wf
  freqInv := h.freqInv.congr rfl rfl rfl rfl rfl h.freqInv.header_closed
  treeInv := h.treeInv.congr rfl rfl rfl rfl rfl rfl rfl rfl rfl fun _ => rfl
  workInv :=
    { acc_low := hlow
      acc_idle := fun hn => absurd hp hn
      decoded_le := h.workInv.decoded_le
      decoded_zero := h.workInv.decoded_zero
      rootv_phase := h.workInv.rootv_phase
      cur_inside := fun hv => insideTree_congr (s := s) (by rfl) (h.workInv.cur_inside hv)
      cur_internal := h.workInv.cur_internal }
  codeInv := h.codeInv.congr rfl rfl rfl rfl rfl rfl

/-- Packing a code keeps the invariants (R212). -/
theorem Inv.appendBits (h : Inv s) (hp : s.phase = .coded) (bits : List Bool) : Inv (appendBits bits s) := by
  have hlow := accLowClear_appendBits bits h.workInv.acc_low
  rw [appendBits_frame] at hlow ⊢
  exact h.set_acc hp hlow

/-- Emitting the accumulator keeps the invariants (R214). -/
theorem Inv.emitAcc (h : Inv s) (hp : s.phase = .coded) : Inv (emitAcc s) :=
  h.set_acc hp (acc_low_of_zero rfl rfl)

/-! ## The unpacker -/

/-- In phases TREE and CODED, a table with an occurrence has a root (R53). -/
theorem Inv.rooted (h : Inv s) (hp : s.phase = .tree ∨ s.phase = .coded) (ht : s.total ≠ 0#40) :
    s.pl = [s.root] ∧ s.rootv = true := by
  refine h.treeInv.complete_root hp fun hu => ht (BitVec.eq_of_toNat_eq ?_)
  exact h.freqInv.unique_eq_zero_iff.1 (by rw [hu]; rfl)

/-- While symbols remain to be decoded, there are some. -/
theorem Inv.total_ne_zero (h : Inv s) (hd : s.decoded ≠ s.total) : s.total ≠ 0#40 := by
  intro ht
  have hle := h.workInv.decoded_le
  rw [ht, BitVec.le_def] at hle
  exact hd (BitVec.eq_of_toNat_eq (by rw [ht]; simpa using hle))

/-- In phases TREE and CODED with a root, the pointer and the count of decoded symbols may move: to a node inside the tree that is
internal when two or more symbols are present, and up to `TOTAL`. -/
theorem Inv.set_cur (h : Inv s) (hp : s.phase = .tree ∨ s.phase = .coded) (hv : s.rootv = true) {o : List Byte} {d : Weight}
    {c : NodeIdx} (hd : d ≤ s.total) (hc : (s.node? c).isSome = true ∧ ∃ p, descend s s.root p = some c)
    (hi : 2#9 ≤ s.unique → ∃ w l r, s.node? c = some (.internal w l r)) :
    Inv { s with out := o, decoded := d, cur := c } where
  wf := h.wf
  freqInv := h.freqInv.congr rfl rfl rfl rfl rfl h.freqInv.header_closed
  treeInv := h.treeInv.congr rfl rfl rfl rfl rfl rfl rfl rfl rfl fun hf => by simp [hv] at hf
  workInv :=
    { acc_low := h.workInv.acc_low
      acc_idle := h.workInv.acc_idle
      decoded_le := hd
      decoded_zero := fun hp' => by
        have hp'' : s.phase = .freq ∨ s.phase = .seeded := hp'
        rcases hp with hp | hp <;> simp [hp] at hp''
      rootv_phase := fun _ => hp
      cur_inside := fun _ => insideTree_congr (s := s) (by rfl) hc
      cur_internal := fun _ => hi }
  codeInv := h.codeInv.congr rfl rfl rfl rfl rfl rfl

/-- A move to a child of the current node completes and keeps the invariants (R226). -/
theorem Inv.moveTo (h : Inv s) (hp : s.phase = .tree ∨ s.phase = .coded) (hd : s.decoded ≠ s.total) {w : Weight} {l r : NodeIdx}
    (hn : s.node? s.cur = some (.internal w l r)) (c : Bool) :
    ∃ t, moveTo (if c then r else l) s = .next t ∧ Inv t ∧ t.phase = s.phase := by
  obtain ⟨hpl, hv⟩ := h.rooted hp (h.total_ne_zero hd)
  have hf := h.treeInv.forest (by rcases hp with hp | hp <;> simp [hp])
  obtain ⟨-, -, -, -, hlv, hrv, -⟩ := hf.internal hn
  have hchild : (s.node? (if c then r else l)).isSome = true := by cases c <;> assumption
  obtain ⟨n, hcn⟩ := Option.isSome_iff_exists.1 hchild
  cases n with
  | leaf sym w' =>
    refine ⟨_, moveTo_eq_next_iff.2 (.inl ⟨sym, w', hcn, rfl⟩), h.set_cur hp hv ?_ ?_ ?_, rfl⟩
    · have hle := h.workInv.decoded_le
      have hne : s.decoded.toNat ≠ s.total.toNat := fun e => hd (BitVec.eq_of_toNat_eq e)
      have := s.total.isLt
      rw [BitVec.le_def] at hle ⊢
      rw [BitVec.toNat_add, BitVec.toNat_ofNat]
      omega
    · exact ⟨hf.isSome_of_mem_pl (by rw [hpl]; exact List.mem_singleton_self _), [], rfl⟩
    · exact fun hu => hf.root_internal h.freqInv hpl hu
  | internal w' l' r' =>
    obtain ⟨-, p, hpath⟩ := h.workInv.cur_inside hv
    refine ⟨_, moveTo_eq_next_iff.2 (.inr ⟨w', l', r', hcn, rfl⟩), ?_, rfl⟩
    refine h.set_cur hp hv h.workInv.decoded_le ⟨hchild, p ++ [c], ?_⟩ fun _ => ⟨w', l', r', hcn⟩
    rw [descend_append, hpath, Option.bind_some, descend_internal hn, descend_nil]

/-- The loop of `GET` completes and keeps the invariants (R226 to R228). -/
theorem Inv.takeBits (h : Inv s) (hp : s.phase = .tree ∨ s.phase = .coded) (bits : List Bool) :
    ∃ t, takeBits bits s = .next t ∧ Inv t := by
  induction bits generalizing s with
  | nil => exact ⟨s, rfl, h⟩
  | cons c rest ih =>
    by_cases hd : s.decoded = s.total
    · exact ⟨s, takeBits_done hd, h⟩
    · obtain ⟨-, hv⟩ := h.rooted hp (h.total_ne_zero hd)
      obtain ⟨n, hn⟩ := Option.isSome_iff_exists.1 (h.workInv.cur_inside hv).1
      cases n with
      | leaf sym w => exact ⟨_, takeBits_leaf hd hn, h.set_err _⟩
      | internal w l r =>
        obtain ⟨u, hu, hui, hup⟩ := h.moveTo hp hd hn c
        obtain ⟨t, ht, hti⟩ := ih hui (by rwa [hup])
        exact ⟨t, by rw [takeBits_internal hd hn, hu, andThen_next, ht], hti⟩

/-- In the single-symbol case the body of `DREP` completes and keeps the invariants (R229). -/
theorem Inv.repeatRoot (h : Inv s) (hp : s.phase = .tree ∨ s.phase = .coded) (hu : s.unique = 1#9) :
    ∃ t, repeatRoot s = .next t ∧ Inv t := by
  obtain ⟨hpl, hv⟩ := h.treeInv.complete_root hp (by rw [hu]; decide)
  have hf := h.treeInv.forest (by rcases hp with hp | hp <;> simp [hp])
  obtain ⟨sym, w, hn⟩ := hf.root_leaf hpl hu
  refine ⟨_, repeatRoot_eq_next_iff.2 ⟨sym, w, hn, rfl⟩, ?_⟩
  exact h.set_cur hp hv (BitVec.le_refl _) (h.workInv.cur_inside hv) (h.workInv.cur_internal hv)

/-! ## Every command and every step -/

/-- A faulted block, or a check that fails, keeps the invariants; so a guarded command has to keep them only past its checks. -/
theorem Inv.unlessFaulted (h : Inv s) {k : Result State} (hk : s.err = .noFault → ∃ t, k = .next t ∧ Inv t) :
    ∃ t, unlessFaulted s k = .next t ∧ Inv t := by
  by_cases he : s.err = .noFault
  · rw [unlessFaulted_live he]; exact hk he
  · rw [unlessFaulted_faulted he]; exact ⟨s, rfl, h⟩

theorem Inv.require (h : Inv s) {p : Prop} [Decidable p] {c : ErrCode} {k : Result State} (hk : p → ∃ t, k = .next t ∧ Inv t) :
    ∃ t, require p c s k = .next t ∧ Inv t := by
  by_cases hp : p
  · rw [require_pos hp]; exact hk hp
  · rw [require_neg hp]; exact ⟨_, rfl, h.set_err c⟩

/-- Every command completes from a state with the invariants and keeps them. -/
theorem Inv.exec (h : Inv s) (i : Instr) : ∃ t, exec i s = .next t ∧ Inv t := by
  cases i with
  | nop => exact ⟨s, rfl, h⟩
  | clr => exact ⟨_, rfl, inv_clearBlock s⟩
  | recSym sym =>
    exact h.unlessFaulted fun _ => h.require fun hp => h.require fun hm => ⟨_, rfl, h.countSymbol hp.1 hp.2 hm⟩
  | hin b =>
    obtain ⟨t, ht, heff⟩ := execHin_effect b s
    exact ⟨t, ht, heff.inv h⟩
  | seed => exact h.unlessFaulted fun _ => h.require fun hp => h.require fun hh => h.seedBody hp hh
  | merge => exact h.unlessFaulted fun _ => h.require fun hp => h.mergeStep hp
  | build =>
    refine h.unlessFaulted fun _ => ?_
    by_cases hp : s.phase = .freq
    · rw [if_pos hp]
      refine h.require fun hh => ?_
      obtain ⟨u, hu, hui⟩ := h.seedBody hp hh
      rw [hu, andThen_next]
      exact hui.mergeAll
    · rw [if_neg hp]
      exact h.require fun _ => h.mergeAll
  | gen =>
    refine h.unlessFaulted fun _ => h.require fun hp => ?_
    by_cases hu : 2#9 ≤ s.unique
    · obtain ⟨codes, hcodes, hi⟩ := h.gen hp hu
      rw [if_pos hu, hcodes]
      exact ⟨_, rfl, hi⟩
    · rw [if_neg hu]
      exact ⟨_, rfl, h.gen_few hp hu⟩
  | hout => exact h.unlessFaulted fun _ => h.require fun _ => ⟨_, rfl, h.set_out _⟩
  | put sym =>
    refine h.unlessFaulted fun _ => h.require fun hp => h.require fun hs => ?_
    by_cases hu : 2#9 ≤ s.unique
    · obtain ⟨c, hc⟩ := Option.isSome_iff_exists.1 ((h.codeInv.present hp hu sym).2 hs)
      rw [if_pos hu, State.readCode_of_code? hc]
      exact ⟨_, rfl, h.appendBits hp c.bits⟩
    · rw [if_neg hu]
      exact ⟨s, rfl, h⟩
  | flush =>
    refine h.unlessFaulted fun _ => h.require fun hp => ?_
    by_cases hn : s.nbits = 0#3
    · rw [if_pos hn]; exact ⟨s, rfl, h⟩
    · rw [if_neg hn]; exact ⟨_, rfl, h.emitAcc hp⟩
  | get b => exact h.unlessFaulted fun _ => h.require fun hp => h.takeBits hp _
  | drep =>
    refine h.unlessFaulted fun _ => h.require fun hp => h.require fun _ => ?_
    by_cases hu : s.unique = 1#9
    · rw [if_pos hu]; exact h.repeatRoot hp hu
    · rw [if_neg hu]; exact ⟨s, rfl, h⟩
  | ioerr => exact h.unlessFaulted fun _ => ⟨_, rfl, h.set_err .io⟩

/-- Settles O51: waiting, every command and an ill-formed word answer a next state with the invariants. -/
theorem stepNeverStopsAndKeepsInvariants : Obligations.StepNeverStopsAndKeepsInvariants := by
  intro s h
  rcases step_cases s with hw | ⟨i, rest, hx⟩ | ⟨rest, hx⟩
  · exact ⟨s, hw, h⟩
  · rw [hx]; exact (h.set_host rest).exec i
  · rw [hx]; exact (h.set_host rest).unlessFaulted fun _ => ⟨_, rfl, (h.set_host rest).set_err .illegal⟩

end Sys2Proof.Machine
end

section
/-! PROOF. Decoding and encoding are inverse (R100, R102, R104), and a well-formed word selects the row of its command alone. -/

namespace Sys2Proof

variable {w : Word} {f : Fields} {i : Instr}

/-! ## The fields of a word -/

theorem append_fieldsOf (w : Word) : (fieldsOf w).op ++ (fieldsOf w).rsv ++ (fieldsOf w).imm8 = w := by
  simp only [fieldsOf]
  rw [BitVec.extractLsb'_append_extractLsb'_eq_extractLsb' (by rfl), BitVec.extractLsb'_append_extractLsb'_eq_extractLsb' (by rfl)]
  exact BitVec.extractLsb'_eq_self

/-- A word and its three fields determine each other (R100). -/
theorem fieldsOf_eq_iff : fieldsOf w = f ↔ w = f.op ++ f.rsv ++ f.imm8 := by
  constructor
  · rintro rfl; exact (append_fieldsOf w).symm
  · rintro rfl; exact Laws.EncodesWellFormed.fieldsOf_append ..

/-- The fields that R102 gives a command. -/
def commandFields (i : Instr) : Fields := { op := opcodeOf i, rsv := 0#4, imm8 := operandOf i }

theorem fieldsOf_eq_commandFields_iff : fieldsOf w = commandFields i ↔ w = encode i := fieldsOf_eq_iff

theorem wellFormed_commandFields (i : Instr) : (commandFields i).wellFormed = true := by
  have h : Laws.EncodesWellFormed.Statement i := by
    cases i with
    | nop => exact Laws.EncodesWellFormed.nop
    | clr => exact Laws.EncodesWellFormed.clr
    | recSym sym => exact Laws.EncodesWellFormed.recSym sym
    | hin b => exact Laws.EncodesWellFormed.hin b
    | seed => exact Laws.EncodesWellFormed.seed
    | merge => exact Laws.EncodesWellFormed.merge
    | build => exact Laws.EncodesWellFormed.build
    | gen => exact Laws.EncodesWellFormed.gen
    | hout => exact Laws.EncodesWellFormed.hout
    | put sym => exact Laws.EncodesWellFormed.put sym
    | flush => exact Laws.EncodesWellFormed.flush
    | get b => exact Laws.EncodesWellFormed.get b
    | drep => exact Laws.EncodesWellFormed.drep
    | ioerr => exact Laws.EncodesWellFormed.ioerr
  obtain ⟨hfields, hwf⟩ := h
  rwa [hfields] at hwf

/-! ## The decoder -/

theorem withOperand_eq_ok_iff {mk : Byte → Instr} : withOperand f mk = .ok i ↔ f.rsv = 0#4 ∧ mk f.imm8 = i := by
  by_cases h : f.rsv = 0#4 <;> simp [withOperand, h]

theorem noOperand_eq_ok_iff {j : Instr} : noOperand f j = .ok i ↔ f.rsv = 0#4 ∧ f.imm8 = 0#8 ∧ j = i := by
  by_cases h : f.rsv = 0#4 <;> by_cases h' : f.imm8 = 0#8 <;> simp [noOperand, h, h']

/-- The opcodes whose row takes an operand (R104). -/
def operandOpcodes : List (BitVec 4) := [0x2#4, 0x3#4, 0x9#4, 0xB#4]

theorem operandAllowed_iff : f.operandAllowed = true ↔ f.imm8 = 0#8 ∨ f.op ∈ operandOpcodes := by
  simp [Fields.operandAllowed, operandOpcodes, or_assoc]

theorem wellFormed_iff :
    f.wellFormed = true ↔ f.opAssigned = true ∧ f.rsv = 0#4 ∧ (f.imm8 = 0#8 ∨ f.op ∈ operandOpcodes) := by
  simp [Fields.wellFormed, Fields.rsvClear, operandAllowed_iff, and_assoc]

/-- What the opcode alone decides (R102): the row of a command with an operand, of one without, or none. -/
theorem decodeFields_cases (f : Fields) :
    (∃ mk : Byte → Instr, decodeFields f = withOperand f mk ∧ ∀ b, f.op = opcodeOf (mk b) ∧ operandOf (mk b) = b) ∨
    (∃ j, decodeFields f = noOperand f j ∧ f.op = opcodeOf j ∧ operandOf j = 0#8 ∧ opcodeOf j ∉ operandOpcodes) ∨
    (decodeFields f = .error .reservedOpcode ∧ f.opAssigned = false) := by
  have hop {k : BitVec 4} (h : f.op.toNat = k.toNat) : f.op = k := BitVec.eq_of_toNat_eq h
  unfold decodeFields
  split
  case h_1 h => exact .inr (.inl ⟨.nop, rfl, hop h, rfl, by decide⟩)
  case h_2 h => exact .inr (.inl ⟨.clr, rfl, hop h, rfl, by decide⟩)
  case h_3 h => exact .inl ⟨.recSym, rfl, fun _ => ⟨hop h, rfl⟩⟩
  case h_4 h => exact .inl ⟨.hin, rfl, fun _ => ⟨hop h, rfl⟩⟩
  case h_5 h => exact .inr (.inl ⟨.seed, rfl, hop h, rfl, by decide⟩)
  case h_6 h => exact .inr (.inl ⟨.merge, rfl, hop h, rfl, by decide⟩)
  case h_7 h => exact .inr (.inl ⟨.build, rfl, hop h, rfl, by decide⟩)
  case h_8 h => exact .inr (.inl ⟨.gen, rfl, hop h, rfl, by decide⟩)
  case h_9 h => exact .inr (.inl ⟨.hout, rfl, hop h, rfl, by decide⟩)
  case h_10 h => exact .inl ⟨.put, rfl, fun _ => ⟨hop h, rfl⟩⟩
  case h_11 h => exact .inr (.inl ⟨.flush, rfl, hop h, rfl, by decide⟩)
  case h_12 h => exact .inl ⟨.get, rfl, fun _ => ⟨hop h, rfl⟩⟩
  case h_13 h => exact .inr (.inl ⟨.drep, rfl, hop h, rfl, by decide⟩)
  case h_14 h => exact .inr (.inl ⟨.ioerr, rfl, hop h, rfl, by decide⟩)
  case h_15 =>
    refine .inr (.inr ⟨rfl, ?_⟩)
    have hlt := f.op.isLt
    simp only [imp_false, Fields.opAssigned, BitVec.le_def, BitVec.reduceToNat, decide_eq_false_iff_not] at *
    omega

theorem decodeFields_commandFields (i : Instr) : decodeFields (commandFields i) = .ok i := by
  cases i <;> rfl

/-- The decoder answers a command for that command's fields and no others. -/
theorem decodeFields_eq_ok_iff : decodeFields f = .ok i ↔ f = commandFields i := by
  refine ⟨fun h => ?_, fun h => h ▸ decodeFields_commandFields i⟩
  obtain ⟨op, rsv, imm⟩ := f
  rcases decodeFields_cases ⟨op, rsv, imm⟩ with ⟨mk, hd, hmk⟩ | ⟨j, hd, hop, hb, -⟩ | ⟨hd, -⟩
  · obtain ⟨rfl, rfl⟩ := withOperand_eq_ok_iff.1 (hd ▸ h)
    obtain ⟨rfl, hb⟩ := hmk imm
    rw [commandFields, hb]
  · obtain ⟨rfl, rfl, rfl⟩ := noOperand_eq_ok_iff.1 (hd ▸ h)
    rw [commandFields, hb, ← hop]
  · cases hd ▸ h

/-- The three checks of R104 pass for exactly the fields that decode. -/
theorem wellFormed_iff_decodes : f.wellFormed = true ↔ ∃ i, decodeFields f = .ok i := by
  constructor
  · intro h
    obtain ⟨hassigned, hrsv, himm⟩ := wellFormed_iff.1 h
    rcases decodeFields_cases f with ⟨mk, hd, -⟩ | ⟨j, hd, hop, -, hno⟩ | ⟨-, hreserved⟩
    · exact ⟨mk f.imm8, hd ▸ withOperand_eq_ok_iff.2 ⟨hrsv, rfl⟩⟩
    · exact ⟨j, hd ▸ noOperand_eq_ok_iff.2 ⟨hrsv, himm.resolve_right (hop ▸ hno), rfl⟩⟩
    · simp [hassigned] at hreserved
  · rintro ⟨i, h⟩
    exact decodeFields_eq_ok_iff.1 h ▸ wellFormed_commandFields i

/-- Settles O2: a word decodes to a command exactly when it has the command's fields, and these make up the command's word. -/
theorem decodeInvertsEncode : Obligations.DecodeInvertsEncode := by
  intro w i
  calc decode w = .ok i ↔ fieldsOf w = commandFields i := decodeFields_eq_ok_iff
    _ ↔ w = encode i := fieldsOf_eq_commandFields_iff

/-- Settles O1: the decoder evaluated on the written-out words. -/
theorem sampleWordsDecode : Obligations.SampleWordsDecode := by
  unfold Obligations.SampleWordsDecode
  decide

/-! ## The rows of the opcode map -/

/-- The bits of the operand byte that a command's row compares: none with an operand, else all (R102). -/
def operandMask : Instr → Byte
  | .recSym _ | .hin _ | .put _ | .get _ => 0x00#8
  | .nop | .clr | .seed | .merge | .build | .gen | .hout | .flush | .drep | .ioerr => 0xFF#8

/-- The row of a command in the opcode map (R102). -/
def rowOf (i : Instr) : OpcodeRow :=
  { mnemonic := mnemonicOf i, pattern := opcodeOf i ++ 0#4 ++ 0#8, mask := 0xF#4 ++ 0xF#4 ++ operandMask i }

theorem opcodeRows_eq :
    opcodeRows = [.nop, .clr, .recSym 0#8, .hin 0#8, .seed, .merge, .build, .gen, .hout, .put 0#8, .flush, .get 0#8, .drep, .ioerr].map
      rowOf := rfl

theorem exists_rowOf_eq {r : OpcodeRow} (h : r ∈ opcodeRows) : ∃ i, rowOf i = r := by
  rw [opcodeRows_eq] at h
  obtain ⟨i, -, hi⟩ := List.mem_map.1 h
  exact ⟨i, hi⟩

theorem rowOf_mem (i : Instr) : rowOf i ∈ opcodeRows := by
  cases i <;> simp [opcodeRows_eq, rowOf, mnemonicOf, opcodeOf, operandMask]

theorem opcodeRows_nodup : opcodeRows.Nodup := .of_map OpcodeRow.pattern (by decide)

/-- What a row compares, field by field. -/
theorem rowOf_selectedBy_iff :
    (rowOf i).selectedBy w = true ↔
      (fieldsOf w).op = opcodeOf i ∧ (fieldsOf w).rsv = 0#4 ∧ (fieldsOf w).imm8 &&& operandMask i = 0#8 := by
  have hw : w &&& (rowOf i).mask =
      ((fieldsOf w).op &&& 0xF#4) ++ ((fieldsOf w).rsv &&& 0xF#4) ++ ((fieldsOf w).imm8 &&& operandMask i) := by
    conv_lhs => rw [← append_fieldsOf w]
    rw [rowOf, BitVec.and_append, BitVec.and_append]
  have hall (x : BitVec 4) : x &&& 0xF#4 = x := BitVec.and_allOnes
  rw [OpcodeRow.selectedBy, beq_iff_eq, hw, hall, hall, rowOf, ← fieldsOf_eq_iff (f := ⟨_, _, _⟩),
    Laws.EncodesWellFormed.fieldsOf_append, Fields.mk.injEq]

theorem operandOf_masked (i : Instr) : operandOf i &&& operandMask i = 0#8 := by
  cases i <;> simp [operandOf, operandMask]

/-- With a byte that the row leaves free, or 0 where it leaves none, there is a command of the row with that operand. -/
theorem exists_operandOf_eq {b : Byte} (h : b &&& operandMask i = 0#8) : ∃ j, rowOf j = rowOf i ∧ operandOf j = b := by
  have hzero (hm : operandMask i = BitVec.allOnes 8) : b = 0#8 := by rwa [hm, BitVec.and_allOnes] at h
  cases i with
  | recSym _ => exact ⟨.recSym b, rfl, rfl⟩
  | hin _ => exact ⟨.hin b, rfl, rfl⟩
  | put _ => exact ⟨.put b, rfl, rfl⟩
  | get _ => exact ⟨.get b, rfl, rfl⟩
  | nop | clr | seed | merge | build | gen | hout | flush | drep | ioerr => exact ⟨_, rfl, (hzero rfl).symm⟩

theorem opcodeOf_eq_of_rowOf_eq {j : Instr} (h : rowOf j = rowOf i) : opcodeOf j = opcodeOf i := by
  have hp : opcodeOf j ++ 0#4 ++ 0#8 = opcodeOf i ++ 0#4 ++ 0#8 := congrArg OpcodeRow.pattern h
  exact (BitVec.append_left_inj _).1 ((BitVec.append_left_inj _).1 hp)

theorem operandMask_eq_of_rowOf_eq {j : Instr} (h : rowOf j = rowOf i) : operandMask j = operandMask i :=
  (BitVec.append_right_inj _).1 (congrArg OpcodeRow.mask h)

/-- A row is selected by exactly the words that decode to one of its commands. -/
theorem rowOf_selectedBy_iff_decodes : (rowOf i).selectedBy w = true ↔ ∃ j, decode w = .ok j ∧ rowOf j = rowOf i := by
  rw [rowOf_selectedBy_iff]
  constructor
  · rintro ⟨hop, hrsv, himm⟩
    obtain ⟨j, hrow, hj⟩ := exists_operandOf_eq himm
    exact ⟨j, decodeFields_eq_ok_iff.2 (by rw [commandFields, opcodeOf_eq_of_rowOf_eq hrow, hj, ← hop, ← hrsv]), hrow⟩
  · rintro ⟨j, hd, hrow⟩
    rw [decodeFields_eq_ok_iff.1 hd]
    exact ⟨opcodeOf_eq_of_rowOf_eq hrow, rfl, operandMask_eq_of_rowOf_eq hrow ▸ operandOf_masked j⟩

theorem selectedBy_iff_decodes {r : OpcodeRow} (hr : r ∈ opcodeRows) :
    r.selectedBy w = true ↔ ∃ j, decode w = .ok j ∧ rowOf j = r := by
  obtain ⟨i, rfl⟩ := exists_rowOf_eq hr
  exact rowOf_selectedBy_iff_decodes

/-- A word that decodes selects the row of its command and no other (R104). -/
theorem selectedRows_of_decode_ok (h : decode w = .ok i) : (opcodeRows.filter fun r => r.selectedBy w) = [rowOf i] := by
  have hsel : ∀ r ∈ opcodeRows, r.selectedBy w = decide (r = rowOf i) := fun r hr => by
    rw [Bool.eq_iff_iff, selectedBy_iff_decodes hr, decide_eq_true_iff]
    simp [h, eq_comm]
  calc (opcodeRows.filter fun r => r.selectedBy w)
    _ = opcodeRows.filter fun r => decide (r = rowOf i) := List.filter_congr hsel
    _ = List.replicate (opcodeRows.count (rowOf i)) (rowOf i) := List.filter_eq _
    _ = [rowOf i] := by rw [List.count_eq_one_of_mem opcodeRows_nodup (rowOf_mem i)]; rfl

/-- A word that does not decode selects no row. -/
theorem selectedRows_of_not_decodes (h : ¬∃ i, decode w = .ok i) : (opcodeRows.filter fun r => r.selectedBy w) = [] :=
  List.filter_eq_nil_iff.2 fun _ hr hsel =>
    have ⟨i, hi, _⟩ := (selectedBy_iff_decodes hr).1 hsel
    h ⟨i, hi⟩

/-- Settles O3: a word that decodes selects its command's row alone, any other word selects none. -/
theorem wellFormedWordSelectsOneRow : Obligations.WellFormedWordSelectsOneRow := by
  intro w
  have hwf : (fieldsOf w).wellFormed = true ↔ ∃ i, decode w = .ok i := wellFormed_iff_decodes
  rw [hwf]
  by_cases hd : ∃ i, decode w = .ok i
  · obtain ⟨i, hi⟩ := hd
    simp [selectedRows_of_decode_ok hi, hi, rowOf]
  · rw [selectedRows_of_not_decodes hd]
    exact ⟨.rfl, by simp [hd], by simp, fun i hi => absurd ⟨i, hi⟩ hd⟩

end Sys2Proof
end

section
/-! PROOF. The five bytes of a header entry: a symbol and its frequency, most-significant byte first (R109, R72, R194). -/

namespace Sys2Proof.Machine

variable {s : State}

/-! ## Single-byte writes as numbers (R72, R194) -/

theorem toNat_append_eq_add {m n : Nat} (x : BitVec m) (y : BitVec n) : (x ++ y).toNat = x.toNat * 2 ^ n + y.toNat := by
  rw [BitVec.toNat_append, ← Nat.shiftLeft_add_eq_or_of_lt y.isLt, Nat.shiftLeft_eq]

theorem toNat_withByte3 (f : Count) (b : Byte) : (withByte3 f b).toNat = b.toNat * 2 ^ 24 + f.toNat % 2 ^ 24 := by
  rw [withByte3, toNat_append_eq_add, BitVec.extractLsb'_toNat, Nat.shiftRight_zero]

theorem toNat_withByte2 (f : Count) (b : Byte) :
    (withByte2 f b).toNat = f.toNat / 2 ^ 24 * 2 ^ 24 + b.toNat * 2 ^ 16 + f.toNat % 2 ^ 16 := by
  have := f.isLt
  simp only [withByte2, toNat_append_eq_add, BitVec.extractLsb'_toNat, Nat.shiftRight_eq_div_pow]
  omega

theorem toNat_withByte1 (f : Count) (b : Byte) :
    (withByte1 f b).toNat = f.toNat / 2 ^ 16 * 2 ^ 16 + b.toNat * 2 ^ 8 + f.toNat % 2 ^ 8 := by
  have := f.isLt
  simp only [withByte1, toNat_append_eq_add, BitVec.extractLsb'_toNat, Nat.shiftRight_eq_div_pow]
  omega

theorem toNat_withByte0 (f : Count) (b : Byte) : (withByte0 f b).toNat = f.toNat / 2 ^ 8 * 2 ^ 8 + b.toNat := by
  have := f.isLt
  simp only [withByte0, toNat_append_eq_add, BitVec.extractLsb'_toNat, Nat.shiftRight_eq_div_pow]
  omega

/-- The frequency that four header bytes write, one after another, from `HFRQ = 0` (R194). -/
def entryCount (b3 b2 b1 b0 : Byte) : Count := withByte0 (withByte1 (withByte2 (withByte3 0#32 b3) b2) b1) b0

theorem toNat_entryCount (b3 b2 b1 b0 : Byte) :
    (entryCount b3 b2 b1 b0).toNat = b3.toNat * 2 ^ 24 + b2.toNat * 2 ^ 16 + b1.toNat * 2 ^ 8 + b0.toNat := by
  have h2 := b2.isLt
  have h1 := b1.isLt
  have h0 := b0.isLt
  simp only [entryCount, toNat_withByte0, toNat_withByte1, toNat_withByte2, toNat_withByte3, BitVec.toNat_ofNat]
  omega

/-! ## The five commands -/

theorem execAll_hin_cons {b : Byte} {rest : List Instr} {t : State} (h : execHin b s = .next t) :
    execAll (.hin b :: rest) s = execAll rest t := by
  rw [execAll_cons, exec, h, andThen_next]

/-- A fifth byte that completes a frequency other than 0, of a symbol not yet listed, commits the entry (R197). -/
theorem execHin_commits {b : Byte} (he : s.err = .noFault) (hp : s.phase = .freq) (hh : s.hst = .f0)
    (hf : withByte0 s.hfrq b ≠ 0#32) (hs : s.freqAt s.hsym = 0#32) :
    execHin b s = .next (commitEntry (withByte0 s.hfrq b) s) :=
  (execHin_f0 he hp hh).trans (if_pos ⟨hf, hs⟩)

/-- The bytes of an entry are taken one by one, and the fifth commits the symbol with the frequency of the other four (R194). -/
theorem execAll_headerEntry {a b3 b2 b1 b0 : Byte} (he : s.err = .noFault) (hp : s.phase = .freq) (hh : s.hst = .sym)
    (ha : s.freqAt a = 0#32) (hf : entryCount b3 b2 b1 b0 ≠ 0#32) :
    execAll [.hin a, .hin b3, .hin b2, .hin b1, .hin b0] s =
      .next (commitEntry (entryCount b3 b2 b1 b0) { s with hsym := a, hst := .f0 }) := by
  calc execAll [.hin a, .hin b3, .hin b2, .hin b1, .hin b0] s
    _ = execAll [.hin b3, .hin b2, .hin b1, .hin b0] _ := execAll_hin_cons (execHin_sym he hp hh)
    _ = execAll [.hin b2, .hin b1, .hin b0] _ := execAll_hin_cons (execHin_f3 he hp rfl)
    _ = execAll [.hin b1, .hin b0] _ := execAll_hin_cons (execHin_f2 he hp rfl)
    _ = execAll [.hin b0] _ := execAll_hin_cons (execHin_f1 he hp rfl)
    _ = execAll [] _ := execAll_hin_cons (execHin_commits he hp rfl hf ha)

/-- Settles O24: the entry is committed with the four bytes' number as its frequency. -/
theorem headerEntryIsBigEndian : Obligations.HeaderEntryIsBigEndian := by
  intro a b3 b2 b1 b0 s he hp hh ha hpos
  rw [← toNat_entryCount] at hpos ⊢
  have hf : entryCount b3 b2 b1 b0 ≠ 0#32 := fun h0 => by simp [h0] at hpos
  have hself : (commitEntry (entryCount b3 b2 b1 b0) { s with hsym := a, hst := .f0 }).freqAt a =
      entryCount b3 b2 b1 b0 := State.freqAt_setFreq_self _ a hf
  refine ⟨_, execAll_headerEntry he hp hh ha hf, congrArg BitVec.toNat hself, fun x hx => State.freqAt_setFreq_ne _ _ hx, rfl, ?_, rfl,
    hself.symm, rfl, rfl⟩
  rw [hself]
  rfl

end Sys2Proof.Machine
end

section
/-! PROOF. The Frequency Table: what `REC` counts, where it overflows, and that the order of recording does not matter (R131, R132). -/

namespace Sys2Proof.Machine

variable {s t : State} {sym : Symbol}

/-! ## One occurrence more -/

theorem toNat_add_one_of_ne_freqMax {c : Count} (h : c ≠ Config.freqMax) : (c + 1#32).toNat = c.toNat + 1 := by
  have hne : c.toNat ≠ 2 ^ 32 - 1 := fun e => h (BitVec.eq_of_toNat_eq e)
  have := c.isLt
  rw [BitVec.toNat_add, BitVec.toNat_ofNat]
  omega

theorem add_one_ne_zero_of_ne_freqMax {c : Count} (h : c ≠ Config.freqMax) : c + 1#32 ≠ 0#32 := fun e => by
  have := toNat_add_one_of_ne_freqMax h
  simp [e] at this

theorem freqAt_countSymbol_self (h : s.freqAt sym ≠ Config.freqMax) : (countSymbol sym s).freqAt sym = s.freqAt sym + 1#32 :=
  State.freqAt_setFreq_self s sym (add_one_ne_zero_of_ne_freqMax h)

theorem freqAt_countSymbol_ne {x : Symbol} (h : x ≠ sym) : (countSymbol sym s).freqAt x = s.freqAt x :=
  State.freqAt_setFreq_ne s _ h

/-- Below the largest count the new count is not 0, so its entry is written and not removed. -/
theorem freq_countSymbol (h : s.freqAt sym ≠ Config.freqMax) :
    (countSymbol sym s).freq = Table.set s.freq sym.toNat (s.freqAt sym + 1#32) :=
  if_neg (add_one_ne_zero_of_ne_freqMax h)

/-- Under the frequency invariants the sum of the counts has room in `TOTAL` for one more (R131, R8). -/
theorem FreqInv.toNat_total_countSymbol (h : FreqInv s) (hp : s.phase = .freq) (hh : s.hst = .idle)
    (hm : s.freqAt sym ≠ Config.freqMax) : (Machine.countSymbol sym s).total.toNat = s.total.toNat + 1 := by
  have hsum := countSum_of_freq_eq (t := Machine.countSymbol sym s) (add_one_ne_zero_of_ne_freqMax hm) rfl
  rw [(h.countSymbol hp hh hm).total_eq, h.total_eq, toNat_add_one_of_ne_freqMax hm] at hsum
  omega

/-- Under the frequency invariants `EMPTY` says that nothing is recorded. -/
theorem FreqInv.flagEmpty_eq_false (h : FreqInv s) (ht : s.total.toNat ≠ 0) : s.flagEmpty = false := by
  have hu : s.unique ≠ 0#9 := fun e => ht (h.unique_eq_zero_iff.1 (by rw [e]; rfl))
  simpa [State.flagEmpty] using hu

/-! ## `REC` -/

theorem execRec_counts (he : s.err = .noFault) (hp : s.phase = .freq) (hh : s.hst = .idle) (hm : s.freqAt sym ≠ Config.freqMax) :
    execRec sym s = .next (countSymbol sym s) :=
  execRec_eq_next_iff.2 (.inl ⟨he, .inl ⟨⟨hp, hh⟩, .inl ⟨hm, rfl⟩⟩⟩)

/-- Settles O19: the command is `countSymbol`, and under the frequency invariants `TOTAL` is the new sum of the counts. -/
theorem recCountsOneOccurrence : Obligations.RecCountsOneOccurrence := by
  intro sym s he hp hh hm
  refine ⟨_, execRec_counts he hp hh hm, ?_, fun x hx => freqAt_countSymbol_ne hx, rfl, rfl, rfl, fun hf => ?_⟩
  · rw [freqAt_countSymbol_self hm, toNat_add_one_of_ne_freqMax hm]
  · have htotal := hf.toNat_total_countSymbol hp hh hm
    exact ⟨htotal, (hf.countSymbol hp hh hm).flagEmpty_eq_false (by omega)⟩

/-- Settles O20: the check against the largest count takes the fault. -/
theorem recAtMaximumOverflows : Obligations.RecAtMaximumOverflows := fun _ _ he hp hh hmax =>
  execRec_eq_next_iff.2 (.inl ⟨he, .inl ⟨⟨hp, hh⟩, .inr ⟨not_not_intro hmax, rfl⟩⟩⟩)

/-! ## The order of recording -/

/-- In a table with rising indices two writes at different indices commute. -/
theorem Table.set_comm {α : Type} {t : Table α} (ht : t.Pairwise (fun a b => a.1 < b.1)) {i j : Nat} (h : i ≠ j) (v w : α) :
    Table.set (Table.set t i v) j w = Table.set (Table.set t j w) i v := by
  refine Table.ext_of_rising (Table.set_rising (Table.set_rising ht i v) j w) (Table.set_rising (Table.set_rising ht j w) i v)
    fun k => ?_
  simp only [Table.get?_set]
  by_cases hi : k = i
  · simp [hi, h]
  · simp [hi]

/-- The fields two occurrences write (R131); `TOTAL` grows by two whatever the symbols are. -/
theorem countSymbol_twice (a b : Symbol) (s : State) :
    countSymbol b (countSymbol a s) =
      { s with
        freq := (countSymbol b (countSymbol a s)).freq
        total := s.total + 1#40 + 1#40
        unique := (countSymbol b (countSymbol a s)).unique } := rfl

/-- Two occurrences below the largest count can be counted in either order. -/
theorem countSymbol_comm (hw : Memory.wf s) {a b : Symbol} (hab : a ≠ b) (ha : s.freqAt a ≠ Config.freqMax)
    (hb : s.freqAt b ≠ Config.freqMax) : countSymbol b (countSymbol a s) = countSymbol a (countSymbol b s) := by
  have hb' : (countSymbol a s).freqAt b = s.freqAt b := freqAt_countSymbol_ne hab.symm
  have ha' : (countSymbol b s).freqAt a = s.freqAt a := freqAt_countSymbol_ne hab
  have hfreq : (countSymbol b (countSymbol a s)).freq = (countSymbol a (countSymbol b s)).freq := by
    rw [freq_countSymbol (hb' ▸ hb), freq_countSymbol ha, hb', freq_countSymbol (ha' ▸ ha), freq_countSymbol hb, ha']
    exact Table.set_comm hw.1.1 (fun e => hab (BitVec.eq_of_toNat_eq e)) _ _
  have hunique : (countSymbol b (countSymbol a s)).unique = (countSymbol a (countSymbol b s)).unique := by
    simp only [countSymbol_unique, ha', hb']
    split <;> split <;> rfl
  rw [countSymbol_twice a b, countSymbol_twice b a, hfreq, hunique]

/-- `REC` ends without a fault exactly when it counts: it is legal, the block is not faulted and the count is below the largest. -/
theorem execRec_fault_free_iff :
    execRec sym s = .next t ∧ t.err = .noFault ↔
      s.err = .noFault ∧ s.phase = .freq ∧ s.hst = .idle ∧ s.freqAt sym ≠ Config.freqMax ∧ t = countSymbol sym s := by
  constructor
  · rintro ⟨h, ht⟩
    rcases execRec_eq_next_iff.1 h with ⟨he, ⟨⟨hp, hh⟩, ⟨hm, rfl⟩ | ⟨-, rfl⟩⟩ | ⟨-, rfl⟩⟩ | ⟨he, rfl⟩
    · exact ⟨he, hp, hh, hm, rfl⟩
    · cases ht
    · cases ht
    · exact absurd ht he
  · rintro ⟨he, hp, hh, hm, rfl⟩
    exact ⟨execRec_counts he hp hh hm, he⟩

/-- No `REC` clears a fault. -/
theorem err_of_execAll_rec {xs : List Symbol} (h : execAll (xs.map .recSym) s = .next t) (ht : t.err = .noFault) :
    s.err = .noFault := by
  induction xs generalizing s with
  | nil => cases h; exact ht
  | cons x rest ih =>
    obtain ⟨u, hu, hrest⟩ := andThen_eq_next_iff.1 h
    exact (execRec_fault_free_iff.1 ⟨hu, ih hrest⟩).1

/-- Two recordings that end without a fault can change places. -/
theorem execRec_swap {a b : Symbol} {u : State} (hw : Memory.wf s) (ha : execRec a s = .next u) (hb : execRec b u = .next t)
    (ht : t.err = .noFault) : ∃ v, execRec b s = .next v ∧ execRec a v = .next t := by
  obtain ⟨hu, -, -, hmb, rfl⟩ := execRec_fault_free_iff.1 ⟨hb, ht⟩
  obtain ⟨he, hp, hh, hma, rfl⟩ := execRec_fault_free_iff.1 ⟨ha, hu⟩
  by_cases hab : a = b
  · subst hab; exact ⟨_, ha, hb⟩
  · rw [freqAt_countSymbol_ne (Ne.symm hab)] at hmb
    refine ⟨_, execRec_counts he hp hh hmb, ?_⟩
    rw [countSymbol_comm hw hab hma hmb]
    exact execRec_counts he hp hh (by rwa [freqAt_countSymbol_ne hab])

/-- Settles O21, by induction on the permutation; its one case with content is the exchange of two neighbours. -/
theorem recOrderIrrelevant : Obligations.RecOrderIrrelevant := by
  intro xs ys s t hw he hperm
  induction hperm generalizing s with
  | nil => exact fun h _ => h
  | cons x _ ih =>
    intro h ht
    obtain ⟨u, hu, hrest⟩ := andThen_eq_next_iff.1 h
    exact andThen_eq_next_iff.2 ⟨u, hu, ih u (exec_wf hw hu) (err_of_execAll_rec hrest ht) hrest ht⟩
  | swap a b l =>
    intro h ht
    obtain ⟨u, hu, h⟩ := andThen_eq_next_iff.1 h
    obtain ⟨v, hv, hrest⟩ := andThen_eq_next_iff.1 h
    obtain ⟨u', hu', hv'⟩ := execRec_swap hw hu hv (err_of_execAll_rec hrest ht)
    exact andThen_eq_next_iff.2 ⟨u', hu', andThen_eq_next_iff.2 ⟨v, hv', hrest⟩⟩
  | trans _ _ ih₁ ih₂ => exact fun h ht => ih₂ s hw he (ih₁ s hw he h ht) ht

end Sys2Proof.Machine
end

section
/-! PROOF. `SEED` (R145): the leaves it makes, the phase it enters, and that its result does not depend on the order of seeding (R147). -/

namespace Sys2Proof.Machine

variable {s u v : State}

/-! ## What the loop makes -/

/-- There is one list member per present symbol. -/
theorem SeededFrom.length_pl (h : SeededFrom s allSymbols u) (hf : FreqInv s) : u.pl.length = s.unique.toNat := by
  obtain ⟨syms, hpl, hperm, -⟩ := h.exists_syms
  rw [hpl, List.length_map, hperm.length_eq, hf.unique_eq]

theorem SeedBefore.asymm {a b : Symbol} (h : SeedBefore s a b) : ¬SeedBefore s b a := by
  simp only [SeedBefore, BitVec.lt_def, ← BitVec.toNat_inj] at *
  omega

/-- The present symbols can be sorted by the pair (count, symbol) in one way only. -/
theorem SeededFrom.pl_unique (h : SeededFrom s allSymbols u) (h' : SeededFrom s allSymbols v) : u.pl = v.pl := by
  obtain ⟨syms, hpl, hperm, hsorted⟩ := h.exists_syms
  obtain ⟨syms', hpl', hperm', hsorted'⟩ := h'.exists_syms
  have : syms = syms' := (hperm.trans hperm'.symm).eq_of_pairwise (fun _ _ _ _ hab hba => absurd hba hab.asymm) hsorted hsorted'
  rw [hpl, hpl', this]

/-- A canonical table lists nothing outside its range. -/
theorem Table.get?_of_size_le {α : Type} {t : Table α} {size : Nat} {listed : α → Bool} (h : Table.Canonical t size listed) {k : Nat}
    (hk : size ≤ k) : Table.get? t k = none := Table.get?_eq_none_iff.2 fun e he => Nat.ne_of_lt ((h.2 e he).1.trans_le hk)

/-- Canonical node stores that read alike at every index are equal. -/
theorem Memory.wf.nodes_ext (hu : Memory.wf u) (hv : Memory.wf v) (h : ∀ i, u.node? i = v.node? i) : u.nodes = v.nodes := by
  obtain ⟨-, hcu, -⟩ := hu
  obtain ⟨-, hcv, -⟩ := hv
  refine Table.ext_of_rising hcu.1 hcv.1 fun k => ?_
  by_cases hk : k < 511
  · have hidx : (BitVec.ofNat 9 k).toNat = k := by rw [BitVec.toNat_ofNat]; omega
    simpa only [State.node?, hidx] using h (BitVec.ofNat 9 k)
  · rw [Table.get?_of_size_le hcu (Nat.le_of_not_lt hk), Table.get?_of_size_le hcv (Nat.le_of_not_lt hk)]

/-- The nodes are the leaves of the present symbols, whatever the order they were made in. -/
theorem SeededFrom.node?_unique (h : SeededFrom s allSymbols u) (h' : SeededFrom s allSymbols v) (i : NodeIdx) :
    u.node? i = v.node? i := by
  by_cases hi : 256 ≤ i.toNat
  · rw [h.high_node i hi, h'.high_node i hi]
  · obtain ⟨sym, rfl⟩ := exists_leafIdx_eq (Nat.lt_of_not_le hi)
    rw [h.node?_leafIdx, h'.node?_leafIdx]

/-! ## The end of the command -/

theorem SeededFrom.finishSeeding_frame {done : List Symbol} (h : SeededFrom s done u) {t : State} (ht : t = finishSeeding u) :
    t = { s with nodes := t.nodes, pl := t.pl, phase := t.phase, root := t.root, rootv := t.rootv, cur := t.cur } := by
  obtain ⟨ns, pl, rfl⟩ : ∃ ns pl, u = { s with nodes := ns, pl := pl } := ⟨_, _, h.frame⟩
  subst ht
  match pl with
  | [] => rfl
  | [_] => rfl
  | _ :: _ :: _ => rw [finishSeeding_two _ (by simp)]

/-- A legal `SEED` runs the loop to its end and moves the phase. -/
theorem Inv.execSeed (h : Inv s) (he : s.err = .noFault) (hp : s.phase = .freq) (hh : s.hst = .idle ∨ s.hst = .done) :
    ∃ u, execSeed s = .next (finishSeeding u) ∧ Machine.seedLoop allSymbols s = .next u ∧ SeededFrom s allSymbols u := by
  obtain ⟨hn, hl, -⟩ := h.treeInv.open_empty hp
  obtain ⟨u, hu, hs⟩ := seedLoop_seededFrom (.refl _) hn hl
  exact ⟨u, execSeed_eq_next_iff.2 (.inl ⟨he, .inl ⟨hp, .inl ⟨hh, seedBody_eq_next_iff.2 ⟨u, hu, rfl⟩⟩⟩⟩), hu, hs⟩

/-- A `SEED` that ends without a fault was legal. -/
theorem header_of_execSeed {t : State} (he : s.err = .noFault) (h : execSeed s = .next t) (ht : t.err = .noFault) :
    s.hst = .idle ∨ s.hst = .done := by
  rcases execSeed_eq_next_iff.1 h with ⟨-, ⟨-, ⟨hh, -⟩ | ⟨-, rfl⟩⟩ | ⟨-, rfl⟩⟩ | ⟨hne, -⟩
  · exact hh
  · cases ht
  · cases ht
  · exact absurd he hne

/-- Settles O28: the loop makes the leaves, and the length of its list, which is `UNIQUE`, decides the phase. -/
theorem seedMakesLeaves : Obligations.SeedMakesLeaves := by
  intro s he hp hh h
  obtain ⟨u, hexec, -, hs⟩ := h.execSeed he hp hh
  have hlen := hs.length_pl h.freqInv
  have hnode : ∀ i, (finishSeeding u).node? i = u.node? i := State.node?_congr (finishSeeding_nodes u)
  obtain ⟨hr, hv, hc⟩ := h.unrooted (.inl hp)
  refine ⟨_, hexec, fun sym => (hnode _).trans (hs.node?_leafIdx sym), fun i hi => ?_, ?_, ?_, fun h2 => ?_, fun h1 => ?_,
    fun h0 => ?_, hs.finishSeeding_frame rfl⟩
  · rw [hnode, hs.high_node i (firstInternal_le_iff.1 hi)]
  · obtain ⟨syms, hpl, hperm, -⟩ := hs.exists_syms
    rw [finishSeeding_pl, hpl]
    exact hperm.map leafIdx
  · rw [finishSeeding_pl, hlen]
  · have hlen2 : 2 ≤ u.pl.length := hlen ▸ BitVec.le_def.1 h2
    rw [finishSeeding_two u hlen2, hs.frame]
    exact ⟨rfl, rfl, rfl, rfl⟩
  · obtain ⟨i, hi⟩ := List.length_eq_one_iff.1 (hlen.trans (congrArg BitVec.toNat h1))
    rw [finishSeeding_single u i hi]
    exact ⟨rfl, rfl, hi, rfl⟩
  · have hempty := List.length_eq_zero_iff.1 (hlen.trans (congrArg BitVec.toNat h0))
    rw [finishSeeding_empty u hempty, hs.frame]
    exact ⟨rfl, hv, hr, hc⟩

/-- Settles O29: a list sorted by the pair is determined by its members, and the leaves by the counts. -/
theorem seedOrderIsCountThenSymbol : Obligations.SeedOrderIsCountThenSymbol := by
  intro s t he hp h hexec ht
  obtain ⟨u, hu, hloop, hs⟩ := h.execSeed he hp (header_of_execSeed he hexec ht)
  cases hexec.symm.trans hu
  rw [finishSeeding_pl, finishSeeding_nodes]
  refine ⟨hs.exists_syms, fun order horder => ?_⟩
  obtain ⟨hn, hl, -⟩ := h.treeInv.open_empty hp
  obtain ⟨v, hv, hvs⟩ := seedLoop_seededFrom horder hn hl
  exact ⟨v, hv, hvs.pl_unique hs, (seedLoop_wf h.wf hv).nodes_ext (seedLoop_wf h.wf hloop) (hvs.node?_unique hs)⟩

end Sys2Proof.Machine
end

section
/-! PROOF. The merge step and the merge loop of the Tree Builder (R161, R162, R164): what `MERGE` makes and where it puts it, the phase the
loop ends in, and that the loop of `BUILD` is `MERGE` while the phase is SEEDED. -/

namespace Sys2Proof.Machine

variable {s t : State}

/-! ## `MERGE` -/

theorem execMerge_of_seeded (he : s.err = .noFault) (hp : s.phase = .seeded) : execMerge s = mergeStep s := by
  rw [execMerge, unlessFaulted_live he, require_pos hp]

theorem isSome_mergedState {l r : NodeIdx} {nl nr : Node} {q : List NodeIdx} {k : NodeIdx} (hk : (s.node? k).isSome = true) :
    ((mergedState s l r nl nr q).node? k).isSome = true := by
  by_cases hks : k = s.next
  · rw [hks, node?_mergedState_next]; rfl
  · rwa [node?_mergedState_ne hks]

/-- A merged node stands after lighter members and before a member that is as heavy, on a sorted list before all such (R143). -/
theorem insertMerged_place {u : State} {n : NodeIdx} {new : Node} {rest pl : List NodeIdx} (hn : u.node? n = some new)
    (h : insertAt mergedStops u n new rest = .next pl) :
    ∃ pre post, rest = pre ++ post ∧ pl = pre ++ n :: post ∧ (∀ k ∈ pre, weightAt u k < weightAt u n) ∧
      (∀ k, post.head? = some k → weightAt u n ≤ weightAt u k) ∧
      (rest.Pairwise (fun a b => weightAt u a ≤ weightAt u b) → ∀ k ∈ post, weightAt u n ≤ weightAt u k) := by
  obtain ⟨pre, post, hrest, rfl, hpre, hpost⟩ := insertAt_next_spec h
  refine ⟨pre, post, hrest, rfl, fun k hk => ?_, fun k hk => ?_, fun hs k hk => ?_⟩
  · obtain ⟨old, hold, hstop⟩ := hpre k hk
    rw [weightAt_of_node? hold, weightAt_of_node? hn]
    exact mergedStops_false_iff.1 hstop
  · obtain ⟨old, hold, hstop⟩ := hpost k hk
    rw [weightAt_of_node? hold, weightAt_of_node? hn]
    exact mergedStops_true_iff.1 hstop
  · have hsorted := insertMerged_sorted hn hs h
    exact (List.pairwise_cons.1 (List.pairwise_append.1 hsorted).2.1).1 k hk

/-- On a sorted list the two front weights are in order and their sum fits (R161). -/
theorem Inv.front_weights (h : Inv s) (hp : s.phase = .seeded) {l r : NodeIdx} {nl nr : Node} {rest : List NodeIdx}
    (hpl : s.pl = l :: r :: rest) (hl : s.node? l = some nl) (hr : s.node? r = some nr) :
    (mergedNode l r nl nr).weight.toNat = nl.weight.toNat + nr.weight.toNat ∧ nl.weight ≤ nr.weight ∧ l ≠ r := by
  have hb := h.built hp
  have hsum := hb.forest.merged_weight hpl hl hr
  have hsorted := hb.forest.pl_sorted
  rw [hpl] at hsorted
  have hle := (List.pairwise_cons.1 hsorted).1 r List.mem_cons_self
  rw [weightAt_of_node? hl, weightAt_of_node? hr] at hsum hle
  exact ⟨hsum, BitVec.le_def.2 hle, hb.forest.front_ne h.wf hpl⟩

/-- Settles O30: the insertion among valid members completes, and its split of the list is where the parent stands. -/
theorem mergeBuildsParent : Obligations.MergeBuildsParent := by
  intro s l r rest nl nr he hp hpl hl hr hrest hnext
  obtain ⟨pl, hins⟩ : ∃ pl, insertAt mergedStops (mergedState s l r nl nr rest) s.next (mergedNode l r nl nr) rest = .next pl :=
    insertAt_completes fun k hk => by
      obtain ⟨n, hn⟩ := Option.isSome_iff_exists.1 (isSome_mergedState (hrest k hk))
      exact ⟨n, _, hn, rfl⟩
  obtain ⟨pre, post, hsplit, hpl', hpre, hpost, hsorted⟩ := insertMerged_place node?_mergedState_next hins
  set v : State := { mergedState s l r nl nr rest with pl := pl }
  have hstep : mergeStep s = .next (completeIfSingle v) :=
    mergeStep_eq_next_iff.2 ⟨l, r, rest, nl, nr, pl, hpl, hl, hr, hnext, hins, rfl⟩
  have hnodes : (completeIfSingle v).nodes = (mergedState s l r nl nr rest).nodes := completeIfSingle_nodes v
  have hlen : pl.length = rest.length + 1 := (insertAt_perm hins).length_eq
  refine ⟨completeIfSingle v, pre, post, (execMerge_of_seeded he hp).trans hstep, ?_⟩
  rw [weightAt_congr hnodes, weightAt_of_node? node?_mergedState_next]
  rw [weightAt_of_node? node?_mergedState_next] at hpre hpost hsorted
  refine ⟨?_, fun i hi => ?_, completeIfSingle_next v, hsplit, (completeIfSingle_pl v).trans hpl', hpre, hpost, hsorted,
    fun hi => hi.front_weights hp hpl hl hr, fun h0 => ?_, fun h0 => ?_, mergeStep_frame hstep⟩
  · rw [State.node?_congr hnodes, node?_mergedState_next]; rfl
  · rw [State.node?_congr hnodes, node?_mergedState_ne hi]
  · obtain ⟨rfl, rfl⟩ := List.append_eq_nil_iff.1 (hsplit.symm.trans h0)
    rw [completeIfSingle_single v s.next hpl']
    exact ⟨rfl, rfl, rfl, rfl⟩
  · have hpos := List.length_pos_of_ne_nil h0
    rw [completeIfSingle_of_length_ne_one v (by change pl.length ≠ 1; omega)]
    exact ⟨hp, rfl, rfl, rfl⟩

/-! ## The loop -/

/-- Computations that go on alike from every value go on alike. -/
theorem andThen_congr {α β : Type} {x : Result α} {f g : α → Result β} (h : ∀ a, x = .next a → f a = g a) :
    andThen x f = andThen x g := by
  cases x with
  | next a => exact h a rfl
  | fault r => rfl
  | refused r => rfl

/-- Completion after a merge either moves to phase TREE with the pointer at the root, or leaves two or more nodes in the list. -/
theorem completeIfSingle_cases (s : State) (hl : s.pl ≠ []) :
    ((completeIfSingle s).phase = .tree ∧ (completeIfSingle s).cur = (completeIfSingle s).root) ∨
      (completeIfSingle s = s ∧ 2 ≤ s.pl.length) := by
  match hpl : s.pl with
  | [] => exact absurd hpl hl
  | [i] => rw [completeIfSingle_single s i hpl]; exact .inl ⟨rfl, rfl⟩
  | _ :: _ :: _ => exact .inr ⟨completeIfSingle_of_length_ne_one s (by simp [hpl]), by simp⟩

/-- A merge step completes the tree and points at its root, or leaves phase and pointers alone with two or more nodes in the list. -/
theorem mergeStep_stage (h : mergeStep s = .next t) :
    (t.phase = .tree ∧ t.cur = t.root) ∨ (t.phase = s.phase ∧ t.cur = s.cur ∧ t.root = s.root ∧ 2 ≤ t.pl.length) := by
  obtain ⟨l, r, rest, nl, nr, pl, -, -, -, -, hins, rfl⟩ := mergeStep_eq_next_iff.1 h
  have hne : pl ≠ [] := fun e => by simpa [e] using (insertAt_perm hins).length_eq
  rcases completeIfSingle_cases { mergedState s l r nl nr rest with pl := pl } hne with hc | ⟨he, h2⟩
  · exact .inl hc
  · rw [he]; exact .inr ⟨rfl, rfl, rfl, h2⟩

theorem mergeStep_err (h : mergeStep s = .next t) : t.err = s.err := by rw [mergeStep_frame h]

/-- Seeding ends in phase SEEDED with two or more nodes, or in phase TREE. -/
theorem finishSeeding_stage (s : State) :
    ((finishSeeding s).phase = .seeded ∧ 2 ≤ s.pl.length) ∨ (finishSeeding s).phase = .tree := by
  by_cases h2 : 2 ≤ s.pl.length
  · rw [finishSeeding_two s h2]; exact .inl ⟨rfl, h2⟩
  · rw [finishSeeding, if_neg h2]; exact .inr (treeComplete_phase s)

/-- With a turn for every member of the list the bounds of both loops are never met, so they take the same steps (R162, R164). -/
theorem mergeLoop_eq_mergesWhileSeeded {turns : Nat} (he : s.err = .noFault) (h2 : s.phase = .seeded → 2 ≤ s.pl.length)
    (hturns : s.pl.length ≤ turns) : mergeLoop turns s = mergesWhileSeeded turns s := by
  induction turns generalizing s with
  | zero =>
    refine mergeLoop_of_ne_seeded 0 fun hp => ?_
    have := h2 hp
    omega
  | succ n ih =>
    by_cases hp : s.phase = .seeded
    · have hmerge : exec .merge s = mergeStep s := execMerge_of_seeded he hp
      rw [mergeLoop_succ_of_seeded n hp, mergesWhileSeeded, if_pos hp, hmerge]
      refine andThen_congr fun u hu => ih ((mergeStep_err hu).trans he) (fun hup => ?_) ?_
      · rcases mergeStep_stage hu with ⟨ht, -⟩ | ⟨-, -, -, hlen⟩
        · rw [ht] at hup; cases hup
        · exact hlen
      · have := mergeStep_length hu
        omega
    · rw [mergeLoop_of_ne_seeded _ hp, mergesWhileSeeded, if_neg hp]

theorem execBuild_of_freq (he : s.err = .noFault) (hp : s.phase = .freq) (hh : s.hst = .idle ∨ s.hst = .done) :
    execBuild s = andThen (seedBody s) mergeAll := by
  rw [execBuild, unlessFaulted_live he, if_pos hp, require_pos hh]

theorem execBuild_of_seeded (he : s.err = .noFault) (hp : s.phase = .seeded) : execBuild s = mergeAll s := by
  rw [execBuild, unlessFaulted_live he, if_neg (by simp [hp]), require_pos hp]

theorem execSeed_of_freq (he : s.err = .noFault) (hp : s.phase = .freq) (hh : s.hst = .idle ∨ s.hst = .done) :
    execSeed s = seedBody s := by
  rw [execSeed, unlessFaulted_live he, require_pos hp, require_pos hh]

/-- Settles O31: `BUILD` seeds as `SEED` does, and its loop is the loop of `MERGE`. -/
theorem buildIsSeedThenMerges : Obligations.BuildIsSeedThenMerges := by
  refine ⟨fun s t he hp hseed ht => ?_, fun s he hp h2 => ?_⟩
  · have hh := header_of_execSeed he hseed ht
    have hbody : seedBody s = .next t := (execSeed_of_freq he hp hh).symm.trans hseed
    have hbuild : exec .build s = mergeAll t := by
      change execBuild s = _
      rw [execBuild_of_freq he hp hh, hbody, andThen_next]
    refine hbuild.trans (mergeLoop_eq_mergesWhileSeeded ht (fun htp => ?_) le_rfl)
    obtain ⟨u, -, rfl⟩ := seedBody_eq_next_iff.1 hbody
    rcases finishSeeding_stage u with ⟨-, h2⟩ | htree
    · rwa [finishSeeding_pl]
    · rw [htree] at htp; cases htp
  · exact (execBuild_of_seeded he hp).trans (mergeLoop_eq_mergesWhileSeeded he (fun _ => h2) le_rfl)

end Sys2Proof.Machine
end

section
/-! PROOF. The weight of a node is the sum of the counts under it, the root's is `TOTAL` (R166). -/

namespace Sys2Proof.Machine

variable {s t : State}

/-- The leaves of an internal node of a forest are those of its children, left to right (R15). -/
theorem Forest.leavesAt_internal (h : Forest s) {i : NodeIdx} {w : Weight} {l r : NodeIdx} (hn : s.node? i = some (.internal w l r)) :
    leavesAt s i = leavesAt s l ++ leavesAt s r := by
  obtain ⟨-, hl, hr, -, hlv, hrv, -⟩ := h.internal hn
  have hi := h.lt_next (i := i) (by rw [hn]; rfl)
  have := s.next.isLt
  obtain ⟨L, hL⟩ := h.grounded.exists_treeWithin (d := 255) hlv (by omega) (by omega)
  obtain ⟨R, hR⟩ := h.grounded.exists_treeWithin (d := 255) hrv (by omega) (by omega)
  exact Machine.leavesAt_internal hn hL hR

/-- The weight of a valid node is the sum of the counts of the symbols under it, by induction on its index: children lie below (R166). -/
theorem Forest.weightAt_eq_leafSum (h : Forest s) {i : NodeIdx} (hi : (s.node? i).isSome = true) :
    weightAt s i = ((leavesAt s i).map fun sym => (s.freqAt sym).toNat).sum := by
  induction hk : i.toNat using Nat.strong_induction_on generalizing i with
  | _ k ih =>
    obtain ⟨n, hn⟩ := Option.isSome_iff_exists.1 hi
    cases n with
    | leaf sym w =>
      obtain ⟨-, -, rfl⟩ := h.leaf hn
      rw [weightAt_of_node? hn, leavesAt_leaf hn, List.map_singleton, List.sum_singleton]
      exact weight_leafOf sym s
    | internal w l r =>
      obtain ⟨-, hl, hr, -, hlv, hrv, hw⟩ := h.internal hn
      rw [h.leavesAt_internal hn, List.map_append, List.sum_append, ← ih _ (hk ▸ hl) hlv rfl, ← ih _ (hk ▸ hr) hrv rfl, ← hw]
      exact weightAt_of_node? hn

/-- With a root the tree is complete and the root alone in the list (R53, R54). -/
theorem Inv.pl_of_rootv (h : Inv s) (hv : s.rootv = true) : s.phase ≠ .freq ∧ s.pl = [s.root] := by
  have hp := h.workInv.rootv_phase hv
  refine ⟨by rcases hp with hp | hp <;> simp [hp], (h.treeInv.complete_root hp fun h0 => ?_).1⟩
  have := (h.treeInv.complete_empty hp h0).2
  simp [hv] at this

/-- Settles O34: the node store is empty in phase FREQ and a forest after it. -/
theorem nodeWeightIsLeafSum : Obligations.NodeWeightIsLeafSum := by
  intro s h
  refine ⟨fun i n hn => ?_, fun hv => ?_⟩
  · by_cases hp : s.phase = .freq
    · simp [State.node?, (h.treeInv.open_empty hp).1] at hn
    · rw [← weightAt_of_node? hn]
      exact (h.treeInv.forest hp).weightAt_eq_leafSum (by rw [hn]; rfl)
  · obtain ⟨hp, hpl⟩ := h.pl_of_rootv hv
    simpa [hpl] using h.treeInv.pl_total hp

end Sys2Proof.Machine
end

section
/-! PROOF. `BUILD` completes the tree: the root is the node allocated last and stands alone in the list (R164, R165, R167, R168). -/

namespace Sys2Proof.Machine

variable {s t : State}

/-! ## The nodes of a complete tree -/

/-- In a canonical store what is listed is a valid node at its index. -/
theorem Memory.wf.node?_of_mem (hw : Memory.wf s) {k : Nat} {n : Node} (he : (k, n) ∈ s.nodes) :
    ∃ i : NodeIdx, i.toNat = k ∧ s.node? i = some n := by
  obtain ⟨-, hc, -⟩ := hw
  have hk : k < 511 := (hc.2 _ he).1
  have hidx : (BitVec.ofNat 9 k).toNat = k := by rw [BitVec.toNat_ofNat]; omega
  exact ⟨BitVec.ofNat 9 k, hidx, by rw [State.node?, hidx]; exact Table.get?_of_mem hc.1 he⟩

/-- Every reference to a child is to an index below its parent's, so below the last one allocated. -/
theorem Forest.succ_lt_next_of_mem_childRefs (h : Forest s) (hw : Memory.wf s) {i : NodeIdx} (hi : i ∈ childRefs s) :
    i.toNat + 1 < s.next.toNat := by
  obtain ⟨⟨k, n⟩, he, hc⟩ := List.mem_flatMap.1 hi
  obtain ⟨j, rfl, hn⟩ := hw.node?_of_mem he
  cases n with
  | leaf sym w => cases hc
  | internal w l r =>
    have hj := h.lt_next (i := j) (by rw [hn]; rfl)
    obtain ⟨-, hl, hr, -⟩ := h.internal hn
    have hchild : i = l ∨ i = r := by simpa [Node.children] using hc
    rcases hchild with rfl | rfl <;> omega

/-- A root alone in the list of a forest with internal nodes is the node allocated last: that one is nobody's child (R168). -/
theorem Forest.root_is_last (h : Forest s) (hw : Memory.wf s) {r : NodeIdx} (hr : s.pl = [r]) (hn : 256 < s.next.toNat) :
    r.toNat + 1 = s.next.toNat := by
  have hlast : (s.next - 1#9).toNat = s.next.toNat - 1 := by
    have := s.next.isLt
    rw [BitVec.toNat_sub, BitVec.toNat_ofNat]; omega
  have hv : (s.node? (s.next - 1#9)).isSome = true :=
    (h.internal_allocated _ (firstInternal_le_iff.2 (by omega))).2 (BitVec.lt_def.2 (by omega))
  have howned := h.owned_once.symm.subset (node?_isSome_iff.1 hv)
  obtain ⟨i, hi, heq⟩ := List.mem_map.1 howned
  rcases List.mem_append.1 hi with hi | hi
  · obtain rfl : i = r := by simpa [hr] using hi
    omega
  · have := h.succ_lt_next_of_mem_childRefs hw hi
    omega

/-- A forest of no trees has no nodes: there is no symbol for a leaf, and `NEXT` is 256. -/
theorem Forest.nodes_of_pl_nil (h : Forest s) (hw : Memory.wf s) (hf : FreqInv s) (hl : s.pl = []) : s.nodes = [] := by
  refine List.eq_nil_iff_forall_not_mem.2 fun ⟨k, n⟩ he => ?_
  obtain ⟨i, -, hn⟩ := hw.node?_of_mem he
  cases n with
  | leaf sym w =>
    have hmem := h.pl_leaves.symm.subset (mem_presentSymbols.2 (h.leaf hn).2.1)
    simp [hl] at hmem
  | internal w l r =>
    have hcount := h.pl_count
    have hlt := h.lt_next (i := i) (by rw [hn]; rfl)
    have hge := (h.internal hn).1
    rw [(h.unique_eq_zero_iff hf).2 hl, hl, List.length_nil, BitVec.toNat_ofNat] at hcount
    omega

/-! ## `BUILD` -/

/-- While the tree is built, the pointer is at the root, with or without one (R165, R50). -/
def Building (s : State) : Prop := (s.phase = .seeded ∨ s.phase = .tree) ∧ s.cur = s.root

theorem Building.mergeStep (h : Building s) (hm : mergeStep s = .next t) : Building t := by
  obtain ⟨hp, hc⟩ := h
  rcases mergeStep_stage hm with ⟨htp, htc⟩ | ⟨htp, htc, htr, -⟩
  · exact ⟨.inr htp, htc⟩
  · exact ⟨by rwa [htp], by rw [htc, htr, hc]⟩

theorem building_finishSeeding (hu : Unrooted s) : Building (finishSeeding s) := by
  obtain ⟨hr, -, hc⟩ := hu
  match hl : s.pl with
  | [] => rw [finishSeeding_empty s hl]; exact ⟨.inr rfl, hc.trans hr.symm⟩
  | [i] => rw [finishSeeding_single s i hl]; exact ⟨.inr rfl, rfl⟩
  | _ :: _ :: _ => rw [finishSeeding_two s (by simp [hl])]; exact ⟨.inl rfl, hc.trans hr.symm⟩

/-- Without turns the merge loop answers outside phase SEEDED only. -/
theorem mergeLoop_zero_eq_next_iff : mergeLoop 0 s = .next t ↔ s.phase ≠ .seeded ∧ t = s := by
  by_cases hp : s.phase = .seeded <;> simp [mergeLoop, hp, eq_comm]

/-- The merge loop ends outside phase SEEDED. -/
theorem mergeLoop_ne_seeded {turns : Nat} (h : mergeLoop turns s = .next t) : t.phase ≠ .seeded := by
  induction turns generalizing s with
  | zero =>
    obtain ⟨hp, rfl⟩ := mergeLoop_zero_eq_next_iff.1 h
    exact hp
  | succ n ih =>
    by_cases hp : s.phase = .seeded
    · rw [mergeLoop_succ_of_seeded _ hp, andThen_eq_next_iff] at h
      obtain ⟨u, -, ht⟩ := h
      exact ih ht
    · rw [mergeLoop_of_ne_seeded _ hp] at h; cases h; exact hp

/-- The loop of `BUILD` ends in phase TREE with the pointer at the root. -/
theorem Building.mergeAll (h : Building s) (hm : mergeAll s = .next t) : t.phase = .tree ∧ t.cur = t.root := by
  obtain ⟨hp, hc⟩ : Building t := mergeLoop_induction (fun _ _ hu hv => hu.mergeStep hv) hm h
  exact ⟨hp.resolve_left (mergeLoop_ne_seeded hm), hc⟩

/-- A legal `BUILD` completes, keeps the invariants and writes the builder's fields; it ends in phase TREE with the pointer at the root. -/
theorem Inv.execBuild (h : Inv s) (he : s.err = .noFault)
    (hp : (s.phase = .freq ∧ (s.hst = .idle ∨ s.hst = .done)) ∨ s.phase = .seeded) :
    ∃ t, execBuild s = .next t ∧ Inv t ∧ BuilderFrame s t ∧ t.phase = .tree ∧ t.cur = t.root := by
  rcases hp with ⟨hp, hh⟩ | hp
  · obtain ⟨u, hloop, hb, hur⟩ := h.seedLoop hp hh
    have hbody : Machine.seedBody s = .next (finishSeeding u) := seedBody_eq_next_iff.2 ⟨u, hloop, rfl⟩
    obtain ⟨t, ht, hti⟩ := (hb.inv_finishSeeding hur).mergeAll
    refine ⟨t, ?_, hti, (seedBody_builderFrame hbody).trans (mergeAll_builderFrame ht), (building_finishSeeding hur).mergeAll ht⟩
    rw [execBuild_of_freq he hp hh, hbody, andThen_next, ht]
  · obtain ⟨hr, -, hc⟩ := h.unrooted (.inr hp)
    obtain ⟨t, ht, hti⟩ := h.mergeAll
    have hbuilding : Building s := ⟨.inl hp, hc.trans hr.symm⟩
    exact ⟨t, (execBuild_of_seeded he hp).trans ht, hti, mergeAll_builderFrame ht, hbuilding.mergeAll ht⟩

/-- Settles O32: the invariants of the complete tree count its nodes, and its root is the node allocated last. -/
theorem buildCompletesTree : Obligations.BuildCompletesTree := by
  intro s h he hp
  obtain ⟨t, hexec, ht, hframe, htp, hcur⟩ := h.execBuild he hp
  have hforest : Forest t := ht.treeInv.forest (by simp [htp])
  have huniq : s.unique = t.unique := by obtain ⟨_, _, _, _, _, _, _, rfl⟩ := hframe; rfl
  have hcases : t.unique = 0#9 ∨ 1 ≤ t.unique.toNat := by
    rw [← BitVec.toNat_inj, BitVec.toNat_ofNat]; omega
  have hroot : 1 ≤ t.unique.toNat → t.pl = [t.root] ∧ t.rootv = true := fun h1 =>
    ht.treeInv.complete_root (.inl htp) fun e => by simp [e] at h1
  have hempty : t.unique = 0#9 → t.pl = [] ∧ t.rootv = false := ht.treeInv.complete_empty (.inl htp)
  have hnext : 1 ≤ t.unique.toNat → t.next.toNat = 255 + t.unique.toNat := fun h1 => by
    have hcount := hforest.pl_count
    rw [(hroot h1).1, List.length_singleton] at hcount
    omega
  have hlast : 2 ≤ t.unique.toNat → t.root.toNat = 254 + t.unique.toNat := fun h2 => by
    have hn := hnext (by omega)
    have := hforest.root_is_last ht.wf (hroot (by omega)).1 (by omega)
    omega
  have hbound : t.root.toNat ≤ 510 := by
    rcases hcases with h0 | h1
    · simp [(ht.treeInv.no_root (hempty h0).2).1]
    · have := hforest.lt_next (hforest.isSome_of_mem_pl (k := t.root) (by simp [(hroot h1).1]))
      have := t.next.isLt
      omega
  have hfew : t.unique ≤ 1#9 → t.next = 256#9 := fun hle => BitVec.eq_of_toNat_eq <| by
    have hle' : t.unique.toNat ≤ 1 := hle
    rcases hcases with h0 | h1
    · simpa [(hempty h0).1, h0] using hforest.pl_count
    · rw [hnext h1, BitVec.toNat_ofNat]; omega
  rw [huniq]
  refine ⟨t, hexec, htp, fun h2 => ⟨hlast h2, hnext (by omega)⟩, hforest.internal_allocated, hbound,
    fun h1 => ⟨(hroot h1).1, (hroot h1).2, hcur⟩, fun h1 => hforest.root_leaf (hroot (by simp [h1])).1 h1, hfew, fun h0 => ?_, ?_⟩
  · obtain ⟨hpl, hv⟩ := hempty h0
    exact ⟨hpl, hv, (ht.treeInv.no_root hv).1, hforest.nodes_of_pl_nil ht.wf ht.freqInv hpl⟩
  · obtain ⟨_, _, _, _, _, _, _, rfl⟩ := hframe
    rfl

end Sys2Proof.Machine
end

section
/-! PROOF. The builder reads the counts and its own fields alone, so equal counts give equal trees (R169). -/

namespace Sys2Proof.Machine

variable {s s' t t' : State}

/-- The two states agree on what the builder reads and writes: the counts, the node store, the list, `NEXT`, the phase and the root. -/
structure SameBuild (s t : State) : Prop where
  freqAt : ∀ sym, s.freqAt sym = t.freqAt sym
  nodes : s.nodes = t.nodes
  next : s.next = t.next
  pl : s.pl = t.pl
  phase : s.phase = t.phase
  root : s.root = t.root
  rootv : s.rootv = t.rootv
  cur : s.cur = t.cur

/-- Two computations that, where both complete, end in states that agree for the builder. -/
def SameResult (x y : Result State) : Prop := ∀ t t', x = .next t → y = .next t' → SameBuild t t'

theorem SameBuild.result (h : SameBuild s s') : SameResult (.next s) (.next s') := by
  rintro _ _ ⟨⟩ ⟨⟩
  exact h

theorem SameResult.andThen {x y : Result State} {f g : State → Result State} (h : SameResult x y)
    (hf : ∀ u v, SameBuild u v → SameResult (f u) (g v)) : SameResult (andThen x f) (andThen y g) := by
  intro t t' ht ht'
  obtain ⟨u, hu, ht⟩ := andThen_eq_next_iff.1 ht
  obtain ⟨v, hv, ht'⟩ := andThen_eq_next_iff.1 ht'
  exact hf u v (h u v hu hv) t t' ht ht'

/-- An insertion reads the node store alone. -/
theorem insertAt_congr (h : t.nodes = s.nodes) (stops : Node → Node → Result Bool) (n : NodeIdx) (new : Node) (l : List NodeIdx) :
    insertAt stops t n new l = insertAt stops s n new l := by
  induction l with
  | nil => rfl
  | cons k rest ih => simp only [insertAt, State.readNode, State.node?_congr h, ih]

/-! ## Completion -/

theorem SameBuild.treeComplete (h : SameBuild s s') : SameBuild (treeComplete s) (treeComplete s') := by
  have hpl := h.pl
  match hl : s.pl with
  | [i] =>
    rw [treeComplete_single s i hl, treeComplete_single s' i (hpl ▸ hl)]
    exact ⟨h.freqAt, h.nodes, h.next, h.pl, rfl, rfl, rfl, rfl⟩
  | [] | _ :: _ :: _ =>
    rw [treeComplete_of_length_ne_one s (by simp [hl]), treeComplete_of_length_ne_one s' (by simp [← hpl, hl])]
    exact ⟨h.freqAt, h.nodes, h.next, h.pl, rfl, h.root, h.rootv, h.cur⟩

theorem SameBuild.completeIfSingle (h : SameBuild s s') : SameBuild (completeIfSingle s) (completeIfSingle s') := by
  unfold Machine.completeIfSingle
  rw [← h.pl]
  split
  · exact h.treeComplete
  · exact h

theorem SameBuild.finishSeeding (h : SameBuild s s') : SameBuild (finishSeeding s) (finishSeeding s') := by
  by_cases h2 : 2 ≤ s.pl.length
  · rw [finishSeeding_two s h2, finishSeeding_two s' (h.pl ▸ h2)]
    exact { h with freqAt := h.freqAt, phase := rfl }
  · rw [Machine.finishSeeding, Machine.finishSeeding, if_neg h2, if_neg (h.pl ▸ h2)]
    exact h.treeComplete

/-! ## Seeding -/

theorem SameBuild.seedSymbol (h : SameBuild s s') (sym : Symbol) : SameResult (seedSymbol sym s) (seedSymbol sym s') := by
  by_cases h0 : s.freqAt sym = 0#32
  · rw [seedSymbol_absent h0, seedSymbol_absent ((h.freqAt sym).symm.trans h0)]
    exact h.result
  · intro t t' ht ht'
    have hleaf : leafOf sym s = leafOf sym s' := by simp only [leafOf, h.freqAt]
    obtain ⟨pl, hins, rfl⟩ := (seedSymbol_present_iff h0).1 ht
    obtain ⟨pl', hins', rfl⟩ := (seedSymbol_present_iff (by rwa [← h.freqAt])).1 ht'
    rw [← hleaf, ← h.pl, insertAt_congr (s := { s with nodes := Table.set s.nodes (leafIdx sym).toNat (leafOf sym s) })
      (by rw [h.nodes]), hins] at hins'
    cases hins'
    exact { h with freqAt := h.freqAt, nodes := by simp only [h.nodes, hleaf], pl := rfl }

theorem SameBuild.seedLoop (h : SameBuild s s') (syms : List Symbol) : SameResult (seedLoop syms s) (seedLoop syms s') := by
  induction syms generalizing s s' with
  | nil => exact h.result
  | cons sym rest ih => exact (h.seedSymbol sym).andThen fun _ _ huv => ih huv

theorem SameBuild.seedBody (h : SameBuild s s') : SameResult (seedBody s) (seedBody s') :=
  (h.seedLoop allSymbols).andThen fun _ _ huv => huv.finishSeeding.result

/-! ## Merging -/

/-- A merge step is a function of `PL`, `NODE` and `NEXT` (R169). -/
theorem SameBuild.mergeStep (h : SameBuild s s') : SameResult (mergeStep s) (mergeStep s') := by
  intro t t' ht ht'
  obtain ⟨l, r, rest, nl, nr, pl, hpl, hl, hr, -, hins, rfl⟩ := mergeStep_eq_next_iff.1 ht
  obtain ⟨_, _, _, _, _, pl', hpl', hl', hr', -, hins', rfl⟩ := mergeStep_eq_next_iff.1 ht'
  cases hpl.symm.trans (h.pl.trans hpl')
  rw [State.node?_congr h.nodes.symm] at hl' hr'
  cases hl.symm.trans hl'
  cases hr.symm.trans hr'
  have hnodes : (mergedState s' l r nl nr rest).nodes = (mergedState s l r nl nr rest).nodes := by
    simp only [mergedState, h.nodes, h.next]
  rw [insertAt_congr hnodes, ← h.next, hins] at hins'
  cases hins'
  refine SameBuild.completeIfSingle { h with freqAt := h.freqAt, nodes := hnodes.symm, next := ?_, pl := rfl }
  simp only [mergedState, h.next]

theorem SameBuild.mergeLoop (h : SameBuild s s') (turns : Nat) : SameResult (mergeLoop turns s) (mergeLoop turns s') := by
  induction turns generalizing s s' with
  | zero =>
    intro t t' ht ht'
    obtain ⟨-, rfl⟩ := mergeLoop_zero_eq_next_iff.1 ht
    obtain ⟨-, rfl⟩ := mergeLoop_zero_eq_next_iff.1 ht'
    exact h
  | succ n ih =>
    by_cases hp : s.phase = .seeded
    · rw [mergeLoop_succ_of_seeded n hp, mergeLoop_succ_of_seeded n (h.phase ▸ hp)]
      exact h.mergeStep.andThen fun _ _ huv => ih huv
    · rw [mergeLoop_of_ne_seeded _ hp, mergeLoop_of_ne_seeded _ (h.phase ▸ hp)]
      exact h.result

theorem SameBuild.mergeAll (h : SameBuild s s') : SameResult (mergeAll s) (mergeAll s') := by
  unfold Machine.mergeAll
  rw [← h.pl]
  exact h.mergeLoop _

/-! ## `BUILD` -/

/-- Open blocks with equal counts agree for the builder (R50, R52). -/
theorem Inv.sameBuild (h : Inv s) (h' : Inv s') (hp : s.phase = .freq) (hp' : s'.phase = .freq)
    (hf : ∀ sym, s.freqAt sym = s'.freqAt sym) : SameBuild s s' := by
  obtain ⟨hn, hl, hx⟩ := h.treeInv.open_empty hp
  obtain ⟨hn', hl', hx'⟩ := h'.treeInv.open_empty hp'
  obtain ⟨hr, hv, hc⟩ := h.unrooted (.inl hp)
  obtain ⟨hr', hv', hc'⟩ := h'.unrooted (.inl hp')
  exact ⟨hf, hn.trans hn'.symm, hx.trans hx'.symm, hl.trans hl'.symm, hp.trans hp'.symm, hr.trans hr'.symm, hv.trans hv'.symm,
    hc.trans hc'.symm⟩

/-- A `BUILD` from phase FREQ that ends without a fault was legal, and is the body of `SEED` and the merge loop. -/
theorem seedBody_mergeAll_of_execBuild (he : s.err = .noFault) (hp : s.phase = .freq) (h : execBuild s = .next t)
    (ht : t.err = .noFault) : andThen (seedBody s) mergeAll = .next t := by
  by_cases hh : s.hst = .idle ∨ s.hst = .done
  · rwa [execBuild_of_freq he hp hh] at h
  · rw [execBuild, unlessFaulted_live he, if_pos hp, require_neg hh] at h
    cases h
    cases ht

/-- Settles O33: every part of `BUILD` takes states that agree to states that agree. -/
theorem treeDependsOnTableAlone : Obligations.TreeDependsOnTableAlone := by
  intro s s' t t' h h' hp hp' hf hb hb' he he' ht ht'
  have hsame := (h.sameBuild h' hp hp' hf).seedBody.andThen (fun _ _ huv => huv.mergeAll) t t'
    (seedBody_mergeAll_of_execBuild he hp hb ht) (seedBody_mergeAll_of_execBuild he' hp' hb' ht')
  exact ⟨hsame.nodes, hsame.pl, hsame.root, hsame.rootv, hsame.next, hsame.cur⟩

end Sys2Proof.Machine
end

section
/-! PROOF. The leaves of a tree with their paths from its root (R15), and what they say by themselves: each leaf has one path, every
long enough sequence of directions meets a leaf, and the Kraft sum of the paths is 1 (R183). -/

namespace Sys2Proof.Machine

variable {s : State}

/-- The leaves of a tree, left to right, each with the directions that lead to it, 0 = left (R15). -/
def Tree.paths : Tree → List (Symbol × List Bool)
  | .leaf sym _ => [(sym, [])]
  | .internal _ l r => (l.paths.map fun e => (e.1, false :: e.2)) ++ r.paths.map fun e => (e.1, true :: e.2)

/-- The length of a longest path of a tree. -/
def Tree.depth : Tree → Nat
  | .leaf _ _ => 0
  | .internal _ l r => max l.depth r.depth + 1

theorem Tree.map_fst_paths (T : Tree) : T.paths.map Prod.fst = T.leaves := by
  induction T with
  | leaf sym w => rfl
  | internal w l r ihl ihr => simp [Tree.paths, Tree.leaves, Function.comp_def, ← ihl, ← ihr]

theorem Tree.mem_paths_leaf {sym x : Symbol} {w : Weight} {p : List Bool} :
    (x, p) ∈ (Tree.leaf sym w).paths ↔ x = sym ∧ p = [] := by
  simp [Tree.paths]

theorem Tree.mem_paths_internal_nil {w : Weight} {l r : Tree} {x : Symbol} : (x, []) ∉ (Tree.internal w l r).paths := by
  simp [Tree.paths]

theorem Tree.mem_paths_internal_cons {w : Weight} {l r : Tree} {x : Symbol} {c : Bool} {p : List Bool} :
    (x, c :: p) ∈ (Tree.internal w l r).paths ↔ (x, p) ∈ (if c then r else l).paths := by
  cases c <;> simp [Tree.paths]

theorem Tree.mem_leaves_iff {T : Tree} {x : Symbol} : x ∈ T.leaves ↔ ∃ p, (x, p) ∈ T.paths := by
  simp [← T.map_fst_paths]

/-- Where every leaf has its own symbol, a symbol has one path. -/
theorem Tree.path_unique {T : Tree} (hT : T.leaves.Nodup) {x : Symbol} {p q : List Bool} (hp : (x, p) ∈ T.paths)
    (hq : (x, q) ∈ T.paths) : p = q :=
  congrArg Prod.snd (List.inj_on_of_nodup_map (T.map_fst_paths.symm ▸ hT) hp hq rfl)

/-- A sequence of directions as long as the tree is deep passes a leaf. -/
theorem Tree.exists_path_prefix {T : Tree} {bits : List Bool} (h : T.depth ≤ bits.length) : ∃ x p, (x, p) ∈ T.paths ∧ p <+: bits := by
  induction T generalizing bits with
  | leaf sym w => exact ⟨sym, [], Tree.mem_paths_leaf.2 ⟨rfl, rfl⟩, List.nil_prefix⟩
  | internal w l r ihl ihr =>
    cases bits with
    | nil => simp [Tree.depth] at h
    | cons c bits =>
      have hlr : max l.depth r.depth ≤ bits.length := Nat.le_of_succ_le_succ h
      obtain ⟨x, p, hp, hpre⟩ : ∃ x p, (x, p) ∈ (if c then r else l).paths ∧ p <+: bits := by
        cases c with
        | false => exact ihl ((Nat.le_max_left _ _).trans hlr)
        | true => exact ihr ((Nat.le_max_right _ _).trans hlr)
      exact ⟨x, c :: p, Tree.mem_paths_internal_cons.2 hp, (List.prefix_cons_inj c).2 hpre⟩

/-- The Kraft sum of the paths is 1, here multiplied by `2^d`: each child gives one half of it (R183). -/
theorem Tree.kraft_sum {T : Tree} {d : Nat} (h : T.depth ≤ d) : (T.paths.map fun e => 2 ^ (d - e.2.length)).sum = 2 ^ d := by
  induction T generalizing d with
  | leaf sym w => simp [Tree.paths]
  | internal w l r ihl ihr =>
    cases d with
    | zero => simp [Tree.depth] at h
    | succ d =>
      have hlr : max l.depth r.depth ≤ d := Nat.le_of_succ_le_succ h
      have hl := ihl ((Nat.le_max_left _ _).trans hlr)
      have hr := ihr ((Nat.le_max_right _ _).trans hlr)
      simp only [Tree.paths, List.map_append, List.map_map, Function.comp_def, List.length_cons, Nat.add_sub_add_right, List.sum_append,
        hl, hr]
      rw [pow_succ, mul_two]

/-! ## The paths of a tree of the node store -/

/-- What a tree of the node store is: a leaf's entry, or an internal entry over the trees of its children (R15). -/
theorem treeWithin_cases {d : Nat} {i : NodeIdx} {T : Tree} (hT : treeWithin s (d + 1) i = some T) :
    (∃ sym w, s.node? i = some (.leaf sym w) ∧ T = .leaf sym w) ∨
    (∃ w l r L R, s.node? i = some (.internal w l r) ∧ treeWithin s d l = some L ∧ treeWithin s d r = some R ∧ T = .internal w L R) := by
  cases hn : s.node? i with
  | none => simp [treeWithin, hn] at hT
  | some n =>
    cases n with
    | leaf sym w => exact .inl ⟨sym, w, rfl, Option.some_inj.1 (hT.symm.trans (treeWithin_leaf hn d))⟩
    | internal w l r =>
      simp only [treeWithin, hn] at hT
      cases hL : treeWithin s d l <;> cases hR : treeWithin s d r <;> simp [hL, hR] at hT
      exact .inr ⟨w, l, r, _, _, rfl, hL, hR, hT.symm⟩

theorem depth_lt_of_treeWithin {d : Nat} {i : NodeIdx} {T : Tree} (hT : treeWithin s d i = some T) : T.depth < d := by
  induction d generalizing i T with
  | zero => cases hT
  | succ d ih =>
    rcases treeWithin_cases hT with ⟨sym, w, -, rfl⟩ | ⟨w, l, r, L, R, -, hL, hR, rfl⟩
    · exact Nat.succ_pos d
    · exact Nat.succ_lt_succ (max_lt (ih hL) (ih hR))

/-- A path of the tree is a path of the node store to that leaf (R15). -/
theorem mem_paths_iff_leafReached {d : Nat} {i : NodeIdx} {T : Tree} (hT : treeWithin s d i = some T) {x : Symbol} {p : List Bool} :
    (x, p) ∈ T.paths ↔ leafReached s i p = some x := by
  induction d generalizing i T p with
  | zero => cases hT
  | succ d ih =>
    rcases treeWithin_cases hT with ⟨sym, w, hn, rfl⟩ | ⟨w, l, r, L, R, hn, hL, hR, rfl⟩
    · rw [Tree.mem_paths_leaf]
      cases p with
      | nil => simp [leafReached_nil_of_leaf hn, eq_comm]
      | cons c p => simp [leafReached, descend_leaf hn]
    · cases p with
      | nil => simp [Tree.mem_paths_internal_nil, leafReached, hn]
      | cons c p =>
        rw [Tree.mem_paths_internal_cons, leafReached_cons hn]
        cases c with
        | false => exact ih hL
        | true => exact ih hR

end Sys2Proof.Machine
end

section
/-! PROOF. `GEN` assigns the root paths as codes: the Code Table is then the list of the tree's paths (R182, R183); with fewer than two
present symbols it only moves the phase (R184). -/

namespace Sys2Proof.Machine

variable {s : State}

/-- `GEN` with two or more present symbols completes, writes `CODE` and `PHASE` alone and keeps the invariants. -/
theorem Inv.exec_gen (h : Inv s) (he : s.err = .noFault) (hp : s.phase = .tree) (hu : 2#9 ≤ s.unique) :
    ∃ codes, Machine.exec .gen s = .next { s with codes := codes, phase := .coded } ∧ Inv { s with codes := codes, phase := .coded } := by
  obtain ⟨codes, hwalk, hinv⟩ := h.gen hp hu
  exact ⟨codes, execGen_eq_next_iff.2 (.inl ⟨he, .inl ⟨hp, .inl ⟨hu, codes, hwalk, rfl⟩⟩⟩), hinv⟩

/-- In phase CODED a symbol that is not present is refused (R212, R275). -/
theorem execPut_of_absent {x : Symbol} (he : s.err = .noFault) (hp : s.phase = .coded) (hx : s.freqAt x = 0#32) :
    execPut x s = .next { s with err := .contract } := by
  rw [execPut, unlessFaulted_live he, require_pos hp, require_neg (not_not.2 hx)]

/-- Settles O35: the invariants of the state after `GEN` say of each symbol whether it has a code, and that the code is its path. -/
theorem genAssignsRootPaths : Obligations.GenAssignsRootPaths := by
  intro s h he hp hu
  obtain ⟨codes, hexec, ht⟩ := h.exec_gen he hp hu
  refine ⟨_, hexec, rfl, fun x hx => ?_, fun x hx => ⟨?_, execPut_of_absent he rfl hx⟩, rfl⟩
  · obtain ⟨c, hc⟩ := Option.isSome_iff_exists.1 ((ht.codeInv.present rfl hu x).2 hx)
    obtain ⟨hreach, hpos, hlen⟩ := ht.codeInv.is_path x c hc
    exact ⟨c.bits, hc, (leafReached_congr (by rfl) _ _).symm.trans hreach, hpos, hlen⟩
  · exact Option.not_isSome_iff_eq_none.1 fun hs => (ht.codeInv.present rfl hu x).1 hs hx

/-- Settles O36: fewer than two present symbols leave nothing for the walk to do. -/
theorem genBypassesSingleAndEmpty : Obligations.GenBypassesSingleAndEmpty := by
  intro s he hp hu
  have hfew : ¬2#9 ≤ s.unique := fun htwo => absurd (BitVec.le_trans htwo hu) (by decide)
  exact execGen_eq_next_iff.2 (.inl ⟨he, .inl ⟨hp, .inr ⟨hfew, rfl⟩⟩⟩)

/-! ## The Code Table as the paths of the tree -/

/-- In phase CODED with two or more present symbols, `tree(ROOT)` has the present symbols as its leaves and the Code Table holds
exactly its paths (R55, R182). -/
theorem Inv.exists_codeTree (h : Inv s) (hp : s.phase = .coded) (hu : 2#9 ≤ s.unique) :
    ∃ T, treeAt s s.root = some T ∧ T.leaves.Perm (presentSymbols s) ∧ ∀ x p, s.code? x = some ⟨p⟩ ↔ (x, p) ∈ T.paths := by
  have hf := h.treeInv.forest (by simp [hp])
  have hne : s.unique ≠ 0#9 := fun e => absurd (e ▸ hu) (by decide)
  obtain ⟨hpl, -⟩ := h.treeInv.complete_root (.inr hp) hne
  obtain ⟨T, hT⟩ := hf.exists_treeAt (hf.isSome_of_mem_pl (k := s.root) (by simp [hpl]))
  have hleaves : T.leaves.Perm (presentSymbols s) := leavesAt_eq_of_treeAt hT ▸ hf.leavesAt_root hpl
  have hpath : ∀ {x p}, s.code? x = some ⟨p⟩ → (x, p) ∈ T.paths := fun {x p} hc =>
    (mem_paths_iff_leafReached hT).2 (h.codeInv.is_path x ⟨p⟩ hc).1
  refine ⟨T, hT, hleaves, fun x p => ⟨hpath, fun hxp => ?_⟩⟩
  have hx : s.freqAt x ≠ 0#32 := mem_presentSymbols.1 (hleaves.subset (Tree.mem_leaves_iff.2 ⟨p, hxp⟩))
  obtain ⟨c, hc⟩ := Option.isSome_iff_exists.1 ((h.codeInv.present hp hu x).2 hx)
  have hnodup : T.leaves.Nodup := hleaves.nodup_iff.2 (allSymbols_nodup.filter _)
  rw [hc, Tree.path_unique hnodup hxp (hpath hc)]

/-- The codes in symbol order are the paths of such a tree, rearranged. -/
theorem codes_perm_paths {T : Tree} (hleaves : T.leaves.Perm (presentSymbols s))
    (hcode : ∀ x p, s.code? x = some ⟨p⟩ ↔ (x, p) ∈ T.paths) :
    (allSymbols.filterMap s.code?).Perm (T.paths.map fun e => ⟨e.2⟩) := by
  have habsent : ∀ x, s.code? x = if s.freqAt x != 0#32 then s.code? x else none := fun x => by
    split
    · rfl
    · next hx =>
      refine Option.eq_none_iff_forall_ne_some.2 fun c hc => hx ?_
      have hmem := hleaves.subset (Tree.mem_leaves_iff.2 ⟨c.bits, (hcode x c.bits).1 hc⟩)
      simpa using mem_presentSymbols.1 hmem
  calc allSymbols.filterMap s.code?
      = (presentSymbols s).filterMap s.code? := by
        rw [presentSymbols, List.filterMap_filter]
        exact List.filterMap_congr fun x _ => habsent x
    List.Perm _ (T.leaves.filterMap s.code?) := (hleaves.filterMap _).symm
    _ = T.paths.map fun e => ⟨e.2⟩ := by
        rw [← T.map_fst_paths, List.filterMap_map, ← List.filterMap_eq_map]
        exact List.filterMap_congr fun e he => (hcode e.1 e.2).2 he

/-- Settles O37: the codes after `GEN` are the paths of a tree at most 255 deep, whose Kraft sum is 1. -/
theorem codesArePrefixFreeAndComplete : Obligations.CodesArePrefixFreeAndComplete := by
  intro s t h he hp hu hexec
  obtain ⟨codes, hexec', ht⟩ := h.exec_gen he hp hu
  cases hexec.symm.trans hexec'
  obtain ⟨T, hT, hleaves, hcode⟩ := ht.exists_codeTree rfl hu
  have hdepth : T.depth ≤ 255 := Nat.le_of_lt_succ (depth_lt_of_treeWithin hT)
  refine ⟨ht.codeInv.prefix_free, fun bits hbits => ?_, ?_⟩
  · obtain ⟨x, p, hxp, hpre⟩ := Tree.exists_path_prefix (hbits.symm ▸ hdepth)
    exact ⟨x, ⟨p⟩, (hcode x p).2 hxp, hpre⟩
  · rw [((codes_perm_paths hleaves hcode).map _).sum_eq, List.map_map]
    exact Tree.kraft_sum hdepth

end Sys2Proof.Machine
end

section
/-! PROOF. The commands of the Header Codec on one state: what each header byte does (R194 to R197), which headers are corrupt (R198). -/

namespace Sys2Proof.Machine

variable {s : State}

/-! ## The parser before the commit -/

/-- The count byte declares one entry more than its number (R108, R194). -/
theorem declaredCount_eq_ofNat (b : Byte) : declaredCount b = BitVec.ofNat 9 (b.toNat + 1) := by
  have := b.isLt
  refine BitVec.eq_of_toNat_eq ?_
  simp only [declaredCount, BitVec.toNat_add, BitVec.toNat_setWidth, BitVec.toNat_ofNat]
  omega

/-- Into an empty table the first byte of a header opens the parser (R194). -/
theorem execHin_opens {b : Byte} (he : s.err = .noFault) (hp : s.phase = .freq) (hh : s.hst = .idle) (ht : s.total = 0#40) :
    execHin b s = .next { s with hcnt := declaredCount b, hst := .sym } :=
  (execHin_idle he hp hh).trans (if_pos ht)

/-- Settles O22, by the equation of `HIN` at each position of the parser. -/
theorem hinAdvancesParser : Obligations.HinAdvancesParser := fun b _ he hp =>
  ⟨fun hh ht => declaredCount_eq_ofNat b ▸ execHin_opens he hp hh ht, execHin_sym he hp, execHin_f3 he hp, execHin_f2 he hp,
    execHin_f1 he hp⟩

/-! ## The commit -/

/-- Under the frequency invariants the sums of an accepted entry fit their registers (R51, R197). -/
theorem FreqInv.sums_commitEntry {f : Count} (h : FreqInv s) (ht : FreqInv (Machine.commitEntry f s)) (hf : f ≠ 0#32)
    (h0 : s.freqAt s.hsym = 0#32) :
    (Machine.commitEntry f s).total.toNat = s.total.toNat + f.toNat ∧
      (Machine.commitEntry f s).unique.toNat = s.unique.toNat + 1 := by
  have hsum := countSum_of_freq_eq (t := Machine.commitEntry f s) hf rfl
  have hlen := presentSymbols_length_of_first (t := Machine.commitEntry f s) hf h0 rfl
  rw [h0, ht.total_eq, h.total_eq] at hsum
  rw [ht.unique_eq, h.unique_eq] at hlen
  exact ⟨hsum, hlen⟩

/-- Settles O23: an accepted fifth byte is `commitEntry`, which keeps the frequency invariants. -/
theorem hinCommitsEntry : Obligations.HinCommitsEntry := by
  rintro b s f he hp hh rfl hf h0
  refine ⟨commitEntry (withByte0 s.hfrq b) s, execHin_commits he hp hh hf h0, State.freqAt_setFreq_self s _ hf,
    fun x hx => State.freqAt_setFreq_ne s _ hx, rfl, rfl, rfl, rfl, rfl, fun h => ?_⟩
  have ht := h.commitEntry hp hh hf h0
  exact ⟨ht, h.sums_commitEntry ht hf h0⟩

/-! ## Which headers are corrupt -/

/-- A fifth byte that completes the frequency 0, or an entry of a symbol listed before, is CORRUPT (R198). -/
theorem execHin_corrupt {b : Byte} (he : s.err = .noFault) (hp : s.phase = .freq) (hh : s.hst = .f0)
    (h : withByte0 s.hfrq b = 0#32 ∨ s.freqAt s.hsym ≠ 0#32) : execHin b s = .next { s with err := .corrupt } := by
  rw [execHin_f0 he hp hh, if_neg]
  rintro ⟨hf, h0⟩
  exact h.elim hf fun h => h h0

/-- No byte before the fifth of an entry is inconsistent (R198). -/
theorem execHin_accepts_early {b : Byte} (he : s.err = .noFault) (hp : s.phase = .freq) (h0 : s.hst ≠ .f0) (hd : s.hst ≠ .done)
    (ht : s.hst = .idle → s.total = 0#40) : ∃ t, execHin b s = .next t ∧ t.err = .noFault := by
  cases hh : s.hst with
  | idle => exact ⟨_, execHin_opens he hp hh (ht hh), he⟩
  | sym => exact ⟨_, execHin_sym he hp hh, he⟩
  | f3 => exact ⟨_, execHin_f3 he hp hh, he⟩
  | f2 => exact ⟨_, execHin_f2 he hp hh, he⟩
  | f1 => exact ⟨_, execHin_f1 he hp hh, he⟩
  | f0 => exact absurd hh h0
  | done => exact absurd hh hd

/-- Every present symbol occurs: there are no more of them than occurrences (R51). -/
theorem FreqInv.unique_le_total (h : FreqInv s) : s.unique.toNat ≤ s.total.toNat := by
  rw [← h.unique_eq, ← h.sum_present, ← List.length_map fun x => (s.freqAt x).toNat]
  refine List.length_le_sum_of_one_le _ fun n hn => ?_
  obtain ⟨x, hx, rfl⟩ := List.mem_map.1 hn
  exact Nat.one_le_iff_ne_zero.2 fun e => mem_presentSymbols.1 hx (BitVec.eq_of_toNat_eq e)

/-- Settles O25: the check of the fifth byte is the only one that takes CORRUPT, and a header partly received closes the builder. -/
theorem hinRejectsInconsistentEntry : Obligations.HinRejectsInconsistentEntry := by
  refine ⟨fun b s he hp hh => ⟨execHin_corrupt he hp hh, fun ⟨hf, h0⟩ => ⟨_, execHin_commits he hp hh hf h0, he⟩⟩,
    fun b s => execHin_accepts_early, fun s he hp hi hd => ?_, fun s h hd => ?_⟩
  · exact ⟨exec_eq_seq_of_not_legal he (by simp [legal, hi, hd]), exec_eq_seq_of_not_legal he (by simp [legal, hp, hi, hd])⟩
  · have hi : s.hst ≠ .idle := by simp [hd]
    have hu : s.unique = s.hcnt := (h.header_progress hi).2.2 hd
    exact ⟨hu, hu ▸ (h.header_count hi).1, h.unique_le_total⟩

end Sys2Proof.Machine
end

section
/-! PROOF. `HOUT` (R191): in the canonical form (log 4) the listed entries of `FREQ` are the present symbols in ascending order, so the
header is read from the table entry by entry. -/

namespace Sys2Proof.Machine

variable {s : State}

/-! ## The listed entries are the present symbols -/

/-- In a canonical table an entry of `FREQ` is listed for a symbol exactly when it is the symbol's count and not 0. -/
theorem Memory.wf.mem_freq_iff (h : Memory.wf s) {x : Symbol} {v : Count} :
    (x.toNat, v) ∈ s.freq ↔ s.freqAt x = v ∧ v ≠ 0#32 := by
  obtain ⟨⟨hrise, hlisted⟩, -, -⟩ := h
  constructor
  · intro hm
    exact ⟨State.freqAt_of_mem hrise hm, bne_iff_ne.1 (hlisted _ hm).2⟩
  · rintro ⟨rfl, hne⟩
    cases hg : Table.get? s.freq x.toNat with
    | none => exact absurd (by simp [State.freqAt, hg, freqUnlisted]) hne
    | some v => simpa [State.freqAt, hg] using Table.mem_of_get? hg

/-- The symbol of a listed entry of `FREQ`. -/
def entrySymbol (e : Nat × Count) : Symbol := BitVec.ofNat 8 e.1

/-- A listed entry stands at its symbol's index. -/
theorem Memory.wf.toNat_entrySymbol (h : Memory.wf s) {e : Nat × Count} (he : e ∈ s.freq) : (entrySymbol e).toNat = e.1 :=
  Nat.mod_eq_of_lt (h.1.2 e he).1

/-- A listed entry is its symbol's count. -/
theorem Memory.wf.freqAt_entrySymbol (h : Memory.wf s) {e : Nat × Count} (he : e ∈ s.freq) :
    s.freqAt (entrySymbol e) = e.2 ∧ e.2 ≠ 0#32 :=
  h.mem_freq_iff.1 (by rwa [h.toNat_entrySymbol he])

theorem Memory.wf.mem_map_entrySymbol (h : Memory.wf s) {x : Symbol} : x ∈ s.freq.map entrySymbol ↔ x ∈ presentSymbols s := by
  rw [mem_presentSymbols, List.mem_map]
  constructor
  · rintro ⟨e, he, rfl⟩
    obtain ⟨hcount, hne⟩ := h.freqAt_entrySymbol he
    exact hcount ▸ hne
  · intro hx
    exact ⟨_, h.mem_freq_iff.2 ⟨rfl, hx⟩, by simp [entrySymbol]⟩

/-- Two ascending lists of the same symbols are one list. -/
theorem Memory.wf.map_entrySymbol (h : Memory.wf s) : s.freq.map entrySymbol = presentSymbols s := by
  have hrise : (s.freq.map entrySymbol).Pairwise (· < ·) :=
    List.pairwise_map.2 <| h.1.1.imp_of_mem fun ha hb hab => by
      rwa [BitVec.lt_def, h.toNat_entrySymbol ha, h.toNat_entrySymbol hb]
  exact hrise.eq_of_mem_iff (allSymbols_rising.filter _) fun _ => h.mem_map_entrySymbol

/-- `UNIQUE` is the number of listed entries. -/
theorem FreqInv.unique_eq_length (h : FreqInv s) (hw : Memory.wf s) : s.unique.toNat = s.freq.length := by
  rw [← h.unique_eq, ← hw.map_entrySymbol, List.length_map]

/-! ## The header -/

/-- The five bytes of a listed entry (R109). -/
def entryBytes (e : Nat × Count) : List Byte := entrySymbol e :: countBytes e.2

/-- A symbol that is not present has no entry in the header (R191). -/
theorem flatMap_headerEntry_present (s : State) (l : List Symbol) :
    l.flatMap (headerEntry s) = (l.filter fun x => s.freqAt x != 0#32).flatMap fun x => x :: countBytes (s.freqAt x) := by
  induction l with
  | nil => rfl
  | cons x rest ih => by_cases h0 : s.freqAt x = 0#32 <;> simp [headerEntry, h0, ih]

/-- The entries of a header are those of the table, in its order. -/
theorem Memory.wf.flatMap_headerEntry (h : Memory.wf s) : allSymbols.flatMap (headerEntry s) = s.freq.flatMap entryBytes := by
  calc allSymbols.flatMap (headerEntry s)
      = (presentSymbols s).flatMap fun x => x :: countBytes (s.freqAt x) := flatMap_headerEntry_present s allSymbols
    _ = s.freq.flatMap fun e => entrySymbol e :: countBytes (s.freqAt (entrySymbol e)) := by
        rw [← h.map_entrySymbol, List.flatMap_map]
    _ = s.freq.flatMap entryBytes := List.flatMap_congr fun e he => by rw [(h.freqAt_entrySymbol he).1, entryBytes]

/-- The header of a table with an entry (R191). -/
theorem Memory.wf.headerBytes_eq (h : Memory.wf s) (hu : s.unique ≠ 0#9) :
    headerBytes s = countByte s.unique :: s.freq.flatMap entryBytes := by
  rw [headerBytes, if_neg hu, h.flatMap_headerEntry]

theorem one_le_toNat_of_ne_zero {u : Tally} (hu : u ≠ 0#9) : 1 ≤ u.toNat :=
  Nat.one_le_iff_ne_zero.2 fun e => hu (BitVec.eq_of_toNat_eq e)

/-- The count byte as a number (R108). -/
theorem countByte_eq_ofNat {u : Tally} (hu : u ≠ 0#9) : countByte u = BitVec.ofNat 8 (u.toNat - 1) := by
  have hpos := one_le_toNat_of_ne_zero hu
  have := u.isLt
  have hsub : (u - 1#9).toNat = u.toNat - 1 := by rw [BitVec.toNat_sub, BitVec.toNat_ofNat]; omega
  refine BitVec.eq_of_toNat_eq ?_
  rw [countByte, BitVec.toNat_setWidth, hsub, BitVec.toNat_ofNat]

/-- The bytes of an entry as numbers, most-significant first (R72, R109). -/
theorem entryBytes_eq_ofNat (e : Nat × Count) :
    entryBytes e = [BitVec.ofNat 8 e.1, BitVec.ofNat 8 (e.2.toNat / 2 ^ 24), BitVec.ofNat 8 (e.2.toNat / 2 ^ 16),
      BitVec.ofNat 8 (e.2.toNat / 2 ^ 8), BitVec.ofNat 8 e.2.toNat] := by
  simp only [entryBytes, entrySymbol, countBytes, BitVec.extractLsb', Nat.shiftRight_eq_div_pow, Nat.pow_zero, Nat.div_one]

theorem length_flatMap_entryBytes (l : Table Count) : (l.flatMap entryBytes).length = 5 * l.length := by
  induction l with
  | nil => rfl
  | cons e rest ih =>
    have hentry : (entryBytes e).length = 5 := rfl
    rw [List.flatMap_cons, List.length_append, ih, hentry, List.length_cons]
    omega

/-- In phases TREE and CODED `HOUT` appends the header (R191). -/
theorem exec_hout (he : s.err = .noFault) (hp : s.phase = .tree ∨ s.phase = .coded) :
    exec .hout s = .next (s.emit (headerBytes s)) :=
  execHout_eq_next_iff.2 (.inl ⟨he, .inl ⟨hp, rfl⟩⟩)

/-- Settles O26: the header is the count byte and the bytes of the listed entries, as many as `UNIQUE` says. -/
theorem houtEmitsHeader : Obligations.HoutEmitsHeader := by
  intro s he hp hw hf
  refine ⟨_, exec_hout he hp, rfl, fun h0 => ?_, fun hu => ⟨?_, ?_⟩⟩
  · rw [State.emit_out, headerBytes, if_pos h0, List.append_nil]
  · simp only [State.emit_out, hw.headerBytes_eq hu, countByte_eq_ofNat hu, List.append_assoc, List.singleton_append,
      ← entryBytes_eq_ofNat]
  · rw [State.emit_out, hw.headerBytes_eq hu, List.length_append, List.length_cons, length_flatMap_entryBytes,
      ← hf.unique_eq_length hw]
    omega

end Sys2Proof.Machine
end

section
/-! PROOF. `HIN` reads back what `HOUT` wrote (R199). By induction over the listed entries: those read so far are the table, and the
frequency invariants (R51) tie `UNIQUE`, `TOTAL` and the end of the header to it. -/

namespace Sys2Proof.Machine

variable {s t : State}

/-! ## One entry -/

/-- The four bytes of a frequency write it back (R109, R194). -/
theorem entryCount_countBytes (f : Count) :
    entryCount (f.extractLsb' 24 8) (f.extractLsb' 16 8) (f.extractLsb' 8 8) (f.extractLsb' 0 8) = f := by
  have := f.isLt
  refine BitVec.eq_of_toNat_eq ?_
  simp only [toNat_entryCount, BitVec.extractLsb'_toNat, Nat.shiftRight_eq_div_pow]
  omega

/-- The bytes of an entry, fed to the parser, commit it (R194, R197). -/
theorem execAll_entryBytes {e : Nat × Count} (he : s.err = .noFault) (hp : s.phase = .freq) (hh : s.hst = .sym)
    (h0 : s.freqAt (entrySymbol e) = 0#32) (hf : e.2 ≠ 0#32) :
    execAll ((entryBytes e).map .hin) s = .next (commitEntry e.2 { s with hsym := entrySymbol e, hst := .f0 }) := by
  have hcount := entryCount_countBytes e.2
  have h := execAll_headerEntry he hp hh h0 (hcount.symm ▸ hf)
  rwa [hcount] at h

/-- A committed entry of a symbol above all listed ones is listed last. -/
theorem freq_commitEntry_of_gt {f : Count} (hf : f ≠ 0#32) (h : ∀ d ∈ s.freq, d.1 < s.hsym.toNat) :
    (commitEntry f s).freq = s.freq ++ [(s.hsym.toNat, f)] :=
  (if_neg hf).trans (Table.set_of_gt h)

/-- Commands keep the frequency invariants, however many. -/
theorem execAll_freqInv {l : List Instr} (hs : FreqInv s) (h : execAll l s = .next t) : FreqInv t := by
  induction l generalizing s with
  | nil => cases h; exact hs
  | cons i rest ih =>
    obtain ⟨u, hu, ht⟩ := andThen_eq_next_iff.1 h
    exact ih (exec_freqInv hs hu) ht

/-! ## The entries of a table -/

/-- The parser stands between two entries: those in `done` are read and are the table, `n` are declared. -/
structure ReadSoFar (done : Table Count) (n : Nat) (s : State) : Prop where
  err : s.err = .noFault
  phase : s.phase = .freq
  freq : s.freq = done
  hcnt : s.hcnt.toNat = n
  hst : s.hst = .sym ∨ s.hst = .done
  wf : Memory.wf s
  freqInv : FreqInv s

/-- The header is complete when as many entries are read as are declared, and not before (R32, R195). -/
theorem ReadSoFar.hst_done_iff {done : Table Count} {n : Nat} (h : ReadSoFar done n s) : s.hst = .done ↔ done.length = n := by
  have hi : s.hst ≠ .idle := by rcases h.hst with hh | hh <;> simp [hh]
  rw [← (h.freqInv.header_progress hi).2, ← BitVec.toNat_inj, h.freqInv.unique_eq_length h.wf, h.freq, h.hcnt]

/-- Reading one more entry, of a symbol above those read so far. -/
theorem ReadSoFar.entry {done : Table Count} {n : Nat} {e : Nat × Count} (h : ReadSoFar done n s) (hn : done.length < n)
    (hsize : e.1 < 256) (hlast : ∀ d ∈ done, d.1 < e.1) (hf : e.2 ≠ 0#32) :
    ∃ t, execAll ((entryBytes e).map .hin) s = .next t ∧ ReadSoFar (done ++ [e]) n t := by
  have hh : s.hst = .sym := h.hst.resolve_right fun hd => Nat.ne_of_lt hn (h.hst_done_iff.1 hd)
  have hsym : (entrySymbol e).toNat = e.1 := Nat.mod_eq_of_lt hsize
  rw [← h.freq, ← hsym] at hlast
  have h0 : s.freqAt (entrySymbol e) = 0#32 := by
    rw [State.freqAt, Table.get?_eq_none_iff.2 fun d hd => Nat.ne_of_lt (hlast d hd)]
    rfl
  have hrun := execAll_entryBytes h.err h.phase hh h0 hf
  exact ⟨_, hrun,
    { err := h.err
      phase := h.phase
      freq := (freq_commitEntry_of_gt hf hlast).trans (by rw [h.freq, hsym])
      hcnt := h.hcnt
      hst := by rw [commitEntry_hst]; split <;> simp
      wf := Memory.wf_commitEntry (s := { s with hsym := entrySymbol e, hst := .f0 }) h.wf e.2
      freqInv := execAll_freqInv h.freqInv hrun }⟩

/-- Reading the rest of a table's entries. -/
theorem ReadSoFar.entries {done rest : Table Count} (hc : Table.Canonical (done ++ rest) Config.nsym fun c => c != freqUnlisted)
    (h : ReadSoFar done (done ++ rest).length s) :
    ∃ t, execAll ((rest.flatMap entryBytes).map .hin) s = .next t ∧ ReadSoFar (done ++ rest) (done ++ rest).length t := by
  induction rest generalizing done s with
  | nil => exact ⟨s, rfl, by simpa using h⟩
  | cons e rest ih =>
    have hsplit : done ++ e :: rest = done ++ [e] ++ rest := by simp
    obtain ⟨hsize, hlisted⟩ := hc.2 e (by simp)
    have hlast : ∀ d ∈ done, d.1 < e.1 := fun d hd => (List.pairwise_append.1 hc.1).2.2 d hd e List.mem_cons_self
    obtain ⟨u, hu, hread⟩ := h.entry (by simp) hsize hlast (bne_iff_ne.1 hlisted)
    rw [hsplit] at hc hread ⊢
    obtain ⟨t, ht, hdone⟩ := ih hc hread
    refine ⟨t, ?_, hdone⟩
    rw [List.flatMap_cons, List.map_append, execAll_append, hu, andThen_next, ht]

/-! ## The whole header -/

/-- The count byte of a table declares its number of entries (R108). -/
theorem FreqInv.declaredCount_countByte (h : FreqInv s) (hu : s.unique ≠ 0#9) : declaredCount (countByte s.unique) = s.unique := by
  have hpos := one_le_toNat_of_ne_zero hu
  have hle := presentSymbols_length_le s
  rw [h.unique_eq] at hle
  refine BitVec.eq_of_toNat_eq ?_
  rw [declaredCount_eq_ofNat, countByte_eq_ofNat hu, BitVec.toNat_ofNat, BitVec.toNat_ofNat]
  omega

/-- A cleared block, given the count byte of a table with an entry, waits for as many entries as the table lists (R194). -/
theorem readSoFar_countByte (hw : Memory.wf s) (hf : FreqInv s) (hu : s.unique ≠ 0#9) (t : State) :
    ∃ u, execHin (countByte s.unique) (clearBlock t) = .next u ∧ ReadSoFar [] s.freq.length u := by
  have hrun := execHin_opens (b := countByte s.unique) (s := clearBlock t) rfl rfl rfl rfl
  exact ⟨_, hrun,
    { err := rfl
      phase := rfl
      freq := rfl
      hcnt := (congrArg BitVec.toNat (hf.declaredCount_countByte hu)).trans (hf.unique_eq_length hw)
      hst := .inl rfl
      wf := Memory.wf_clearBlock t
      freqInv := (hinEffect_of_execHin hrun).freqInv (FreqInv.clearBlock t) }⟩

/-- A cleared block reads the header of a table and ends with that table (R199). -/
theorem execAll_clr_headerBytes (hw : Memory.wf s) (hf : FreqInv s) (hu : s.unique ≠ 0#9) (t : State) :
    ∃ u, execAll (.clr :: (headerBytes s).map .hin) t = .next u ∧ ReadSoFar s.freq s.freq.length u := by
  obtain ⟨v, hv, hopen⟩ := readSoFar_countByte hw hf hu t
  obtain ⟨u, hrun, hread⟩ := ReadSoFar.entries (done := []) hw.1 hopen
  refine ⟨u, ?_, hread⟩
  calc execAll (.clr :: (headerBytes s).map .hin) t
      = execAll ((headerBytes s).map .hin) (clearBlock t) := rfl
    _ = execAll ((s.freq.flatMap entryBytes).map .hin) v := by
        rw [hw.headerBytes_eq hu, List.map_cons, execAll_hin_cons hv]
    _ = .next u := hrun

/-- The invariants fix `UNIQUE` and `TOTAL` by the table (R51). -/
theorem FreqInv.registers_of_freq_eq (h : FreqInv s) (ht : FreqInv t) (hf : t.freq = s.freq) :
    t.unique = s.unique ∧ t.total = s.total := by
  constructor <;> refine BitVec.eq_of_toNat_eq ?_
  · rw [← ht.unique_eq, presentSymbols_congr hf, h.unique_eq]
  · rw [← ht.total_eq, countSum_congr hf, h.total_eq]

/-- Settles O27: all declared entries are read, and they are the entries of the table written. -/
theorem headerRoundTrip : Obligations.HeaderRoundTrip := by
  intro s t he hp hw hf hu hexec
  cases (exec_hout he hp).symm.trans hexec
  obtain ⟨u, hrun, hread⟩ := execAll_clr_headerBytes hw hf hu (s.emit (headerBytes s))
  obtain ⟨hunique, htotal⟩ := hf.registers_of_freq_eq hread.freqInv hread.freq
  exact ⟨headerBytes s, u, rfl, hrun, hread.err, hread.hst_done_iff.2 rfl, hread.freq, hunique, htotal⟩

end Sys2Proof.Machine
end

section
/-! PROOF. The Bit Packer on one state: each bit goes after the packed ones (R211), `PUT` appends a code (R212, R213), `FLUSH` pads the
pending bits with zeros (R214). -/

namespace Sys2Proof.Machine

variable {s : State}

/-! ## The accumulator as a list of bits (R33, R73) -/

theorem bitsMsbFirst_eq_ofFn (b : Byte) : bitsMsbFirst b = List.ofFn fun k : Fin 8 => b.getLsbD (7 - k) := rfl

/-- A bit written at position `k` from the top stands between the bits above it and the bits below it (R211). -/
theorem bitsMsbFirst_setBit (b : Byte) {k : Nat} (hk : k < 8) (c : Bool) :
    bitsMsbFirst (setBit b (7 - k) c) = (bitsMsbFirst b).take k ++ c :: (bitsMsbFirst b).drop (k + 1) := by
  calc bitsMsbFirst (setBit b (7 - k) c)
      = (bitsMsbFirst b).set k c := by
        refine List.ext_getElem (by simp) fun j hj _ => ?_
        have hj8 : j < 8 := hj
        have hiff : 7 - j = 7 - k ↔ k = j := by omega
        simp only [bitsMsbFirst_eq_ofFn, List.getElem_set, List.getElem_ofFn, getLsbD_setBit b (show 7 - k < 8 by omega), hiff]
    _ = _ := by rw [List.set_eq_take_append_cons_drop, if_pos (by simpa using hk)]

theorem toNat_nbits_lt_seven (h : s.nbits ≠ 7#3) : s.nbits.toNat < 7 := by
  have hne : s.nbits.toNat ≠ 7 := fun e => h (BitVec.eq_of_toNat_eq e)
  omega

theorem toNat_nbits_add_one (h : s.nbits ≠ 7#3) : (s.nbits + 1#3).toNat = s.nbits.toNat + 1 := by
  have := toNat_nbits_lt_seven h
  rw [BitVec.toNat_add, BitVec.toNat_ofNat]
  omega

/-- With clear low-order bits the byte is the pending bits padded with zeros (R33, R74). -/
theorem bitsMsbFirst_acc (h : AccLowClear s) :
    bitsMsbFirst s.acc = (bitsMsbFirst s.acc).take s.nbits.toNat ++ List.replicate (8 - s.nbits.toNat) false := by
  rw [← h, List.take_append_drop]

/-- Settles O38, by the place of the written bit in the byte. -/
theorem appendBitFillsFromTheTop : Obligations.AppendBitFillsFromTheTop := by
  intro s c
  refine ⟨fun h => accLowClear_appendBit h c, appendBit_frame s c, fun hn => ?_, fun hn => ?_⟩
  · have hlt := toNat_nbits_lt_seven hn
    have hlen : ((bitsMsbFirst s.acc).take s.nbits.toNat ++ [c]).length = s.nbits.toNat + 1 := by
      rw [List.length_append, List.length_take_of_le (by rw [bitsMsbFirst_length]; omega), List.length_singleton]
    rw [appendBit_room c hn, bitsMsbFirst_setBit _ (by omega), List.append_cons]
    exact ⟨toNat_nbits_add_one hn, rfl, List.take_left' hlen, List.drop_left' hlen⟩
  · rw [appendBit_full c hn]
    exact ⟨rfl, rfl, _, rfl, bitsMsbFirst_setBit s.acc (k := 7) (by decide) c⟩

/-! ## Appending to the packed bits (R216) -/

theorem packedBits_appendBit (s : State) (c : Bool) : packedBits (appendBit s c) = packedBits s ++ [c] := by
  obtain ⟨-, -, hroom, hfull⟩ := appendBitFillsFromTheTop s c
  by_cases hn : s.nbits = 7#3
  · obtain ⟨hnbits, -, b, hout, hb⟩ := hfull hn
    simp [packedBits, hnbits, hout, hb, hn]
  · obtain ⟨hnbits, hout, htake, -⟩ := hroom hn
    rw [packedBits, hnbits, hout, htake, packedBits, List.append_assoc]

/-- Packing a code appends exactly its bits (R212). -/
theorem packedBits_appendBits (bits : List Bool) (s : State) : packedBits (appendBits bits s) = packedBits s ++ bits := by
  induction bits generalizing s with
  | nil => simp
  | cons c rest ih => rw [appendBits_cons, ih, packedBits_appendBit, List.append_assoc, List.singleton_append]

theorem length_packedBits (s : State) : (packedBits s).length = 8 * s.out.length + s.nbits.toNat := by
  have hpending : s.nbits.toNat ≤ 8 := by omega
  simp [packedBits, List.length_flatMap, hpending, Nat.mul_comm]

/-- Packing a code changes the accumulator and adds bytes to `OUT`. -/
theorem exists_appendBits_eq (bits : List Bool) (s : State) :
    ∃ a n appended, appendBits bits s = { s with acc := a, nbits := n, out := s.out ++ appended } := by
  obtain ⟨appended, hout, -⟩ := (outBlind_appendBits bits).apply (s := s) rfl
  exact ⟨_, _, appended, hout ▸ appendBits_frame bits s⟩

theorem out_prefix_appendBits (bits : List Bool) (s : State) : s.out <+: (appendBits bits s).out := by
  obtain ⟨_, _, appended, h⟩ := exists_appendBits_eq bits s
  rw [h]
  exact List.prefix_append ..

/-! ## `PUT` (R212, R213) -/

/-- `PUT` of a present symbol packs its code. -/
theorem execPut_present {sym : Symbol} {c : Code} (he : s.err = .noFault) (hp : s.phase = .coded) (hf : s.freqAt sym ≠ 0#32)
    (hu : 2#9 ≤ s.unique) (hc : s.code? sym = some c) : execPut sym s = .next (appendBits c.bits s) :=
  execPut_eq_next_iff.2 (.inl ⟨he, .inl ⟨hp, .inl ⟨hf, .inl ⟨hu, c, hc, rfl⟩⟩⟩⟩)

/-- Settles O39: the bound of 32 bytes counts the packed bits, of which at most 7 were pending before. -/
theorem putAppendsCode : Obligations.PutAppendsCode := by
  intro sym s c he hp hf hu hc hlow
  refine ⟨_, execPut_present he hp hf hu hc, packedBits_appendBits _ s, out_prefix_appendBits _ s, accLowClear_appendBits _ hlow,
    fun hlen => ?_, appendBits_frame _ s⟩
  have hgrow := congrArg List.length (packedBits_appendBits c.bits s)
  rw [List.length_append, length_packedBits, length_packedBits] at hgrow
  omega

/-! ## `FLUSH` (R214) -/

theorem execFlush_idle (he : s.err = .noFault) (hp : s.phase = .coded) (hn : s.nbits = 0#3) : execFlush s = .next s :=
  execFlush_eq_next_iff.2 (.inl ⟨he, .inl ⟨hp, .inl ⟨hn, rfl⟩⟩⟩)

theorem execFlush_pending (he : s.err = .noFault) (hp : s.phase = .coded) (hn : s.nbits ≠ 0#3) : execFlush s = .next (emitAcc s) :=
  execFlush_eq_next_iff.2 (.inl ⟨he, .inl ⟨hp, .inr ⟨hn, rfl⟩⟩⟩)

/-- Settles O42: the byte emitted is the accumulator, and after it nothing is pending. -/
theorem flushPadsWithZeros : Obligations.FlushPadsWithZeros := fun s he hp hlow =>
  ⟨execFlush_idle he hp, fun hn =>
    ⟨emitAcc s, s.acc, execFlush_pending he hp hn, rfl, bitsMsbFirst_acc hlow, rfl, rfl, rfl, execFlush_idle he hp rfl⟩⟩

/-- Settles O41: with one present symbol `PUT` reads no code, and `FLUSH` finds nothing pending. -/
theorem singleSymbolHasNoBody : Obligations.SingleSymbolHasNoBody := by
  intro sym s he hp hu
  have hone : ¬2#9 ≤ s.unique := by rw [hu]; decide
  exact ⟨fun hf => execPut_eq_next_iff.2 (.inl ⟨he, .inl ⟨hp, .inl ⟨hf, .inr ⟨hone, rfl⟩⟩⟩⟩),
    execPut_of_absent he hp, execFlush_idle he hp⟩

end Sys2Proof.Machine
end

section
/-! PROOF. The body of an artifact: a run of `PUT`s packs the concatenated codes, `FLUSH` pads them to whole bytes (R216). -/

namespace Sys2Proof.Machine

variable {s : State}

/-! ## A run of `PUT`s -/

/-- The bits of the symbols' codes, in order. -/
def codeBits (s : State) (xs : List Symbol) : List Bool := xs.flatMap fun x => ((s.code? x).map Code.bits).getD []

theorem codeBits_cons {x : Symbol} {c : Code} (hc : s.code? x = some c) (xs : List Symbol) :
    codeBits s (x :: xs) = c.bits ++ codeBits s xs := by
  simp [codeBits, hc]

theorem appendBits_append (a b : List Bool) (s : State) : appendBits (a ++ b) s = appendBits b (appendBits a s) :=
  List.foldl_append

/-- `PUT`s of present symbols pack the concatenation of their codes: each finds its code in the table, which packing leaves alone. -/
theorem execAll_put (h : Inv s) (he : s.err = .noFault) (hp : s.phase = .coded) (hu : 2#9 ≤ s.unique) {xs : List Symbol}
    (hxs : ∀ x ∈ xs, s.freqAt x ≠ 0#32) : execAll (xs.map .put) s = .next (appendBits (codeBits s xs) s) := by
  induction xs generalizing s with
  | nil => rfl
  | cons x xs ih =>
    obtain ⟨hx, hrest⟩ := List.forall_mem_cons.1 hxs
    obtain ⟨c, hc⟩ := Option.isSome_iff_exists.1 ((h.codeInv.present hp hu x).2 hx)
    have hput : exec (.put x) s = .next (appendBits c.bits s) := execPut_present he hp hx hu hc
    have hinv := h.appendBits hp c.bits
    obtain ⟨a, n, appended, hpacked⟩ := exists_appendBits_eq c.bits s
    rw [List.map_cons, execAll_cons, hput, andThen_next, codeBits_cons hc, appendBits_append]
    rw [hpacked] at hinv ⊢
    exact ih hinv he hp hu hrest

/-! ## The padding -/

theorem acc_eq_zero (h : AccLowClear s) (hn : s.nbits = 0#3) : s.acc = 0#8 := by
  refine BitVec.eq_of_getLsbD_eq fun j hj => ?_
  rw [accLowClear_iff.1 h j (by simpa [hn] using hj), BitVec.getLsbD_zero]

/-- `FLUSH` completes with an empty accumulator, and `OUT` then holds the packed bits and fewer than eight zeros (R214, R216). -/
theorem execFlush_pads (h : AccLowClear s) (he : s.err = .noFault) (hp : s.phase = .coded) :
    ∃ pad, execFlush s = .next { s with acc := 0#8, nbits := 0#3, out := s.out ++ pad } ∧
      (s.out ++ pad).flatMap bitsMsbFirst = packedBits s ++ List.replicate ((8 - s.nbits.toNat) % 8) false := by
  by_cases hn : s.nbits = 0#3
  · refine ⟨[], ?_, by simp [packedBits, hn]⟩
    rw [execFlush_idle he hp hn, List.append_nil, ← acc_eq_zero h hn, ← hn]
  · have hpos : s.nbits.toNat ≠ 0 := fun e => hn (BitVec.eq_of_toNat_eq e)
    refine ⟨[s.acc], execFlush_pending he hp hn, ?_⟩
    rw [Nat.mod_eq_of_lt (by omega), packedBits, List.append_assoc, ← bitsMsbFirst_acc h,
      List.flatMap_append, List.flatMap_singleton]

/-- Settles O43: the `PUT`s append the codes to the packed bits, and `FLUSH` appends the zeros that fill the last byte. -/
theorem bodyIsCodesThenPadding : Obligations.BodyIsCodesThenPadding := by
  intro xs s h he hp hu hacc hn hxs
  have hlow := accLowClear_appendBits (codeBits s xs) h.workInv.acc_low
  have hbits := packedBits_appendBits (codeBits s xs) s
  have hputs := execAll_put h he hp hu hxs
  obtain ⟨a, n, appended, hpacked⟩ := exists_appendBits_eq (codeBits s xs) s
  rw [hpacked] at hlow hbits hputs
  obtain ⟨pad, hflush, hpadded⟩ := execFlush_pads hlow he hp
  have hempty : packedBits s = s.out.flatMap bitsMsbFirst := by simp [packedBits, hn]
  have hmod : n.toNat = (codeBits s xs).length % 8 := by
    have hlen : 8 * (s.out.length + appended.length) + n.toNat = 8 * s.out.length + (codeBits s xs).length := by
      simpa [length_packedBits, hn] using congrArg List.length hbits
    omega
  refine ⟨{ s with out := s.out ++ (appended ++ pad) }, appended ++ pad, codeBits s xs, ?_, he, rfl, rfl, ?_, rfl⟩
  · rw [execAll_append, hputs, andThen_next, execAll_cons, show exec .flush _ = _ from hflush, andThen_next, execAll_nil,
      List.append_assoc, ← hacc, ← hn]
  · refine List.append_cancel_left (as := s.out.flatMap bitsMsbFirst) ?_
    rw [← List.flatMap_append, ← List.append_assoc, hpadded, hbits, hempty, hmod, List.append_assoc]

end Sys2Proof.Machine
end

section
/-! PROOF. The Bit Unpacker on one state: `GET` walks the tree by the byte's bits (R226, R227), takes CORRUPT at a leaf alone (R228), and
`DREP` repeats the single symbol (R229). -/

namespace Sys2Proof.Machine

variable {s t : State}

/-! ## `GET` past its checks -/

/-- In phases TREE and CODED `GET` is the loop over the bits of its byte. -/
theorem execGet_eq_takeBits (b : Byte) (he : s.err = .noFault) (hp : s.phase = .tree ∨ s.phase = .coded) :
    execGet b s = takeBits (bitsMsbFirst b) s := by
  rw [execGet, unlessFaulted_live he, require_pos hp]

/-- Settles O44: with every symbol decoded the loop examines no bit. -/
theorem getAfterDoneIsIgnored : Obligations.GetAfterDoneIsIgnored := by
  intro b s he hdone
  obtain ⟨hp, hd⟩ := flagDone_iff.1 hdone
  exact (execGet_eq_takeBits b he hp).trans (takeBits_done hd)

/-! ## The walk -/

theorem leafReached_append {i j : NodeIdx} {p : List Bool} (h : descend s i p = some j) (q : List Bool) :
    leafReached s i (p ++ q) = leafReached s j q := by
  simp only [leafReached, descend_append, h, Option.bind_some]

/-- What the loop of `GET` does from a pointer at the end of `p`: it examines the first `k` of the bits, and with `p` before them these
split into the root paths of the symbols emitted and the directions `q` to the new pointer (R226, R227). The pointer rests at the root
when the last symbol is emitted. -/
structure Walks (s : State) (p bits : List Bool) (t : State) (k : Nat) (syms : List Symbol) (paths : List (List Bool))
    (q : List Bool) : Prop where
  run : takeBits bits s = .next t
  examined : k ≤ bits.length
  out : t.out = s.out ++ syms
  reached : List.Forall₂ (fun path sym => leafReached s s.root path = some sym) paths syms
  split : p ++ bits.take k = paths.flatten ++ q
  pointer : descend s s.root q = some t.cur
  decoded : t.decoded.toNat = s.decoded.toNat + syms.length
  stops : k = bits.length ∨ t.decoded = t.total
  rests : t.decoded = t.total → (s.decoded = s.total → s.cur = s.root) → t.cur = s.root
  frame : t = { s with out := t.out, decoded := t.decoded, cur := t.cur }

/-- Without bits, or with every symbol decoded, nothing is examined. -/
theorem Walks.stay {p bits : List Bool} (hpath : descend s s.root p = some s.cur) (h : bits = [] ∨ s.decoded = s.total) :
    Walks s p bits s 0 [] [] p where
  run := h.elim (fun hnil => by rw [hnil]; rfl) takeBits_done
  examined := Nat.zero_le _
  out := (List.append_nil _).symm
  reached := .nil
  split := List.append_nil _
  pointer := hpath
  decoded := rfl
  stops := h.imp_left fun hnil => by rw [hnil]; rfl
  rests hd hc := hc hd
  frame := rfl

/-- A bit that leads to an internal node moves the pointer there. -/
theorem Walks.move {p rest : List Bool} {c : Bool} {child : NodeIdx} {k : Nat} {syms : List Symbol} {paths : List (List Bool)}
    {q : List Bool} (hrun : takeBits (c :: rest) s = takeBits rest { s with cur := child }) (hd : s.decoded ≠ s.total)
    (h : Walks { s with cur := child } (p ++ [c]) rest t k syms paths q) : Walks s p (c :: rest) t (k + 1) syms paths q where
  run := hrun.trans h.run
  examined := Nat.succ_le_succ h.examined
  out := h.out
  reached := h.reached.imp fun path sym hr => (leafReached_congr (by rfl) _ path).symm.trans hr
  split := by rw [List.take_succ_cons, List.append_cons]; exact h.split
  pointer := (descend_congr (by rfl) _ q).symm.trans h.pointer
  decoded := h.decoded
  stops := h.stops.imp_left (congrArg (· + 1))
  rests ht _ := h.rests ht fun hd' => absurd hd' hd
  frame := h.frame

/-- A bit that leads to a leaf emits its symbol and puts the pointer at the root. -/
theorem Walks.emit {p rest : List Bool} {c : Bool} {x : Symbol} {k : Nat} {syms : List Symbol} {paths : List (List Bool)}
    {q : List Bool}
    (hrun : takeBits (c :: rest) s = takeBits rest { s with out := s.out ++ [x], decoded := s.decoded + 1#40, cur := s.root })
    (hx : leafReached s s.root (p ++ [c]) = some x) (hd : (s.decoded + 1#40).toNat = s.decoded.toNat + 1)
    (h : Walks { s with out := s.out ++ [x], decoded := s.decoded + 1#40, cur := s.root } [] rest t k syms paths q) :
    Walks s p (c :: rest) t (k + 1) (x :: syms) ((p ++ [c]) :: paths) q where
  run := hrun.trans h.run
  examined := Nat.succ_le_succ h.examined
  out := by rw [List.append_cons]; exact h.out
  reached := .cons hx (h.reached.imp fun path sym hr => (leafReached_congr (by rfl) _ path).symm.trans hr)
  split := by
    have hsplit : rest.take k = paths.flatten ++ q := h.split
    simp [hsplit]
  pointer := (descend_congr (by rfl) _ q).symm.trans h.pointer
  decoded := by
    have hdecoded : t.decoded.toNat = (s.decoded + 1#40).toNat + syms.length := h.decoded
    rw [hdecoded, hd, List.length_cons]
    omega
  stops := h.stops.imp_left (congrArg (· + 1))
  rests ht _ := h.rests ht fun _ => rfl
  frame := h.frame

theorem WorkInv.decoded_lt (h : WorkInv s) (hd : s.decoded ≠ s.total) : s.decoded < s.total :=
  Nat.lt_of_le_of_ne h.decoded_le fun e => hd (BitVec.eq_of_toNat_eq e)

/-- While symbols remain, one more fits under `TOTAL` and so in `DECODED`. -/
theorem toNat_decoded_add_one (h : s.decoded < s.total) : (s.decoded + 1#40).toNat = s.decoded.toNat + 1 := by
  have hlt : s.decoded.toNat < s.total.toNat := h
  rw [BitVec.toNat_add, BitVec.toNat_ofNat]
  omega

/-- With two or more present symbols the loop of `GET` walks the tree: by induction on the bits, each a move to a node or to a leaf. -/
theorem Inv.walks (h : Inv s) (hp : s.phase = .tree ∨ s.phase = .coded) (hu : 2#9 ≤ s.unique) (bits : List Bool) {p : List Bool}
    (hpath : descend s s.root p = some s.cur) : ∃ t k syms paths q, Walks s p bits t k syms paths q := by
  induction bits generalizing s p with
  | nil => exact ⟨_, _, _, _, _, .stay hpath (.inl rfl)⟩
  | cons c rest ih =>
    by_cases hd : s.decoded = s.total
    · exact ⟨_, _, _, _, _, .stay hpath (.inr hd)⟩
    obtain ⟨-, hv⟩ := h.rooted hp (h.total_ne_zero hd)
    obtain ⟨w, l, r, hn⟩ := h.workInv.cur_internal hv hu
    obtain ⟨u, hmove, hui, -⟩ := h.moveTo hp hd hn c
    have hrun : Machine.takeBits (c :: rest) s = Machine.takeBits rest u := by rw [takeBits_internal hd hn, hmove, andThen_next]
    rcases moveTo_eq_next_iff.1 hmove with ⟨x, w', hchild, rfl⟩ | ⟨w', l', r', hchild, rfl⟩
    · have hx : leafReached s s.root (p ++ [c]) = some x := by
        rw [leafReached_append hpath, leafReached_cons hn, leafReached_nil_of_leaf hchild]
      obtain ⟨t, k, syms, paths, q, hw⟩ := ih hui hp hu (p := []) rfl
      exact ⟨t, k + 1, x :: syms, (p ++ [c]) :: paths, q, hw.emit hrun hx (toNat_decoded_add_one (h.workInv.decoded_lt hd))⟩
    · have hnext : descend s s.root (p ++ [c]) = some (if c then r else l) := by
        rw [descend_append, hpath, Option.bind_some, descend_internal hn, descend_nil]
      obtain ⟨t, k, syms, paths, q, hw⟩ := ih hui hp hu (p := p ++ [c]) ((descend_congr (by rfl) _ _).trans hnext)
      exact ⟨t, k + 1, syms, paths, q, hw.move hrun hd⟩

/-- Settles O45: the walk over the eight bits of the byte. -/
theorem getWalksTree : Obligations.GetWalksTree := by
  intro b s p h he hp hu hpath
  obtain ⟨t, k, syms, paths, q, hw⟩ := h.walks hp hu (bitsMsbFirst b) hpath
  exact ⟨t, k, syms, paths, q, (execGet_eq_takeBits b he hp).trans hw.run, hw.examined, hw.out, hw.reached, hw.split, hw.pointer,
    hw.decoded, hw.stops, fun ht hd => hw.rests ht fun hd' => absurd hd' hd, hw.frame⟩

/-! ## CORRUPT -/

/-- A `GET` whose first bit is taken at a leaf is CORRUPT (R228). -/
theorem execGet_at_leaf (b : Byte) {sym : Symbol} {w : Weight} (he : s.err = .noFault) (hp : s.phase = .tree ∨ s.phase = .coded)
    (hd : s.decoded ≠ s.total) (hn : s.node? s.cur = some (.leaf sym w)) : execGet b s = .next { s with err := .corrupt } := by
  rw [execGet_eq_takeBits b he hp, bitsMsbFirst, takeBits_leaf hd hn]

/-- In the single-symbol case the pointer is at the root, which is a leaf (R54). -/
theorem Inv.cur_leaf (h : Inv s) (hp : s.phase = .tree ∨ s.phase = .coded) (hu : s.unique = 1#9) :
    ∃ sym w, s.node? s.cur = some (.leaf sym w) := by
  obtain ⟨hpl, hv⟩ := h.treeInv.complete_root hp (by rw [hu]; decide)
  have hf := h.treeInv.forest (by rcases hp with hp | hp <;> simp [hp])
  obtain ⟨sym, w, hroot⟩ := hf.root_leaf hpl hu
  obtain ⟨-, p, hpath⟩ := h.workInv.cur_inside hv
  cases p with
  | nil => exact ⟨sym, w, Option.some.inj hpath ▸ hroot⟩
  | cons c p => simp [descend_leaf hroot] at hpath

/-- A table with an occurrence and not one present symbol has two or more. -/
theorem FreqInv.two_le_unique (h : FreqInv s) (ht : s.total ≠ 0#40) (hu : s.unique ≠ 1#9) : 2#9 ≤ s.unique := by
  have h0 : s.unique.toNat ≠ 0 := fun e => ht (BitVec.eq_of_toNat_eq (h.unique_eq_zero_iff.1 e))
  have h1 : s.unique.toNat ≠ 1 := fun e => hu (BitVec.eq_of_toNat_eq e)
  have h2 : 2 ≤ s.unique.toNat := by omega
  exact h2

/-- Under the invariants `GET` raises CORRUPT exactly in the single-symbol case with symbols to decode (R228). -/
theorem Inv.execGet_corrupt_iff {b : Byte} (h : Inv s) (he : s.err = .noFault) (hp : s.phase = .tree ∨ s.phase = .coded)
    (hexec : execGet b s = .next t) : t.err = .corrupt ↔ s.unique = 1#9 ∧ s.decoded < s.total := by
  have hlive : s.err ≠ .corrupt := by simp [he]
  by_cases hd : s.decoded = s.total
  · cases hexec.symm.trans ((execGet_eq_takeBits b he hp).trans (takeBits_done hd))
    exact iff_of_false hlive fun hs => BitVec.lt_irrefl _ (hd ▸ hs.2)
  by_cases hu : s.unique = 1#9
  · obtain ⟨sym, w, hn⟩ := h.cur_leaf hp hu
    cases hexec.symm.trans (execGet_at_leaf b he hp hd hn)
    exact iff_of_true rfl ⟨hu, h.workInv.decoded_lt hd⟩
  · have ht := h.total_ne_zero hd
    obtain ⟨-, hv⟩ := h.rooted hp ht
    obtain ⟨-, p, hpath⟩ := h.workInv.cur_inside hv
    obtain ⟨u, k, syms, paths, q, hw⟩ := h.walks hp (h.freqInv.two_le_unique ht hu) (bitsMsbFirst b) hpath
    cases hexec.symm.trans ((execGet_eq_takeBits b he hp).trans hw.run)
    rw [hw.frame]
    exact iff_of_false hlive fun hs => hu hs.1

/-- Settles O46: with two or more symbols the walk meets no leaf before a bit, and the loop raises no other fault. -/
theorem getAtLeafIsCorrupt : Obligations.GetAtLeafIsCorrupt := by
  refine ⟨fun b s sym w => execGet_at_leaf b, fun b s t h he hp hexec => ⟨h.execGet_corrupt_iff he hp hexec, fun hc => ?_⟩⟩
  have hrun : takeBits (bitsMsbFirst b) s = .next t := (execGet_eq_takeBits b he hp).symm.trans hexec
  rw [(takeBits_err hrun).resolve_right hc, he]

/-! ## `DREP` -/

/-- In the single-symbol case `DREP` emits the symbols that remain (R229). -/
theorem execDrep_single {sym : Symbol} {w : Weight} (he : s.err = .noFault) (hp : s.phase = .tree ∨ s.phase = .coded)
    (hu : s.unique = 1#9) (hn : s.node? s.root = some (.leaf sym w)) :
    execDrep s =
      .next { s with out := s.out ++ List.replicate (s.total.toNat - s.decoded.toNat) sym, decoded := s.total } :=
  execDrep_eq_next_iff.2 (.inl ⟨he, .inl ⟨hp, .inl ⟨by rw [hu]; decide, .inl ⟨hu, repeatRoot_eq_next_iff.2 ⟨sym, w, hn, rfl⟩⟩⟩⟩⟩)

/-- With every symbol decoded it emits none. -/
theorem execDrep_single_done {sym : Symbol} {w : Weight} (he : s.err = .noFault) (hp : s.phase = .tree ∨ s.phase = .coded)
    (hu : s.unique = 1#9) (hn : s.node? s.root = some (.leaf sym w)) (hd : s.decoded = s.total) : execDrep s = .next s := by
  calc execDrep s
      = .next { s with decoded := s.total } := by
        rw [execDrep_single he hp hu hn, hd, Nat.sub_self, List.replicate_zero, List.append_nil]
    _ = .next s := congrArg (fun d => Host.Outcome.next { s with decoded := d }) hd.symm

/-- In the empty case `DREP` changes nothing (R229). -/
theorem execDrep_empty (he : s.err = .noFault) (hp : s.phase = .tree ∨ s.phase = .coded) (hu : s.unique = 0#9) :
    execDrep s = .next s :=
  execDrep_eq_next_iff.2 (.inl ⟨he, .inl ⟨hp, .inl ⟨by rw [hu]; decide, .inr ⟨by rw [hu]; decide, rfl⟩⟩⟩⟩)

/-- Settles O47: after a `DREP` nothing remains, so a second one emits nothing. -/
theorem drepRepeatsSingleSymbol : Obligations.DrepRepeatsSingleSymbol := by
  intro s he hp
  refine ⟨fun sym w hu hn => ⟨_, execDrep_single he hp hu hn, rfl, rfl, flagDone_iff.2 ⟨hp, rfl⟩, rfl, ?_⟩, execDrep_empty he hp,
    fun hu => exec_eq_seq_of_not_legal he ?_⟩
  · exact execDrep_single_done he hp hu hn rfl
  · have hmany : ¬s.unique ≤ 1#9 := fun hle => absurd (BitVec.le_trans hu hle) (by decide)
    simp [legal, hmany]

end Sys2Proof.Machine
end

section
/-! PROOF. `ENCODE` (R115) on one byte sequence: the occurrences are recorded (R131), the tree is the one `BUILD` makes from their counts
(R169), and `OUT` is the header and the packed codes (R191, R216). -/

namespace Sys2Proof.Machine

variable {s t : State} {bytes : List Byte}

/-! ## Recording the bytes -/

/-- What follows `CLR` runs on the cleared block (R242). -/
theorem execAll_clr_cons (l : List Instr) (s : State) : execAll (Instr.clr :: l) s = execAll l (clearBlock s) := rfl

/-- The open block in which exactly the bytes of `bytes` are recorded. -/
structure Recorded (bytes : List Byte) (s : State) : Prop where
  inv : Inv s
  err : s.err = .noFault
  phase : s.phase = .freq
  hst : s.hst = .idle
  out : s.out = []
  count : ∀ x, (s.freqAt x).toNat = bytes.count x
  total : s.total.toNat = bytes.length

theorem recorded_clearBlock (s : State) : Recorded [] (clearBlock s) := ⟨inv_clearBlock s, rfl, rfl, rfl, rfl, fun _ => rfl, rfl⟩

/-- One byte more, of which fewer than `2^32 - 1` are recorded (R131, R132). -/
theorem Recorded.snoc {done : List Byte} (h : Recorded done s) {b : Byte} (hb : (done ++ [b]).count b < 2 ^ 32) :
    ∃ t, exec (.recSym b) s = .next t ∧ Recorded (done ++ [b]) t := by
  have hmax : s.freqAt b ≠ Config.freqMax := fun e => by
    have hcount := h.count b
    rw [e, BitVec.toNat_ofNat] at hcount
    rw [List.count_append, List.count_singleton_self] at hb
    omega
  refine ⟨_, execRec_counts h.err h.phase h.hst hmax,
    { inv := h.inv.countSymbol h.phase h.hst hmax
      err := h.err
      phase := h.phase
      hst := h.hst
      out := h.out
      count := fun x => ?_
      total := ?_ }⟩
  · by_cases hx : x = b
    · subst hx
      rw [freqAt_countSymbol_self hmax, toNat_add_one_of_ne_freqMax hmax, h.count, List.count_append, List.count_singleton_self]
    · rw [freqAt_countSymbol_ne hx, h.count, List.count_append, List.count_singleton, if_neg (by simpa using Ne.symm hx), Nat.add_zero]
  · rw [h.inv.freqInv.toNat_total_countSymbol h.phase h.hst hmax, h.total, List.length_append, List.length_singleton]

/-- Recording the rest of a byte sequence. -/
theorem Recorded.append {done rest : List Byte} (h : Recorded done s) (hcount : ∀ b, (done ++ rest).count b < 2 ^ 32) :
    ∃ t, execAll (rest.map Instr.recSym) s = .next t ∧ Recorded (done ++ rest) t := by
  induction rest generalizing done s with
  | nil => exact ⟨s, rfl, by simpa using h⟩
  | cons b rest ih =>
    rw [List.append_cons] at hcount ⊢
    have hb : (done ++ [b]).count b < 2 ^ 32 := (List.sublist_append_left _ rest).count_le b |>.trans_lt (hcount b)
    obtain ⟨u, hu, hrec⟩ := h.snoc hb
    obtain ⟨t, ht, hdone⟩ := ih hrec hcount
    exact ⟨t, by rw [List.map_cons, execAll_cons, hu, andThen_next, ht], hdone⟩

/-! ## Building the tree and assigning the codes -/

/-- The tree in `g` is the one that every `BUILD` from an open block with the counts of `g` makes. -/
def TreeOfCounts (g : State) : Prop :=
  ∀ s t, Inv s → s.phase = .freq → s.err = .noFault → (∀ x, s.freqAt x = g.freqAt x) → exec .build s = .next t → t.err = .noFault →
    t.nodes = g.nodes ∧ t.root = g.root

/-- `BUILD` makes the tree of the counts (R169). -/
theorem treeOfCounts_of_execBuild (h : Inv s) (hp : s.phase = .freq) (he : s.err = .noFault) (hb : execBuild s = .next t)
    (hframe : BuilderFrame s t) : TreeOfCounts t := by
  intro s' t' h' hp' he' hf hb' ht'
  have hft : ∀ x, t.freqAt x = s.freqAt x := by
    obtain ⟨_, _, _, _, _, _, _, rfl⟩ := hframe
    exact fun _ => rfl
  obtain ⟨hnodes, -, hroot, -⟩ := treeDependsOnTableAlone s' s t' t h' h hp' hp (fun x => (hf x).trans (hft x)) hb' hb he' he ht'
    (hframe.err_eq.trans he)
  exact ⟨hnodes, hroot⟩

/-- `GEN` after `BUILD` completes, writes `CODE` and `PHASE` alone and keeps the invariants, however many symbols are present. -/
theorem exec_gen_tree (h : Inv s) (he : s.err = .noFault) (hp : s.phase = .tree) :
    ∃ codes, exec .gen s = .next { s with codes := codes, phase := .coded } ∧ Inv { s with codes := codes, phase := .coded } := by
  by_cases hu : 2#9 ≤ s.unique
  · exact h.exec_gen he hp hu
  · exact ⟨s.codes, execGen_eq_next_iff.2 (.inl ⟨he, .inl ⟨hp, .inr ⟨hu, rfl⟩⟩⟩), h.gen_few hp hu⟩

/-- The block of an encoder ready to emit: the codes are assigned in the tree of the counts of `bytes`, and nothing is emitted yet. -/
structure ReadyToEmit (bytes : List Byte) (s : State) : Prop where
  inv : Inv s
  err : s.err = .noFault
  phase : s.phase = .coded
  acc : s.acc = 0#8
  nbits : s.nbits = 0#3
  out : s.out = []
  count : ∀ x, (s.freqAt x).toNat = bytes.count x
  total : s.total.toNat = bytes.length
  tree : TreeOfCounts s

theorem Recorded.build_gen (h : Recorded bytes s) : ∃ t, execAll [Instr.build, .gen] s = .next t ∧ ReadyToEmit bytes t := by
  obtain ⟨u, hbuild, hui, hframe, hup, -⟩ := h.inv.execBuild h.err (.inl ⟨h.phase, .inl h.hst⟩)
  have htree := treeOfCounts_of_execBuild h.inv h.phase h.err hbuild hframe
  obtain ⟨hacc, hnbits⟩ := hui.workInv.acc_idle (by simp [hup])
  obtain ⟨_, _, _, _, _, _, _, rfl⟩ := hframe
  obtain ⟨codes, hgen, hti⟩ := exec_gen_tree hui h.err hup
  refine ⟨_, andThen_eq_next_iff.2 ⟨_, hbuild, andThen_eq_next_iff.2 ⟨_, hgen, rfl⟩⟩, ?_⟩
  exact { inv := hti, err := h.err, phase := rfl, acc := hacc, nbits := hnbits, out := h.out, count := h.count, total := h.total
          tree := htree }

/-! ## Emitting the artifact -/

/-- The symbols of the bytes are present. -/
theorem ReadyToEmit.present (h : ReadyToEmit bytes s) {x : Symbol} (hx : x ∈ bytes) : s.freqAt x ≠ 0#32 := fun e => by
  have hcount := h.count x
  rw [e] at hcount
  exact Nat.ne_of_lt (List.count_pos_iff.2 hx) hcount

/-- With fewer than two present symbols a run of `PUT`s of present ones changes nothing (R213). -/
theorem execAll_put_few (he : s.err = .noFault) (hp : s.phase = .coded) (hu : ¬2#9 ≤ s.unique) {xs : List Symbol}
    (hxs : ∀ x ∈ xs, s.freqAt x ≠ 0#32) : execAll (xs.map Instr.put) s = .next s := by
  induction xs with
  | nil => rfl
  | cons x xs ih =>
    obtain ⟨hx, hrest⟩ := List.forall_mem_cons.1 hxs
    have hput : exec (.put x) s = .next s := execPut_eq_next_iff.2 (.inl ⟨he, .inl ⟨hp, .inl ⟨hx, .inr ⟨hu, rfl⟩⟩⟩⟩)
    rw [List.map_cons, execAll_cons, hput, andThen_next, ih hrest]

/-- The body of an artifact: nothing with fewer than two present symbols, else the bytes' codes and the padding after them. -/
structure IsBody (s : State) (bytes body : List Byte) : Prop where
  few : ¬2#9 ≤ s.unique → body = []
  codes : 2#9 ≤ s.unique → ∃ pad, body.flatMap bitsMsbFirst = codeBits s bytes ++ pad

/-- `PUT` of every byte and then `FLUSH` emit the body (R213, R216), whatever `OUT` holds. -/
theorem ReadyToEmit.exists_body (h : ReadyToEmit bytes s) (record : List Byte) :
    ∃ body, execAll (bytes.map Instr.put ++ [Instr.flush]) { s with out := record } = .next { s with out := record ++ body } ∧
      IsBody s bytes body := by
  by_cases hu : 2#9 ≤ s.unique
  · obtain ⟨t, body, codes, hrun, -, hout, rfl, hbits, hframe⟩ :=
      bodyIsCodesThenPadding bytes _ (h.inv.set_out record) h.err h.phase hu h.acc h.nbits fun x hx => h.present hx
    refine ⟨body, ?_, fun hn => absurd hu hn, fun _ => ⟨_, hbits⟩⟩
    rw [hrun, hframe, hout]
  · have hputs : execAll (bytes.map Instr.put) { s with out := record } = .next { s with out := record } :=
      execAll_put_few (s := { s with out := record }) h.err h.phase hu fun x hx => h.present hx
    have hflush : exec .flush { s with out := record } = .next { s with out := record } := execFlush_idle h.err h.phase h.nbits
    refine ⟨[], ?_, fun _ => rfl, fun hn => absurd hn hu⟩
    rw [execAll_append, hputs, andThen_next, execAll_cons, hflush, andThen_next, execAll_nil, List.append_nil]

/-- `ENCODE` from any state leaves the block of an encoder, and in `OUT` its header and body. -/
theorem execAll_encodeCommands (hcount : ∀ b, bytes.count b < 2 ^ 32) (s : State) :
    ∃ t body, execAll (encodeCommands bytes) s = .next { t with out := headerBytes t ++ body } ∧ ReadyToEmit bytes t ∧
      IsBody t bytes body := by
  obtain ⟨r, hrec, hr⟩ := (recorded_clearBlock s).append (rest := bytes) hcount
  rw [List.nil_append] at hr
  obtain ⟨t, hbuild, ht⟩ := hr.build_gen
  obtain ⟨body, hbody, hb⟩ := ht.exists_body (headerBytes t)
  have hhout : execAll [Instr.hout] t = .next { t with out := headerBytes t } := by
    rw [execAll_cons, exec_hout ht.err (.inr ht.phase), andThen_next, execAll_nil, State.emit, ht.out, List.nil_append]
  have hsplit : encodeCommands bytes =
      Instr.clr :: (bytes.map Instr.recSym ++ ([Instr.build, .gen] ++ ([Instr.hout] ++ (bytes.map Instr.put ++ [Instr.flush])))) := by
    simp [encodeCommands]
  refine ⟨t, body, ?_, ht, hb⟩
  rw [hsplit, execAll_clr_cons, execAll_append, hrec, andThen_next, execAll_append, hbuild, andThen_next,
    execAll_append, hhout, andThen_next, hbody]

end Sys2Proof.Machine
end

section
/-! PROOF. Runs of `GET`: body bytes are one sequence of bits, and the walk inverts a concatenation of root paths (R226, R230). -/

namespace Sys2Proof.Machine

variable {s t : State}

/-! ## The bits of many bytes -/

/-- The loop over two runs of bits is one loop; a stop or a fault of the first is that of the second too. -/
theorem takeBits_append (a b : List Bool) (s : State) : takeBits (a ++ b) s = andThen (takeBits a s) (takeBits b) := by
  induction a generalizing s with
  | nil => rfl
  | cons c a ih =>
    by_cases hd : s.decoded = s.total
    · rw [takeBits_done hd, takeBits_done hd, andThen_next, takeBits_done hd]
    cases hn : s.node? s.cur with
    | none => simp [takeBits, hd, State.readNode, hn]
    | some n =>
      cases n with
      | internal w l r =>
        rw [List.cons_append, takeBits_internal hd hn, takeBits_internal hd hn, andThen_assoc]
        exact congrArg _ (funext ih)
      | leaf sym w =>
        rw [List.cons_append, takeBits_leaf hd hn, takeBits_leaf hd hn, andThen_next]
        cases b with
        | nil => rfl
        | cons c' b => exact (takeBits_leaf (s := { s with err := .corrupt }) hd hn).symm

/-- `GET` of every byte of a body is the loop over the body's bits, when that ends without a fault. -/
theorem execAll_get {body : List Byte} (hp : s.phase = .tree ∨ s.phase = .coded) (h : takeBits (body.flatMap bitsMsbFirst) s = .next t)
    (ht : t.err = .noFault) : execAll (body.map Instr.get) s = .next t := by
  induction body generalizing s with
  | nil => exact h
  | cons b body ih =>
    have hlive : ∀ {bits : List Bool} {v : State}, takeBits bits v = .next t → v.err = .noFault := fun hv =>
      (takeBits_err hv).elim (fun e => e ▸ ht) fun e => by simp [ht] at e
    have he := hlive h
    rw [List.flatMap_cons, takeBits_append, andThen_eq_next_iff] at h
    obtain ⟨u, hu, hrest⟩ := h
    have hget : exec (.get b) s = .next u := (execGet_eq_takeBits b he hp).trans hu
    have hup : u.phase = s.phase := by rw [takeBits_frame hu]
    rw [List.map_cons, execAll_cons, hget, andThen_next, ih (hup ▸ hp) hrest]

/-! ## A concatenation of paths -/

/-- A leaf is reached without a direction at the leaf itself. -/
theorem leafReached_nil_iff {i : NodeIdx} {x : Symbol} : leafReached s i [] = some x ↔ ∃ w, s.node? i = some (.leaf x w) := by
  cases hn : s.node? i with
  | none => simp [leafReached, hn]
  | some n => cases n <;> simp [leafReached, hn]

/-- A direction is taken at an internal node. -/
theorem exists_internal_of_leafReached_cons {i : NodeIdx} {c : Bool} {p : List Bool} {x : Symbol}
    (h : leafReached s i (c :: p) = some x) : ∃ w l r, s.node? i = some (.internal w l r) := by
  cases hn : s.node? i with
  | none => simp [leafReached, descend, hn] at h
  | some n =>
    cases n with
    | leaf sym w => simp [leafReached, descend_leaf hn] at h
    | internal w l r => exact ⟨w, l, r, rfl⟩

/-- A path from the pointer to a leaf emits the leaf's symbol, with the pointer at the root after it. -/
theorem takeBits_path {p : List Bool} {x : Symbol} (hp : p ≠ []) (hd : s.decoded ≠ s.total) (hx : leafReached s s.cur p = some x)
    (rest : List Bool) :
    takeBits (p ++ rest) s = takeBits rest { s with out := s.out ++ [x], decoded := s.decoded + 1#40, cur := s.root } := by
  induction p generalizing s with
  | nil => exact absurd rfl hp
  | cons c p ih =>
    obtain ⟨w, l, r, hn⟩ := exists_internal_of_leafReached_cons hx
    rw [leafReached_cons hn] at hx
    rw [List.cons_append, takeBits_internal hd hn]
    cases p with
    | nil =>
      obtain ⟨w', hleaf⟩ := leafReached_nil_iff.1 hx
      rw [moveTo_eq_next_iff.2 (.inl ⟨x, w', hleaf, rfl⟩), andThen_next, List.nil_append]
    | cons c' p =>
      obtain ⟨w', l', r', hchild⟩ := exists_internal_of_leafReached_cons hx
      rw [moveTo_eq_next_iff.2 (.inr ⟨w', l', r', hchild, rfl⟩), andThen_next]
      exact ih (s := { s with cur := if c then r else l }) (by simp) hd ((leafReached_congr (by rfl) _ _).trans hx)

/-- In the tree of `g`, the codes of as many symbols as remain to be decoded, whatever bits follow, decode to these symbols (R226,
R227). -/
theorem takeBits_codeBits {g : State} {xs : List Symbol} (hn : s.nodes = g.nodes) (hr : s.root = g.root) (hcur : s.cur = s.root)
    (hcode : ∀ x ∈ xs, ∃ c, g.code? x = some c ∧ c.bits ≠ [] ∧ leafReached g g.root c.bits = some x)
    (hroom : s.decoded.toNat + xs.length = s.total.toNat) (pad : List Bool) :
    ∃ t, takeBits (codeBits g xs ++ pad) s = .next t ∧ t.err = s.err ∧ t.decoded = t.total ∧ t.out = s.out ++ xs := by
  induction xs generalizing s with
  | nil =>
    have hd : s.decoded = s.total := BitVec.eq_of_toNat_eq hroom
    exact ⟨s, takeBits_done hd, rfl, hd, (List.append_nil _).symm⟩
  | cons x xs ih =>
    obtain ⟨⟨c, hc, hne, hreach⟩, hrest⟩ := List.forall_mem_cons.1 hcode
    rw [List.length_cons] at hroom
    have hlt : s.decoded < s.total := BitVec.lt_def.2 (by omega)
    have hx : leafReached s s.cur c.bits = some x := by rw [leafReached_congr hn, hcur, hr, hreach]
    obtain ⟨t, ht, hte, htd, hto⟩ :=
      ih (s := { s with out := s.out ++ [x], decoded := s.decoded + 1#40, cur := s.root }) hn hr rfl hrest
        (by simp only [toNat_decoded_add_one hlt]; omega)
    refine ⟨t, ?_, hte, htd, by rw [hto, List.append_assoc, List.singleton_append]⟩
    rw [codeBits_cons hc, List.append_assoc, takeBits_path hne (BitVec.ne_of_lt hlt) hx, ht]

end Sys2Proof.Machine
end

section
/-! PROOF. The round trip: `DECODE` reads the header back (R199), builds the encoder's tree (R169) and decodes the body (R115, R230). -/

namespace Sys2Proof.Machine

variable {s t : State} {bytes body : List Byte}

/-! ## The commands of `DECODE` (R115) -/

/-- `DECODE` of an artifact that begins with the count byte `n`. -/
theorem decodeCommands_cons (n : Byte) (rest : List Byte) :
    decodeCommands (n :: rest) =
      [Instr.clr] ++ ((n :: rest).take (1 + 5 * (n.toNat + 1))).map Instr.hin ++ [Instr.build] ++
        (if n = 0#8 then [Instr.drep] else ((n :: rest).drop (1 + 5 * (n.toNat + 1))).map Instr.get) := by
  rw [decodeCommands]

/-- The count byte is one less than the number of present symbols (R108). -/
theorem FreqInv.toNat_countByte_add_one (h : FreqInv s) (hu : s.unique ≠ 0#9) : (countByte s.unique).toNat + 1 = s.unique.toNat := by
  have hcount := congrArg BitVec.toNat (h.declaredCount_countByte hu)
  have := (countByte s.unique).isLt
  rw [declaredCount_eq_ofNat, BitVec.toNat_ofNat, Nat.mod_eq_of_lt (by omega)] at hcount
  exact hcount

theorem length_headerBytes (hw : Memory.wf s) (hf : FreqInv s) (hu : s.unique ≠ 0#9) :
    (headerBytes s).length = 1 + 5 * s.unique.toNat := by
  rw [hw.headerBytes_eq hu, List.length_cons, length_flatMap_entryBytes, ← hf.unique_eq_length hw, Nat.add_comm]

/-- `DECODE` of an artifact feeds its header to `HIN` and, with two or more present symbols, its body to `GET`. -/
theorem decodeCommands_artifact (h : Inv s) (hb : s.unique = 0#9 → body = []) :
    decodeCommands (headerBytes s ++ body) =
      (Instr.clr :: (headerBytes s).map Instr.hin) ++ ([Instr.build] ++ if s.unique ≤ 1#9 then [Instr.drep] else body.map Instr.get) := by
  by_cases hu : s.unique = 0#9
  · rw [hb hu, headerBytes, if_pos hu, if_pos (by rw [hu]; decide)]
    rfl
  · have hcount := h.freqInv.toNat_countByte_add_one hu
    have hlen := length_headerBytes h.wf h.freqInv hu
    have hone : countByte s.unique = 0#8 ↔ s.unique ≤ 1#9 := by
      rw [← BitVec.toNat_inj, BitVec.le_def, BitVec.toNat_ofNat, BitVec.toNat_ofNat]
      omega
    have hcons := h.wf.headerBytes_eq hu
    rw [hcons, List.cons_append, decodeCommands_cons, ← List.cons_append, ← hcons, hcount, List.take_left' hlen,
      List.drop_left' hlen]
    simp only [hone, List.nil_append, List.append_assoc, List.cons_append]

/-! ## Reading the header and building the tree -/

/-- Commands keep the invariants, however many. -/
theorem Inv.execAll (h : Inv s) {l : List Instr} (hl : execAll l s = .next t) : Inv t := by
  induction l generalizing s with
  | nil => cases hl; exact h
  | cons i rest ih =>
    obtain ⟨u, hu, ht⟩ := andThen_eq_next_iff.1 hl
    obtain ⟨v, hv, hvi⟩ := h.exec i
    cases hu.symm.trans hv
    exact ih hvi ht

/-- Header bytes emit nothing (R44). -/
theorem execAll_hin_out {l : List Byte} (h : execAll (l.map Instr.hin) s = .next t) : t.out = s.out := by
  induction l generalizing s with
  | nil => cases h; rfl
  | cons b rest ih =>
    obtain ⟨u, hu, ht⟩ := andThen_eq_next_iff.1 h
    have hout : u.out = s.out := by obtain ⟨_, _, _, _, _, _, _, _, rfl⟩ := execHin_frame hu; rfl
    exact (ih ht).trans hout

/-- The open block of a decoder that has read the header of `g`. -/
structure HeaderRead (g s : State) : Prop where
  inv : Inv s
  err : s.err = .noFault
  phase : s.phase = .freq
  hst : s.hst = .idle ∨ s.hst = .done
  freq : s.freq = g.freq
  out : s.out = []

/-- From any state, `CLR` and the header's bytes: no bytes for an empty table, else those of the round trip of R199. -/
theorem Inv.exists_headerRead (h : Inv s) (t : State) :
    ∃ u, Machine.execAll (Instr.clr :: (headerBytes s).map Instr.hin) t = .next u ∧ HeaderRead s u := by
  by_cases hu : s.unique = 0#9
  · have hfreq : s.freq = [] := List.length_eq_zero_iff.1 (by rw [← h.freqInv.unique_eq_length h.wf, hu]; rfl)
    refine ⟨clearBlock t, ?_, inv_clearBlock t, rfl, rfl, .inl rfl, hfreq.symm, rfl⟩
    rw [headerBytes, if_pos hu, execAll_clr_cons, List.map_nil, execAll_nil]
  · obtain ⟨u, hrun, hread⟩ := execAll_clr_headerBytes h.wf h.freqInv hu t
    have hbytes := (execAll_clr_cons _ t).symm.trans hrun
    exact ⟨u, hrun, (inv_clearBlock t).execAll hbytes, hread.err, hread.phase, .inr (hread.hst_done_iff.2 rfl), hread.freq,
      execAll_hin_out hbytes⟩

/-- The block of a decoder with the tree of `g`, nothing decoded yet. -/
structure ReadyToDecode (g s : State) : Prop where
  inv : Inv s
  err : s.err = .noFault
  phase : s.phase = .tree
  freq : s.freq = g.freq
  unique : s.unique = g.unique
  total : s.total = g.total
  nodes : s.nodes = g.nodes
  root : s.root = g.root
  cur : s.cur = s.root
  decoded : s.decoded = 0#40
  out : s.out = []

/-- `BUILD` from the header of an encoder makes the encoder's tree (R169). -/
theorem HeaderRead.build {g : State} (h : HeaderRead g s) (hg : ReadyToEmit bytes g) :
    ∃ t, exec .build s = .next t ∧ ReadyToDecode g t := by
  obtain ⟨t, hbuild, hti, hframe, htp, htc⟩ := h.inv.execBuild h.err (.inl ⟨h.phase, h.hst⟩)
  obtain ⟨hnodes, hroot⟩ := hg.tree s t h.inv h.phase h.err (State.freqAt_congr h.freq) hbuild (hframe.err_eq.trans h.err)
  obtain ⟨hunique, htotal⟩ := hg.inv.freqInv.registers_of_freq_eq h.inv.freqInv h.freq
  obtain ⟨_, _, _, _, _, _, _, rfl⟩ := hframe
  exact ⟨_, hbuild,
    { inv := hti, err := h.err, phase := htp, freq := h.freq, unique := hunique, total := htotal, nodes := hnodes, root := hroot
      cur := htc, decoded := h.inv.workInv.decoded_zero (.inl h.phase), out := h.out }⟩

/-! ## Decoding the body -/

/-- The end of a decoder's run. -/
def Decodes (bytes : List Byte) (t : State) : Prop := t.err = .noFault ∧ t.flagDone = true ∧ t.out = bytes

/-- With two or more present symbols the body's bits are the codes of the bytes, and the walk takes them back (R216, R226). -/
theorem ReadyToDecode.get {g : State} (h : ReadyToDecode g s) (hg : ReadyToEmit bytes g) (hb : IsBody g bytes body)
    (hu : 2#9 ≤ g.unique) : ∃ t, execAll (body.map Instr.get) s = .next t ∧ Decodes bytes t := by
  obtain ⟨pad, hbits⟩ := hb.codes hu
  have hcode : ∀ x ∈ bytes, ∃ c, g.code? x = some c ∧ c.bits ≠ [] ∧ leafReached g g.root c.bits = some x := fun x hx => by
    obtain ⟨c, hc⟩ := Option.isSome_iff_exists.1 ((hg.inv.codeInv.present hg.phase hu x).2 (hg.present hx))
    obtain ⟨hreach, hpos, -⟩ := hg.inv.codeInv.is_path x c hc
    exact ⟨c, hc, List.length_pos_iff.1 hpos, hreach⟩
  have hroom : s.decoded.toNat + bytes.length = s.total.toNat := by
    rw [h.decoded, h.total, hg.total, BitVec.toNat_ofNat, Nat.zero_mod, Nat.zero_add]
  obtain ⟨t, hrun, hte, htd, hto⟩ := takeBits_codeBits h.nodes h.root h.cur hcode hroom pad
  have htp : t.phase = s.phase := by rw [takeBits_frame hrun]
  refine ⟨t, execAll_get (.inl h.phase) (hbits ▸ hrun) (hte.trans h.err), hte.trans h.err,
    flagDone_iff.2 ⟨.inl (htp.trans h.phase), htd⟩, by rw [hto, h.out, List.nil_append]⟩

/-- In the empty case nothing was recorded, and `DREP` emits nothing (R229). -/
theorem ReadyToDecode.drep_empty {g : State} (h : ReadyToDecode g s) (hg : ReadyToEmit bytes g) (hu : g.unique = 0#9) :
    ∃ t, exec .drep s = .next t ∧ Decodes bytes t := by
  have htotal : g.total.toNat = 0 := hg.inv.freqInv.unique_eq_zero_iff.1 (by rw [hu]; rfl)
  have hbytes : bytes = [] := List.length_eq_zero_iff.1 (hg.total ▸ htotal)
  have hdone : s.decoded = s.total := by rw [h.decoded, h.total]; exact BitVec.eq_of_toNat_eq htotal.symm
  exact ⟨s, execDrep_empty h.err (.inl h.phase) (h.unique.trans hu), h.err, flagDone_iff.2 ⟨.inl h.phase, hdone⟩, h.out.trans hbytes.symm⟩

/-- In the single-symbol case every byte is the symbol at the root, and `DREP` emits it as often as it was recorded (R229). -/
theorem ReadyToDecode.drep_single {g : State} (h : ReadyToDecode g s) (hg : ReadyToEmit bytes g) (hu : g.unique = 1#9) :
    ∃ t, exec .drep s = .next t ∧ Decodes bytes t := by
  have hu' : s.unique = 1#9 := h.unique.trans hu
  have hforest := h.inv.treeInv.forest (by simp [h.phase])
  obtain ⟨hpl, -⟩ := h.inv.treeInv.complete_root (.inl h.phase) (by rw [hu']; decide)
  obtain ⟨sym, w, hroot⟩ := hforest.root_leaf hpl hu'
  have hall : ∀ x ∈ bytes, x = sym := fun x hx => by
    have hx' : x ∈ presentSymbols s := mem_presentSymbols.2 (State.freqAt_congr h.freq x ▸ hg.present hx)
    simpa [leavesAt_leaf hroot] using (hforest.leavesAt_root hpl).symm.subset hx'
  have hbytes : bytes = List.replicate (s.total.toNat - s.decoded.toNat) sym := by
    refine List.eq_replicate_iff.2 ⟨?_, hall⟩
    rw [h.total, hg.total, h.decoded, BitVec.toNat_ofNat, Nat.zero_mod, Nat.sub_zero]
  exact ⟨_, execDrep_single h.err (.inl h.phase) hu' hroot, h.err, flagDone_iff.2 ⟨.inl h.phase, rfl⟩,
    by simp only [h.out, List.nil_append, ← hbytes]⟩

/-- The last commands of `DECODE`, by the number of present symbols. -/
theorem ReadyToDecode.decodes {g : State} (h : ReadyToDecode g s) (hg : ReadyToEmit bytes g) (hb : IsBody g bytes body) :
    ∃ t, execAll (if g.unique ≤ 1#9 then [Instr.drep] else body.map Instr.get) s = .next t ∧ Decodes bytes t := by
  by_cases hfew : g.unique ≤ 1#9
  · obtain ⟨t, ht, hdec⟩ : ∃ t, exec .drep s = .next t ∧ Decodes bytes t := by
      have hle : g.unique.toNat ≤ 1 := hfew
      rcases Nat.le_one_iff_eq_zero_or_eq_one.1 hle with h0 | h1
      · exact h.drep_empty hg (BitVec.eq_of_toNat_eq h0)
      · exact h.drep_single hg (BitVec.eq_of_toNat_eq h1)
    exact ⟨t, by rw [if_pos hfew, execAll_cons, ht]; rfl, hdec⟩
  · rw [if_neg hfew]
    exact h.get hg hb (Nat.lt_of_not_le hfew)

/-- Settles O52: the decoder reads the encoder's table, builds the encoder's tree, and takes back the bytes. -/
theorem decodeOfEncodeIsIdentity : Obligations.DecodeOfEncodeIsIdentity := by
  intro bytes s hcount
  obtain ⟨g, body, hencode, hg, hb⟩ := execAll_encodeCommands hcount s
  obtain ⟨u, hread, hu⟩ := hg.inv.exists_headerRead { g with out := headerBytes g ++ body }
  obtain ⟨v, hbuild, hv⟩ := hu.build hg
  obtain ⟨t, hdecode, ht⟩ := hv.decodes hg hb
  have hempty : g.unique = 0#9 → body = [] := fun h0 => hb.few (by rw [h0]; decide)
  refine ⟨_, t, hencode, hg.err, ?_, ht⟩
  rw [decodeCommands_artifact hg.inv hempty, execAll_append, hread, andThen_next, execAll_append, execAll_cons, hbuild, andThen_next,
    execAll_nil, andThen_next, hdecode]

end Sys2Proof.Machine
end

section
/-! PROOF. The control commands (R241 to R243), and the movements of `PHASE`: every command but `CLR` leaves it or moves it forward, and a
command that moves it takes no fault (R244, R30). -/

namespace Sys2Proof.Machine

variable {s t : State}

/-! ## `NOP`, `CLR` and `IOERR` -/

/-- Settles O16: its meaning answers the state it is given. -/
theorem nopChangesNothing : Obligations.NopChangesNothing := fun _ => rfl

/-- The status registers do not show the host's queue, so after `CLR` they read as after reset (R42, R43, R242). -/
theorem stdata_clearBlock (s : State) (stsel : BitVec 3) : (clearBlock s).stdata stsel = State.reset.stdata stsel := rfl

/-- Settles O17, by the status registers of the reset state. -/
theorem clrReturnsEverythingToReset : Obligations.ClrReturnsEverythingToReset := by
  intro s
  refine ⟨clearBlock s, rfl, rfl, ?_⟩
  obtain ⟨h0, h1, h2, h3, h4⟩ := stdata_reset
  simp only [stdata_clearBlock]
  exact ⟨h0, h1, h2, h3, h4, rfl⟩

/-- Settles O18, by the two cases of a guarded command. -/
theorem ioerrRecordsIo : Obligations.IoerrRecordsIo := fun _ =>
  ⟨fun he => execIoerr_eq_next_iff.2 (.inl ⟨he, rfl⟩), fun he => execIoerr_eq_next_iff.2 (.inr ⟨he, rfl⟩)⟩

/-! ## Where the builder leaves the phase -/

theorem finishSeeding_phase_eq_tree_iff (s : State) : (finishSeeding s).phase = .tree ↔ s.pl.length ≤ 1 := by
  by_cases h2 : 2 ≤ s.pl.length
  · rw [finishSeeding_two s h2]
    exact iff_of_false (by simp) (by omega)
  · rw [finishSeeding, if_neg h2]
    exact iff_of_true (treeComplete_phase s) (by omega)

theorem seedBody_phase (h : seedBody s = .next t) : t.phase = .seeded ∨ t.phase = .tree := by
  obtain ⟨u, -, rfl⟩ := seedBody_eq_next_iff.1 h
  exact (finishSeeding_stage u).imp And.left id

/-- The seeded list has a member per present symbol, so seeding completes the tree exactly with at most one of them (R145, R51). -/
theorem Inv.seedBody_phase_eq_tree_iff (h : Inv s) (hp : s.phase = .freq) (hb : Machine.seedBody s = .next t) :
    t.phase = .tree ↔ s.unique ≤ 1#9 := by
  obtain ⟨hn, hl, -⟩ := h.treeInv.open_empty hp
  obtain ⟨u, hu, hs⟩ := seedLoop_seededFrom (.refl _) hn hl
  cases hb.symm.trans (seedBody_eq_next_iff.2 ⟨u, hu, rfl⟩)
  rw [finishSeeding_phase_eq_tree_iff, hs.length_pl h.freqInv]
  exact Iff.rfl

/-- A merge step moves the phase only to TREE, and only when the two nodes it joins are the last (R161). -/
theorem mergeStep_moves_phase (h : mergeStep s = .next t) (hmove : t.phase ≠ s.phase) : s.pl.length = 2 ∧ t.phase = .tree := by
  have hlen := mergeStep_length h
  obtain ⟨l, r, rest, nl, nr, pl, -, -, -, -, -, rfl⟩ := mergeStep_eq_next_iff.1 h
  rw [completeIfSingle_pl] at hlen
  by_cases h1 : pl.length = 1
  · exact ⟨by rw [← hlen, h1], by rw [completeIfSingle, if_pos h1, treeComplete_phase]⟩
  · rw [completeIfSingle_of_length_ne_one _ h1] at hmove
    exact absurd rfl hmove

/-- The merge loop of `BUILD` ends in phase TREE (R164). -/
theorem mergeAll_phase (h : mergeAll s = .next t) (hp : s.phase = .seeded ∨ s.phase = .tree) : t.phase = .tree := by
  have hstage : t.phase = .seeded ∨ t.phase = .tree := by
    refine mergeLoop_induction (P := fun u => u.phase = .seeded ∨ u.phase = .tree) (fun u v hu hv => ?_) h hp
    rcases mergeStep_stage hv with ⟨htree, -⟩ | ⟨hsame, -⟩
    · exact .inr htree
    · rwa [hsame]
  exact hstage.resolve_left (mergeLoop_ne_seeded h)

/-! ## The movements of `PHASE` -/

/-- The movements of R244, one per command that makes one. -/
inductive PhaseMove (s t : State) : Instr → Prop
  | seed (hp : s.phase = .freq) (ht : t.phase = .seeded ∨ t.phase = .tree) (hu : Inv s → (t.phase = .tree ↔ s.unique ≤ 1#9)) :
      PhaseMove s t .seed
  | merge (hp : s.phase = .seeded) (hl : s.pl.length = 2) (ht : t.phase = .tree) : PhaseMove s t .merge
  | build (hp : s.phase = .freq ∨ s.phase = .seeded) (ht : t.phase = .tree) : PhaseMove s t .build
  | gen (hp : s.phase = .tree) (ht : t.phase = .coded) : PhaseMove s t .gen

/-- Every movement raises the value of `PHASE` (R30). -/
theorem PhaseMove.code_le {i : Instr} (h : PhaseMove s t i) : s.phase.code ≤ t.phase.code := by
  cases h with
  | seed hp ht _ => rcases ht with ht | ht <;> rw [hp, ht] <;> decide
  | merge hp _ ht => rw [hp, ht]; decide
  | build hp ht => rcases hp with hp | hp <;> rw [hp, ht] <;> decide
  | gen hp ht => rw [hp, ht]; decide

theorem execSeed_phase (h : execSeed s = .next t) : t.phase = s.phase ∨ (PhaseMove s t .seed ∧ t.err = s.err) := by
  rcases execSeed_eq_next_iff.1 h with ⟨-, ⟨hp, ⟨-, hb⟩ | ⟨-, rfl⟩⟩ | ⟨-, rfl⟩⟩ | ⟨-, rfl⟩
  · exact .inr ⟨.seed hp (seedBody_phase hb) fun hi => hi.seedBody_phase_eq_tree_iff hp hb, (seedBody_builderFrame hb).err_eq⟩
  all_goals exact .inl rfl

theorem execMerge_phase (h : execMerge s = .next t) : t.phase = s.phase ∨ (PhaseMove s t .merge ∧ t.err = s.err) := by
  rcases execMerge_eq_next_iff.1 h with ⟨-, ⟨hp, hm⟩ | ⟨-, rfl⟩⟩ | ⟨-, rfl⟩
  · refine or_iff_not_imp_left.2 fun hmove => ?_
    obtain ⟨hl, ht⟩ := mergeStep_moves_phase hm hmove
    exact ⟨.merge hp hl ht, mergeStep_err hm⟩
  all_goals exact .inl rfl

theorem execBuild_phase (h : execBuild s = .next t) : t.phase = s.phase ∨ (PhaseMove s t .build ∧ t.err = s.err) := by
  rcases execBuild_eq_next_iff.1 h with ⟨-, ⟨hp, ⟨-, u, hu, hm⟩ | ⟨-, rfl⟩⟩ | ⟨-, ⟨hp, hm⟩ | ⟨-, rfl⟩⟩⟩ | ⟨-, rfl⟩
  · exact .inr ⟨.build (.inl hp) (mergeAll_phase hm (seedBody_phase hu)),
      ((seedBody_builderFrame hu).trans (mergeAll_builderFrame hm)).err_eq⟩
  · exact .inl rfl
  · exact .inr ⟨.build (.inr hp) (mergeAll_phase hm (.inl hp)), (mergeAll_builderFrame hm).err_eq⟩
  all_goals exact .inl rfl

theorem execGen_phase (h : execGen s = .next t) : t.phase = s.phase ∨ (PhaseMove s t .gen ∧ t.err = s.err) := by
  rcases execGen_eq_next_iff.1 h with ⟨-, ⟨hp, ⟨-, _, -, rfl⟩ | ⟨-, rfl⟩⟩ | ⟨-, rfl⟩⟩ | ⟨-, rfl⟩
  · exact .inr ⟨.gen hp rfl, rfl⟩
  · exact .inr ⟨.gen hp rfl, rfl⟩
  all_goals exact .inl rfl

/-- A command other than `CLR` leaves `PHASE`, or makes its movement and takes no fault. -/
theorem exec_phase {i : Instr} (hi : i ≠ .clr) (h : exec i s = .next t) :
    t.phase = s.phase ∨ (PhaseMove s t i ∧ t.err = s.err) := by
  cases i with
  | clr => exact absurd rfl hi
  | seed => exact execSeed_phase h
  | merge => exact execMerge_phase h
  | build => exact execBuild_phase h
  | gen => exact execGen_phase h
  | nop => cases h; exact .inl rfl
  | recSym sym => obtain ⟨_, _, _, _, rfl⟩ := execRec_frame h; exact .inl rfl
  | hin b => obtain ⟨_, _, _, _, _, _, _, _, rfl⟩ := execHin_frame h; exact .inl rfl
  | hout => obtain ⟨_, _, rfl⟩ := execHout_frame h; exact .inl rfl
  | put sym => obtain ⟨_, _, _, _, rfl⟩ := execPut_frame h; exact .inl rfl
  | flush => obtain ⟨_, _, _, _, rfl⟩ := execFlush_frame h; exact .inl rfl
  | get b => obtain ⟨_, _, _, _, rfl⟩ := execGet_frame h; exact .inl rfl
  | drep => obtain ⟨_, _, _, rfl⟩ := execDrep_frame h; exact .inl rfl
  | ioerr => obtain ⟨_, rfl⟩ := execIoerr_frame h; exact .inl rfl

/-- Settles O13: each clause is read from the movement the command makes, if it makes one. -/
theorem phaseMovesOnlyForward : Obligations.PhaseMovesOnlyForward := by
  refine ⟨fun s t h => by cases h; rfl, fun i s t h hi => ?_⟩
  rcases exec_phase hi h with hstay | ⟨hmove, herr⟩
  · exact ⟨hstay ▸ BitVec.le_refl _, fun hne => absurd hstay hne, fun _ _ => hstay⟩
  · refine ⟨hmove.code_le, fun _ => ?_, fun he hte => absurd (herr.trans he) hte⟩
    cases hmove with
    | seed hp ht hu => exact .inl ⟨rfl, hp, ht, hu⟩
    | merge hp hl ht => exact .inr (.inl ⟨rfl, hp, hl, ht⟩)
    | build hp ht => exact .inr (.inr (.inl ⟨rfl, hp, ht⟩))
    | gen hp ht => exact .inr (.inr (.inr ⟨rfl, hp, ht⟩))

end Sys2Proof.Machine
end

section
/-! PROOF. The fault mechanism: which command takes which fault, and that a fault changes nothing but `ERR` (R261, R262). -/

namespace Sys2Proof.Machine

variable {s t : State}

/-- The faults a command takes before it has any effect: SEQ where the phase table does not allow it, else the code of its own rules
(R266 to R268, R275, R276). -/
inductive Raises (s : State) : Instr → ErrCode → Prop
  | seq {i : Instr} (h : legal i s = false) : Raises s i .seq
  | io : Raises s .ioerr .io
  | overflow {sym : Symbol} : Raises s (.recSym sym) .overflow
  | corrupt {b : Byte} : Raises s (.hin b) .corrupt
  | contract {sym : Symbol} : Raises s (.put sym) .contract

/-- How a command ends: without a fault, with a fault and no other effect, or as a `GET` that takes a bit at a leaf, the effects of its
earlier bits standing (R262). -/
inductive Ending (s : State) : Instr → State → Prop
  | completes {i : Instr} {t : State} (ht : t.err = .noFault) : Ending s i t
  | raises {i : Instr} {c : ErrCode} (hc : Raises s i c) : Ending s i { s with err := c }
  | bitAtLeaf {b : Byte} {t : State} (hp : s.phase = .tree ∨ s.phase = .coded) (hbits : takeBits (bitsMsbFirst b) s = .next t)
      (ht : t.err = .corrupt) : Ending s (.get b) t

/-- A header byte the phase table allows is taken, or is a fifth byte that is CORRUPT (R194, R198). -/
theorem ending_hin {b : Byte} (he : s.err = .noFault) (hl : legal (.hin b) s = true) (h : execHin b s = .next t) :
    Ending s (.hin b) t := by
  obtain ⟨⟨hp, hd⟩, ht⟩ : (s.phase = .freq ∧ s.hst ≠ .done) ∧ (s.hst ≠ .idle ∨ s.total = 0#40) := by simpa [legal] using hl
  by_cases hh : s.hst = .f0
  · rw [execHin_f0 he hp hh] at h
    split at h
    · cases h; exact .completes he
    · cases h; exact .raises .corrupt
  · obtain ⟨u, hu, hue⟩ := execHin_accepts_early he hp hh hd fun hidle => ht.resolve_left (not_not_intro hidle)
    cases hu.symm.trans h
    exact .completes hue

/-- The loop of `GET` ends without a fault, or at a leaf (R226, R228). -/
theorem ending_get {b : Byte} (he : s.err = .noFault) (hp : s.phase = .tree ∨ s.phase = .coded) (h : execGet b s = .next t) :
    Ending s (.get b) t := by
  rw [execGet_eq_takeBits b he hp] at h
  rcases takeBits_err h with hte | hte
  · exact .completes (hte.trans he)
  · exact .bitAtLeaf hp h hte

/-- Every command that finds `ERR = 0` ends in one of these ways. SEQ is set apart first, by the phase table. -/
theorem exec_ending {i : Instr} (he : s.err = .noFault) (h : exec i s = .next t) : Ending s i t := by
  by_cases hl : legal i s = true
  case neg =>
    have hl' : legal i s = false := Bool.eq_false_iff.2 hl
    cases h.symm.trans (exec_eq_seq_of_not_legal he hl')
    exact .raises (.seq hl')
  have hseq : t.err ≠ .seq := err_ne_seq_of_legal he hl h
  cases i with
  | nop => cases h; exact .completes he
  | clr => cases h; exact .completes rfl
  | ioerr =>
    rcases execIoerr_eq_next_iff.1 h with ⟨-, rfl⟩ | ⟨hn, -⟩
    · exact .raises .io
    · exact absurd he hn
  | recSym sym =>
    rcases execRec_eq_next_iff.1 h with ⟨-, ⟨-, ⟨-, rfl⟩ | ⟨-, rfl⟩⟩ | ⟨-, rfl⟩⟩ | ⟨hn, -⟩
    · exact .completes he
    · exact .raises .overflow
    · exact absurd rfl hseq
    · exact absurd he hn
  | hin b => exact ending_hin he hl h
  | seed =>
    rcases execSeed_eq_next_iff.1 h with ⟨-, ⟨-, ⟨-, hb⟩ | ⟨-, rfl⟩⟩ | ⟨-, rfl⟩⟩ | ⟨hn, -⟩
    · exact .completes ((seedBody_builderFrame hb).err_eq.trans he)
    · exact absurd rfl hseq
    · exact absurd rfl hseq
    · exact absurd he hn
  | merge =>
    rcases execMerge_eq_next_iff.1 h with ⟨-, ⟨-, hm⟩ | ⟨-, rfl⟩⟩ | ⟨hn, -⟩
    · exact .completes ((mergeStep_err hm).trans he)
    · exact absurd rfl hseq
    · exact absurd he hn
  | build =>
    rcases execBuild_eq_next_iff.1 h with ⟨-, ⟨-, ⟨-, u, hu, hm⟩ | ⟨-, rfl⟩⟩ | ⟨-, ⟨-, hm⟩ | ⟨-, rfl⟩⟩⟩ | ⟨hn, -⟩
    · exact .completes (((seedBody_builderFrame hu).trans (mergeAll_builderFrame hm)).err_eq.trans he)
    · exact absurd rfl hseq
    · exact .completes ((mergeAll_builderFrame hm).err_eq.trans he)
    · exact absurd rfl hseq
    · exact absurd he hn
  | gen =>
    rcases execGen_eq_next_iff.1 h with ⟨-, ⟨-, ⟨-, _, -, rfl⟩ | ⟨-, rfl⟩⟩ | ⟨-, rfl⟩⟩ | ⟨hn, -⟩
    · exact .completes he
    · exact .completes he
    · exact absurd rfl hseq
    · exact absurd he hn
  | hout =>
    rcases execHout_eq_next_iff.1 h with ⟨-, ⟨-, rfl⟩ | ⟨-, rfl⟩⟩ | ⟨hn, -⟩
    · exact .completes he
    · exact absurd rfl hseq
    · exact absurd he hn
  | put sym =>
    rcases execPut_eq_next_iff.1 h with ⟨-, ⟨-, ⟨-, ⟨-, c, -, rfl⟩ | ⟨-, rfl⟩⟩ | ⟨-, rfl⟩⟩ | ⟨-, rfl⟩⟩ | ⟨hn, -⟩
    · exact .completes (by rw [appendBits_frame]; exact he)
    · exact .completes he
    · exact .raises .contract
    · exact absurd rfl hseq
    · exact absurd he hn
  | flush =>
    rcases execFlush_eq_next_iff.1 h with ⟨-, ⟨-, ⟨-, rfl⟩ | ⟨-, rfl⟩⟩ | ⟨-, rfl⟩⟩ | ⟨hn, -⟩
    · exact .completes he
    · exact .completes he
    · exact absurd rfl hseq
    · exact absurd he hn
  | get b => exact ending_get he (by simpa [legal] using hl) h
  | drep =>
    rcases execDrep_eq_next_iff.1 h with ⟨-, ⟨-, ⟨-, ⟨-, hr⟩ | ⟨-, rfl⟩⟩ | ⟨-, rfl⟩⟩ | ⟨-, rfl⟩⟩ | ⟨hn, -⟩
    · obtain ⟨sym, w, -, rfl⟩ := repeatRoot_eq_next_iff.1 hr
      exact .completes he
    · exact .completes he
    · exact absurd rfl hseq
    · exact absurd rfl hseq
    · exact absurd he hn

/-- Under the invariants a `GET` that meets a leaf before a bit meets it before its first bit: the root is the only node (R228, R262). -/
theorem Inv.execGet_corrupt_eq {b : Byte} (h : Inv s) (he : s.err = .noFault) (hp : s.phase = .tree ∨ s.phase = .coded)
    (hget : execGet b s = .next t) (hc : t.err = .corrupt) : t = { s with err := .corrupt } := by
  obtain ⟨hu, hlt⟩ := (h.execGet_corrupt_iff he hp hget).1 hc
  obtain ⟨sym, w, hleaf⟩ := h.cur_leaf hp hu
  cases hget.symm.trans (execGet_at_leaf b he hp (BitVec.ne_of_lt hlt) hleaf)
  rfl

/-- Settles O11: of the ways a command can end, only a `GET` that takes a bit at a leaf has effects besides its fault. -/
theorem faultChangesOnlyErr : Obligations.FaultChangesOnlyErr := by
  intro i s t he h hfault
  cases exec_ending he h with
  | completes ht => exact absurd ht hfault
  | raises hc => exact ⟨fun _ => rfl, rfl⟩
  | @bitAtLeaf b _ hp hbits ht =>
    refine ⟨fun hor => ?_, takeBits_frame hbits⟩
    rcases hor with hnot | hinv
    · exact absurd rfl (hnot b)
    · rw [ht]; exact hinv.execGet_corrupt_eq he hp h ht

/-- Settles O12: only the fault that a command takes sets `ERR`, and the phase table always allows `NOP`, `CLR` and `IOERR`. -/
theorem faultCodesByCommand : Obligations.FaultCodesByCommand := by
  refine ⟨fun i s t he h => ?_, rfl⟩
  cases exec_ending he h with
  | completes ht => simp [ht]
  | raises hc =>
    cases hc with
    | seq hl =>
      have hchecked : i ≠ .nop ∧ i ≠ .clr ∧ i ≠ .ioerr := by
        refine ⟨?_, ?_, ?_⟩ <;> (rintro rfl; cases hl)
      simpa using hchecked
    | io => simp
    | overflow => simp
    | corrupt => simp
    | contract => simp
  | bitAtLeaf _ _ ht => simp [ht]

/-- In the empty case no symbol is present (R51). -/
theorem FreqInv.freqAt_of_empty (h : FreqInv s) (hu : s.unique = 0#9) (sym : Symbol) : s.freqAt sym = 0#32 := by
  have hnone : presentSymbols s = [] := List.length_eq_zero_iff.1 (by rw [h.unique_eq, hu]; rfl)
  by_contra hne
  simpa [hnone] using mem_presentSymbols.2 hne

/-- Settles O40: in the empty case every symbol is absent. -/
theorem putOfAbsentSymbolIsContract : Obligations.PutOfAbsentSymbolIsContract := by
  intro sym s he hp habsent
  have hx : s.freqAt sym = 0#32 := habsent.elim id fun ⟨hf, hu⟩ => hf.freqAt_of_empty hu sym
  exact execPut_of_absent he hp hx

end Sys2Proof.Machine
end

section
/-! PROOF. The host's side of the block: ill-formed words (R265), words to a faulted block (R263), waiting and reset (R290, R301). -/

namespace Sys2Proof.Machine

variable {s : State} {w : Word}

/-- What the command port does with a word that fails the checks of R104 (R105). -/
theorem presentWord_of_illFormed (h : (fieldsOf w).wellFormed = false) (s : State) : presentWord w s = execIllFormed s := by
  cases hd : decode w with
  | error r => simp only [presentWord, hd]
  | ok i => simp [wellFormed_iff_decodes.2 ⟨i, hd⟩] at h

/-- `CLR` is the exact word 0x1000 (R102, R263). -/
theorem decode_eq_clr_iff : decode w = .ok .clr ↔ w = 0x1000#16 := decodeInvertsEncode w .clr

/-- A faulted block ignores every word but that of `CLR` (R263). -/
theorem presentWord_of_faulted (he : s.err ≠ .noFault) (hw : w ≠ 0x1000#16) : presentWord w s = .next s := by
  cases hd : decode w with
  | ok i =>
    have hi : i ≠ .clr := by rintro rfl; exact hw (decode_eq_clr_iff.1 hd)
    rw [presentWord_of_decode_ok hd, exec_of_faulted hi he]
  | error r => simp only [presentWord, hd]; exact execIllFormed_eq_next_iff.2 (.inr ⟨he, rfl⟩)

/-- Settles O5: an ill-formed word takes the fault. -/
theorem illFormedWordRaisesIllegal : Obligations.IllFormedWordRaisesIllegal := by
  intro s w rest hhost hw he
  calc step s = execIllFormed { s with host := rest } := (step_command hhost).trans (presentWord_of_illFormed hw _)
    _ = .next { s with host := rest, err := .illegal } := execIllFormed_eq_next_iff.2 (.inl ⟨he, rfl⟩)

/-- Settles O6: the word of `CLR` is the one word that a faulted block takes. -/
theorem faultedBlockIgnoresAllButClr : Obligations.FaultedBlockIgnoresAllButClr := by
  intro s w rest hhost he
  rw [step_command hhost]
  exact ⟨fun hw => presentWord_of_faulted he hw, fun hw => presentWord_of_decode_ok (decode_eq_clr_iff.2 hw) _⟩

/-- Settles O7, by the two cases of the host's queue. -/
theorem waitAndResetSteps : Obligations.WaitAndResetSteps :=
  ⟨fun _ hhost => step_nil hhost, fun _ _ hhost => step_cons hhost⟩

end Sys2Proof.Machine
end
